-- ==== Sys2Proof/Word.lean ====
section
/-! DEFINITION. The word types of the hardware: 32-bit registers and addresses (00_scope.md R3), bytes (10_state.md R52), register numbers (10_state.md R31, R50) and CSR addresses (10_state.md R40). -/

namespace Sys2Proof

/-- An `x` or `f` register's content, an address or an instruction word: XLEN = FLEN = ILEN = 32 (R7). -/
abbrev Word := BitVec 32

/-- One byte of memory, the addressable unit (R52). -/
abbrev Byte := BitVec 8

/-- The number of a general register `x0` .. `x31` (R31). -/
abbrev XReg := BitVec 5

/-- The number of a floating-point register `f0` .. `f31` (R50). -/
abbrev FReg := BitVec 5

/-- The 12-bit address of a control and status register (R40). -/
abbrev CsrAddr := BitVec 12

end Sys2Proof
end

