-- ==== Sys2Proof/Syntax.lean ====
section
/-! DEFINITION. The instruction set: one constructor for each of the 80 rows of spec/opcode_table.json (00_scope.md R2), grouped by the files of spec/, alphabetical inside a group. Operands are the fields of 30_encoding.md R111 to R128, each with the width the encoding gives it; an offset of a branch or of `jal` is the byte distance, with the zero bit that its encoding implies. -/

namespace Sys2Proof

/-- The 80 instructions (00_scope.md R2). `rm` is the rounding-mode field as it stands in the word (45_float_arith.md
R311 says which values are legal). `fence` keeps its ignored fields `fm`, `rs1`, `rd` (30_encoding.md R134). -/
inductive Instr where
  -- Integer computational (40_integer_computational.md R200)
  /-- `add`, R201. -/
  | add (rd rs1 rs2 : XReg)
  /-- `addi`, R202. -/
  | addi (rd rs1 : XReg) (imm : BitVec 12)
  /-- `and`, R203. -/
  | and (rd rs1 rs2 : XReg)
  /-- `andi`, R204. -/
  | andi (rd rs1 : XReg) (imm : BitVec 12)
  /-- `auipc`, R205. -/
  | auipc (rd : XReg) (imm : BitVec 20)
  /-- `lui`, R206. -/
  | lui (rd : XReg) (imm : BitVec 20)
  /-- `or`, R207. -/
  | or (rd rs1 rs2 : XReg)
  /-- `ori`, R208. -/
  | ori (rd rs1 : XReg) (imm : BitVec 12)
  /-- `sll`, R209. -/
  | sll (rd rs1 rs2 : XReg)
  /-- `slli`, R210. -/
  | slli (rd rs1 : XReg) (shamt : BitVec 5)
  /-- `slt`, R211. -/
  | slt (rd rs1 rs2 : XReg)
  /-- `slti`, R212. -/
  | slti (rd rs1 : XReg) (imm : BitVec 12)
  /-- `sltiu`, R213. -/
  | sltiu (rd rs1 : XReg) (imm : BitVec 12)
  /-- `sltu`, R214. -/
  | sltu (rd rs1 rs2 : XReg)
  /-- `sra`, R215. -/
  | sra (rd rs1 rs2 : XReg)
  /-- `srai`, R216. -/
  | srai (rd rs1 : XReg) (shamt : BitVec 5)
  /-- `srl`, R217. -/
  | srl (rd rs1 rs2 : XReg)
  /-- `srli`, R218. -/
  | srli (rd rs1 : XReg) (shamt : BitVec 5)
  /-- `sub`, R219. -/
  | sub (rd rs1 rs2 : XReg)
  /-- `xor`, R220. -/
  | xor (rd rs1 rs2 : XReg)
  /-- `xori`, R221. -/
  | xori (rd rs1 : XReg) (imm : BitVec 12)
  -- Control transfer (41_control_transfer.md R230, R231)
  /-- `beq`, R232. -/
  | beq (rs1 rs2 : XReg) (offset : BitVec 13)
  /-- `bge`, R233. -/
  | bge (rs1 rs2 : XReg) (offset : BitVec 13)
  /-- `bgeu`, R234. -/
  | bgeu (rs1 rs2 : XReg) (offset : BitVec 13)
  /-- `blt`, R235. -/
  | blt (rs1 rs2 : XReg) (offset : BitVec 13)
  /-- `bltu`, R236. -/
  | bltu (rs1 rs2 : XReg) (offset : BitVec 13)
  /-- `bne`, R237. -/
  | bne (rs1 rs2 : XReg) (offset : BitVec 13)
  /-- `jal`, R238. -/
  | jal (rd : XReg) (offset : BitVec 21)
  /-- `jalr`, R239. -/
  | jalr (rd rs1 : XReg) (offset : BitVec 12)
  -- Integer load and store (42_load_store.md R250)
  /-- `lb`, R251. -/
  | lb (rd rs1 : XReg) (offset : BitVec 12)
  /-- `lbu`, R252. -/
  | lbu (rd rs1 : XReg) (offset : BitVec 12)
  /-- `lh`, R253. -/
  | lh (rd rs1 : XReg) (offset : BitVec 12)
  /-- `lhu`, R254. -/
  | lhu (rd rs1 : XReg) (offset : BitVec 12)
  /-- `lw`, R255. -/
  | lw (rd rs1 : XReg) (offset : BitVec 12)
  /-- `sb`, R256. -/
  | sb (rs2 rs1 : XReg) (offset : BitVec 12)
  /-- `sh`, R257. -/
  | sh (rs2 rs1 : XReg) (offset : BitVec 12)
  /-- `sw`, R258. -/
  | sw (rs2 rs1 : XReg) (offset : BitVec 12)
  -- Multiply and divide (43_multiply_divide.md R270, R271)
  /-- `div`, R272. -/
  | div (rd rs1 rs2 : XReg)
  /-- `divu`, R273. -/
  | divu (rd rs1 rs2 : XReg)
  /-- `mul`, R274. -/
  | mul (rd rs1 rs2 : XReg)
  /-- `mulh`, R275. -/
  | mulh (rd rs1 rs2 : XReg)
  /-- `mulhsu`, R276. -/
  | mulhsu (rd rs1 rs2 : XReg)
  /-- `mulhu`, R277. -/
  | mulhu (rd rs1 rs2 : XReg)
  /-- `rem`, R278. -/
  | rem (rd rs1 rs2 : XReg)
  /-- `remu`, R279. -/
  | remu (rd rs1 rs2 : XReg)
  -- CSR, environment and fence (44_csr_system.md R290)
  /-- `csrrc`, R291. -/
  | csrrc (rd : XReg) (csr : CsrAddr) (rs1 : XReg)
  /-- `csrrci`, R292. -/
  | csrrci (rd : XReg) (csr : CsrAddr) (zimm : BitVec 5)
  /-- `csrrs`, R293. -/
  | csrrs (rd : XReg) (csr : CsrAddr) (rs1 : XReg)
  /-- `csrrsi`, R294. -/
  | csrrsi (rd : XReg) (csr : CsrAddr) (zimm : BitVec 5)
  /-- `csrrw`, R295. -/
  | csrrw (rd : XReg) (csr : CsrAddr) (rs1 : XReg)
  /-- `csrrwi`, R296. -/
  | csrrwi (rd : XReg) (csr : CsrAddr) (zimm : BitVec 5)
  /-- `ebreak`, R297. -/
  | ebreak
  /-- `ecall`, R298. -/
  | ecall
  /-- `fence`, R299. -/
  | fence (fm pred succ : BitVec 4) (rs1 rd : XReg)
  -- Floating-point arithmetic (45_float_arith.md R310 to R322)
  /-- `fadd.s`, R323. -/
  | faddS (rd rs1 rs2 : FReg) (rm : BitVec 3)
  /-- `fdiv.s`, R324. -/
  | fdivS (rd rs1 rs2 : FReg) (rm : BitVec 3)
  /-- `fmadd.s`, R325. -/
  | fmaddS (rd rs1 rs2 rs3 : FReg) (rm : BitVec 3)
  /-- `fmax.s`, R326. -/
  | fmaxS (rd rs1 rs2 : FReg)
  /-- `fmin.s`, R327. -/
  | fminS (rd rs1 rs2 : FReg)
  /-- `fmsub.s`, R328. -/
  | fmsubS (rd rs1 rs2 rs3 : FReg) (rm : BitVec 3)
  /-- `fmul.s`, R329. -/
  | fmulS (rd rs1 rs2 : FReg) (rm : BitVec 3)
  /-- `fnmadd.s`, R330. -/
  | fnmaddS (rd rs1 rs2 rs3 : FReg) (rm : BitVec 3)
  /-- `fnmsub.s`, R331. -/
  | fnmsubS (rd rs1 rs2 rs3 : FReg) (rm : BitVec 3)
  /-- `fsqrt.s`, R332. -/
  | fsqrtS (rd rs1 : FReg) (rm : BitVec 3)
  /-- `fsub.s`, R333. -/
  | fsubS (rd rs1 rs2 : FReg) (rm : BitVec 3)
  -- Floating-point classify, convert, compare, move, sign-inject, load and store (46_float_move_convert_compare.md R340)
  /-- `fclass.s`, R341. -/
  | fclassS (rd : XReg) (rs1 : FReg)
  /-- `fcvt.s.w`, R342. -/
  | fcvtSW (rd : FReg) (rs1 : XReg) (rm : BitVec 3)
  /-- `fcvt.s.wu`, R343. -/
  | fcvtSWU (rd : FReg) (rs1 : XReg) (rm : BitVec 3)
  /-- `fcvt.w.s`, R344. -/
  | fcvtWS (rd : XReg) (rs1 : FReg) (rm : BitVec 3)
  /-- `fcvt.wu.s`, R345. -/
  | fcvtWUS (rd : XReg) (rs1 : FReg) (rm : BitVec 3)
  /-- `feq.s`, R346. -/
  | feqS (rd : XReg) (rs1 rs2 : FReg)
  /-- `fle.s`, R347. -/
  | fleS (rd : XReg) (rs1 rs2 : FReg)
  /-- `flt.s`, R348. -/
  | fltS (rd : XReg) (rs1 rs2 : FReg)
  /-- `flw`, R349. -/
  | flw (rd : FReg) (rs1 : XReg) (offset : BitVec 12)
  /-- `fmv.w.x`, R350. -/
  | fmvWX (rd : FReg) (rs1 : XReg)
  /-- `fmv.x.w`, R351. -/
  | fmvXW (rd : XReg) (rs1 : FReg)
  /-- `fsgnj.s`, R352. -/
  | fsgnjS (rd rs1 rs2 : FReg)
  /-- `fsgnjn.s`, R353. -/
  | fsgnjnS (rd rs1 rs2 : FReg)
  /-- `fsgnjx.s`, R354. -/
  | fsgnjxS (rd rs1 rs2 : FReg)
  /-- `fsw`, R355. -/
  | fsw (rs2 : FReg) (rs1 : XReg) (offset : BitVec 12)
deriving DecidableEq, Repr

end Sys2Proof
end

