-- ==== Sys2Proof/WellFormed.lean ====
section
/-! DEFINITION. Which terms of the syntax have an encoding. Every operand's type has the width of its field, so the one thing a term can get wrong is the low bit of a branch's or a `jal`'s offset, which the encoding leaves out because it is zero (30_encoding.md R122, R124, R148 (b)). -/

namespace Sys2Proof

/-- The offset of a branch is even (30_encoding.md R122). -/
def branchOffsetOk (offset : BitVec 13) : Bool := offset.getLsbD 0 == false

/-- The offset of `jal` is even (30_encoding.md R124). -/
def jumpOffsetOk (offset : BitVec 21) : Bool := offset.getLsbD 0 == false

/-- The term has an encoding. -/
def Instr.wellFormed : Instr → Bool
  | .add _ _ _ => true
  | .addi _ _ _ => true
  | .and _ _ _ => true
  | .andi _ _ _ => true
  | .auipc _ _ => true
  | .lui _ _ => true
  | .or _ _ _ => true
  | .ori _ _ _ => true
  | .sll _ _ _ => true
  | .slli _ _ _ => true
  | .slt _ _ _ => true
  | .slti _ _ _ => true
  | .sltiu _ _ _ => true
  | .sltu _ _ _ => true
  | .sra _ _ _ => true
  | .srai _ _ _ => true
  | .srl _ _ _ => true
  | .srli _ _ _ => true
  | .sub _ _ _ => true
  | .xor _ _ _ => true
  | .xori _ _ _ => true
  | .beq _ _ offset => branchOffsetOk offset
  | .bge _ _ offset => branchOffsetOk offset
  | .bgeu _ _ offset => branchOffsetOk offset
  | .blt _ _ offset => branchOffsetOk offset
  | .bltu _ _ offset => branchOffsetOk offset
  | .bne _ _ offset => branchOffsetOk offset
  | .jal _ offset => jumpOffsetOk offset
  | .jalr _ _ _ => true
  | .lb _ _ _ => true
  | .lbu _ _ _ => true
  | .lh _ _ _ => true
  | .lhu _ _ _ => true
  | .lw _ _ _ => true
  | .sb _ _ _ => true
  | .sh _ _ _ => true
  | .sw _ _ _ => true
  | .div _ _ _ => true
  | .divu _ _ _ => true
  | .mul _ _ _ => true
  | .mulh _ _ _ => true
  | .mulhsu _ _ _ => true
  | .mulhu _ _ _ => true
  | .rem _ _ _ => true
  | .remu _ _ _ => true
  | .csrrc _ _ _ => true
  | .csrrci _ _ _ => true
  | .csrrs _ _ _ => true
  | .csrrsi _ _ _ => true
  | .csrrw _ _ _ => true
  | .csrrwi _ _ _ => true
  | .ebreak => true
  | .ecall => true
  | .fence _ _ _ _ _ => true
  | .faddS _ _ _ _ => true
  | .fdivS _ _ _ _ => true
  | .fmaddS _ _ _ _ _ => true
  | .fmaxS _ _ _ => true
  | .fminS _ _ _ => true
  | .fmsubS _ _ _ _ _ => true
  | .fmulS _ _ _ _ => true
  | .fnmaddS _ _ _ _ _ => true
  | .fnmsubS _ _ _ _ _ => true
  | .fsqrtS _ _ _ => true
  | .fsubS _ _ _ _ => true
  | .fclassS _ _ => true
  | .fcvtSW _ _ _ => true
  | .fcvtSWU _ _ _ => true
  | .fcvtWS _ _ _ => true
  | .fcvtWUS _ _ _ => true
  | .feqS _ _ _ => true
  | .fleS _ _ _ => true
  | .fltS _ _ _ => true
  | .flw _ _ _ => true
  | .fmvWX _ _ => true
  | .fmvXW _ _ => true
  | .fsgnjS _ _ _ => true
  | .fsgnjnS _ _ _ => true
  | .fsgnjxS _ _ _ => true
  | .fsw _ _ _ => true

end Sys2Proof
end

