-- ==== Sys2Proof/Decode.lean ====
section
/-! DEFINITION. The encoding of 30_encoding.md: the six fields that every word is cut into (R111), the immediates made from them (R120 to R128), the decoder (R130 to R136), total on any bytes and rejecting by name, the encoder, and the opcode table itself (R137). All bit patterns are the public RISC-V ones, as the spec supplies them (D4). -/

namespace Sys2Proof

/-! ## Fields -/

/-- The six fields that the word is cut into (R111). A format that lacks one of them uses its bits for an immediate
or for another operand (R112 to R118). -/
structure Fields where
  funct7 : BitVec 7
  rs2 : BitVec 5
  rs1 : BitVec 5
  funct3 : BitVec 3
  rd : BitVec 5
  opcode : BitVec 7
deriving DecidableEq, Repr

/-- The fields of a word: `opcode = inst[6:0]`, `rd = inst[11:7]`, `funct3 = inst[14:12]`, `rs1 = inst[19:15]`,
`rs2 = inst[24:20]`, `funct7 = inst[31:25]` (R111). -/
def Fields.ofWord (w : Word) : Fields :=
  { funct7 := w.extractLsb' 25 7
    rs2 := w.extractLsb' 20 5
    rs1 := w.extractLsb' 15 5
    funct3 := w.extractLsb' 12 3
    rd := w.extractLsb' 7 5
    opcode := w.extractLsb' 0 7 }

/-- The word with the given fields (R112). -/
def Fields.toWord (f : Fields) : Word :=
  f.funct7 ++ f.rs2 ++ f.rs1 ++ f.funct3 ++ f.rd ++ f.opcode

/-- `inst[31:20]`: the I-immediate (R120), and the `csr` field (R126). -/
def Fields.immI (f : Fields) : BitVec 12 := f.funct7 ++ f.rs2

/-- The S-immediate, from `inst[31:25]` and `inst[11:7]` (R121). -/
def Fields.immS (f : Fields) : BitVec 12 := f.funct7 ++ f.rd

/-- The B-immediate, from `inst[31]`, `inst[7]`, `inst[30:25]`, `inst[11:8]` and a zero bit (R122). -/
def Fields.immB (f : Fields) : BitVec 13 :=
  f.funct7.extractLsb' 6 1 ++ f.rd.extractLsb' 0 1 ++ f.funct7.extractLsb' 0 6 ++ f.rd.extractLsb' 1 4 ++ 0b0#1

/-- `inst[31:12]`: the 20 bits of the U-immediate (R123). -/
def Fields.immU (f : Fields) : BitVec 20 := f.funct7 ++ f.rs2 ++ f.rs1 ++ f.funct3

/-- The J-immediate, from `inst[31]`, `inst[19:12]`, `inst[20]`, `inst[30:21]` and a zero bit (R124): bit `k` of
`immU` is `inst[12 + k]`. -/
def Fields.immJ (f : Fields) : BitVec 21 :=
  f.immU.extractLsb' 19 1 ++ f.immU.extractLsb' 0 8 ++ f.immU.extractLsb' 8 1 ++ f.immU.extractLsb' 9 10 ++ 0b0#1

/-- `rs3 = inst[31:27]` of format R4 (R118). -/
def Fields.rs3 (f : Fields) : BitVec 5 := f.funct7.extractLsb' 2 5

/-- `fmt = inst[26:25]` of format R4 (R118). -/
def Fields.fmt (f : Fields) : BitVec 2 := f.funct7.extractLsb' 0 2

/-- `fm = inst[31:28]` of `fence` (R128). -/
def Fields.fenceFm (f : Fields) : BitVec 4 := f.immI.extractLsb' 8 4

/-- `pred = inst[27:24]` of `fence` (R128). -/
def Fields.fencePred (f : Fields) : BitVec 4 := f.immI.extractLsb' 4 4

/-- `succ = inst[23:20]` of `fence` (R128). -/
def Fields.fenceSucc (f : Fields) : BitVec 4 := f.immI.extractLsb' 0 4

/-! ## Decoder -/

/-- Why bytes are no instruction. The machine raises `IllegalInstruction` for every one of these but `short`, whatever
the name (R140); the names tell a reader which table rejects the word. -/
inductive DecodeError where
  /-- Fewer than four bytes: every instruction is 32 bits long (R110). -/
  | short
  /-- `inst[1:0]` is not 11: a 16-bit pattern, which is no instruction of this hardware (R138). -/
  | lowBits
  /-- A major opcode that R130 does not list. -/
  | majorOpcode
  /-- A major opcode of R130 with selector fields that R131 to R136 mark illegal. -/
  | selector
deriving DecidableEq, Repr

/-- Opcode OP, 0110011 (R131). -/
def decodeOp (f : Fields) : Except DecodeError Instr :=
  match f.funct7, f.funct3 with
  | 0b0000000#7, 0b000#3 => .ok (.add f.rd f.rs1 f.rs2)
  | 0b0000000#7, 0b001#3 => .ok (.sll f.rd f.rs1 f.rs2)
  | 0b0000000#7, 0b010#3 => .ok (.slt f.rd f.rs1 f.rs2)
  | 0b0000000#7, 0b011#3 => .ok (.sltu f.rd f.rs1 f.rs2)
  | 0b0000000#7, 0b100#3 => .ok (.xor f.rd f.rs1 f.rs2)
  | 0b0000000#7, 0b101#3 => .ok (.srl f.rd f.rs1 f.rs2)
  | 0b0000000#7, 0b110#3 => .ok (.or f.rd f.rs1 f.rs2)
  | 0b0000000#7, 0b111#3 => .ok (.and f.rd f.rs1 f.rs2)
  | 0b0000001#7, 0b000#3 => .ok (.mul f.rd f.rs1 f.rs2)
  | 0b0000001#7, 0b001#3 => .ok (.mulh f.rd f.rs1 f.rs2)
  | 0b0000001#7, 0b010#3 => .ok (.mulhsu f.rd f.rs1 f.rs2)
  | 0b0000001#7, 0b011#3 => .ok (.mulhu f.rd f.rs1 f.rs2)
  | 0b0000001#7, 0b100#3 => .ok (.div f.rd f.rs1 f.rs2)
  | 0b0000001#7, 0b101#3 => .ok (.divu f.rd f.rs1 f.rs2)
  | 0b0000001#7, 0b110#3 => .ok (.rem f.rd f.rs1 f.rs2)
  | 0b0000001#7, 0b111#3 => .ok (.remu f.rd f.rs1 f.rs2)
  | 0b0100000#7, 0b000#3 => .ok (.sub f.rd f.rs1 f.rs2)
  | 0b0100000#7, 0b101#3 => .ok (.sra f.rd f.rs1 f.rs2)
  | _, _ => .error .selector

/-- Opcode OP-IMM, 0010011 (R131); a shift whose `inst[31:25]` is not its own is illegal (R125, R141). -/
def decodeOpImm (f : Fields) : Except DecodeError Instr :=
  match f.funct3 with
  | 0b000#3 => .ok (.addi f.rd f.rs1 f.immI)
  | 0b001#3 => if f.funct7 = 0b0000000#7 then .ok (.slli f.rd f.rs1 f.rs2) else .error .selector
  | 0b010#3 => .ok (.slti f.rd f.rs1 f.immI)
  | 0b011#3 => .ok (.sltiu f.rd f.rs1 f.immI)
  | 0b100#3 => .ok (.xori f.rd f.rs1 f.immI)
  | 0b101#3 =>
    if f.funct7 = 0b0000000#7 then .ok (.srli f.rd f.rs1 f.rs2)
    else if f.funct7 = 0b0100000#7 then .ok (.srai f.rd f.rs1 f.rs2)
    else .error .selector
  | 0b110#3 => .ok (.ori f.rd f.rs1 f.immI)
  | 0b111#3 => .ok (.andi f.rd f.rs1 f.immI)

/-- Opcode BRANCH, 1100011 (R132). -/
def decodeBranch (f : Fields) : Except DecodeError Instr :=
  match f.funct3 with
  | 0b000#3 => .ok (.beq f.rs1 f.rs2 f.immB)
  | 0b001#3 => .ok (.bne f.rs1 f.rs2 f.immB)
  | 0b100#3 => .ok (.blt f.rs1 f.rs2 f.immB)
  | 0b101#3 => .ok (.bge f.rs1 f.rs2 f.immB)
  | 0b110#3 => .ok (.bltu f.rs1 f.rs2 f.immB)
  | 0b111#3 => .ok (.bgeu f.rs1 f.rs2 f.immB)
  | _ => .error .selector

/-- Opcode LOAD, 0000011 (R132). -/
def decodeLoad (f : Fields) : Except DecodeError Instr :=
  match f.funct3 with
  | 0b000#3 => .ok (.lb f.rd f.rs1 f.immI)
  | 0b001#3 => .ok (.lh f.rd f.rs1 f.immI)
  | 0b010#3 => .ok (.lw f.rd f.rs1 f.immI)
  | 0b100#3 => .ok (.lbu f.rd f.rs1 f.immI)
  | 0b101#3 => .ok (.lhu f.rd f.rs1 f.immI)
  | _ => .error .selector

/-- Opcode STORE, 0100011 (R132). -/
def decodeStore (f : Fields) : Except DecodeError Instr :=
  match f.funct3 with
  | 0b000#3 => .ok (.sb f.rs2 f.rs1 f.immS)
  | 0b001#3 => .ok (.sh f.rs2 f.rs1 f.immS)
  | 0b010#3 => .ok (.sw f.rs2 f.rs1 f.immS)
  | _ => .error .selector

/-- Opcode LOAD-FP, 0000111 (R132). -/
def decodeLoadFp (f : Fields) : Except DecodeError Instr :=
  match f.funct3 with
  | 0b010#3 => .ok (.flw f.rd f.rs1 f.immI)
  | _ => .error .selector

/-- Opcode STORE-FP, 0100111 (R132). -/
def decodeStoreFp (f : Fields) : Except DecodeError Instr :=
  match f.funct3 with
  | 0b010#3 => .ok (.fsw f.rs2 f.rs1 f.immS)
  | _ => .error .selector

/-- Opcode JALR, 1100111 (R132). -/
def decodeJalr (f : Fields) : Except DecodeError Instr :=
  match f.funct3 with
  | 0b000#3 => .ok (.jalr f.rd f.rs1 f.immI)
  | _ => .error .selector

/-- Opcode MISC-MEM, 0001111: `fence` with every value of its other fields (R134). -/
def decodeMiscMem (f : Fields) : Except DecodeError Instr :=
  match f.funct3 with
  | 0b000#3 => .ok (.fence f.fenceFm f.fencePred f.fenceSucc f.rs1 f.rd)
  | _ => .error .selector

/-- Opcode SYSTEM, 1110011: `ecall` and `ebreak` are one word each, the rest are the CSR instructions (R126, R133). -/
def decodeSystem (f : Fields) : Except DecodeError Instr :=
  match f.funct3 with
  | 0b000#3 =>
    if f = Fields.ofWord 0x00000073#32 then .ok .ecall
    else if f = Fields.ofWord 0x00100073#32 then .ok .ebreak
    else .error .selector
  | 0b001#3 => .ok (.csrrw f.rd f.immI f.rs1)
  | 0b010#3 => .ok (.csrrs f.rd f.immI f.rs1)
  | 0b011#3 => .ok (.csrrc f.rd f.immI f.rs1)
  | 0b101#3 => .ok (.csrrwi f.rd f.immI f.rs1)
  | 0b110#3 => .ok (.csrrsi f.rd f.immI f.rs1)
  | 0b111#3 => .ok (.csrrci f.rd f.immI f.rs1)
  | _ => .error .selector

/-- Opcode OP-FP, 1010011 (R136): `funct3` is the rounding mode of the instructions that round, and a selector of the
others. -/
def decodeOpFp (f : Fields) : Except DecodeError Instr :=
  match f.funct7 with
  | 0b0000000#7 => .ok (.faddS f.rd f.rs1 f.rs2 f.funct3)
  | 0b0000100#7 => .ok (.fsubS f.rd f.rs1 f.rs2 f.funct3)
  | 0b0001000#7 => .ok (.fmulS f.rd f.rs1 f.rs2 f.funct3)
  | 0b0001100#7 => .ok (.fdivS f.rd f.rs1 f.rs2 f.funct3)
  | 0b0010000#7 =>
    match f.funct3 with
    | 0b000#3 => .ok (.fsgnjS f.rd f.rs1 f.rs2)
    | 0b001#3 => .ok (.fsgnjnS f.rd f.rs1 f.rs2)
    | 0b010#3 => .ok (.fsgnjxS f.rd f.rs1 f.rs2)
    | _ => .error .selector
  | 0b0010100#7 =>
    match f.funct3 with
    | 0b000#3 => .ok (.fminS f.rd f.rs1 f.rs2)
    | 0b001#3 => .ok (.fmaxS f.rd f.rs1 f.rs2)
    | _ => .error .selector
  | 0b0101100#7 =>
    match f.rs2 with
    | 0b00000#5 => .ok (.fsqrtS f.rd f.rs1 f.funct3)
    | _ => .error .selector
  | 0b1010000#7 =>
    match f.funct3 with
    | 0b000#3 => .ok (.fleS f.rd f.rs1 f.rs2)
    | 0b001#3 => .ok (.fltS f.rd f.rs1 f.rs2)
    | 0b010#3 => .ok (.feqS f.rd f.rs1 f.rs2)
    | _ => .error .selector
  | 0b1100000#7 =>
    match f.rs2 with
    | 0b00000#5 => .ok (.fcvtWS f.rd f.rs1 f.funct3)
    | 0b00001#5 => .ok (.fcvtWUS f.rd f.rs1 f.funct3)
    | _ => .error .selector
  | 0b1101000#7 =>
    match f.rs2 with
    | 0b00000#5 => .ok (.fcvtSW f.rd f.rs1 f.funct3)
    | 0b00001#5 => .ok (.fcvtSWU f.rd f.rs1 f.funct3)
    | _ => .error .selector
  | 0b1110000#7 =>
    match f.rs2, f.funct3 with
    | 0b00000#5, 0b000#3 => .ok (.fmvXW f.rd f.rs1)
    | 0b00000#5, 0b001#3 => .ok (.fclassS f.rd f.rs1)
    | _, _ => .error .selector
  | 0b1111000#7 =>
    match f.rs2, f.funct3 with
    | 0b00000#5, 0b000#3 => .ok (.fmvWX f.rd f.rs1)
    | _, _ => .error .selector
  | _ => .error .selector

/-- Opcode MADD, 1000011: `fmt` = 00 selects single precision (R118, R136). -/
def decodeMadd (f : Fields) : Except DecodeError Instr :=
  if f.fmt = 0b00#2 then .ok (.fmaddS f.rd f.rs1 f.rs2 f.rs3 f.funct3) else .error .selector

/-- Opcode MSUB, 1000111: `fmt` = 00 selects single precision (R118, R136). -/
def decodeMsub (f : Fields) : Except DecodeError Instr :=
  if f.fmt = 0b00#2 then .ok (.fmsubS f.rd f.rs1 f.rs2 f.rs3 f.funct3) else .error .selector

/-- Opcode NMSUB, 1001011: `fmt` = 00 selects single precision (R118, R136). -/
def decodeNmsub (f : Fields) : Except DecodeError Instr :=
  if f.fmt = 0b00#2 then .ok (.fnmsubS f.rd f.rs1 f.rs2 f.rs3 f.funct3) else .error .selector

/-- Opcode NMADD, 1001111: `fmt` = 00 selects single precision (R118, R136). -/
def decodeNmadd (f : Fields) : Except DecodeError Instr :=
  if f.fmt = 0b00#2 then .ok (.fnmaddS f.rd f.rs1 f.rs2 f.rs3 f.funct3) else .error .selector

/-- The instruction that the fields spell, by major opcode (R130). -/
def decodeFields (f : Fields) : Except DecodeError Instr :=
  match f.opcode with
  | 0b0000011#7 => decodeLoad f
  | 0b0000111#7 => decodeLoadFp f
  | 0b0001111#7 => decodeMiscMem f
  | 0b0010011#7 => decodeOpImm f
  | 0b0010111#7 => .ok (.auipc f.rd f.immU)
  | 0b0100011#7 => decodeStore f
  | 0b0100111#7 => decodeStoreFp f
  | 0b0110011#7 => decodeOp f
  | 0b0110111#7 => .ok (.lui f.rd f.immU)
  | 0b1000011#7 => decodeMadd f
  | 0b1000111#7 => decodeMsub f
  | 0b1001011#7 => decodeNmsub f
  | 0b1001111#7 => decodeNmadd f
  | 0b1010011#7 => decodeOpFp f
  | 0b1100011#7 => decodeBranch f
  | 0b1100111#7 => decodeJalr f
  | 0b1101111#7 => .ok (.jal f.rd f.immJ)
  | 0b1110011#7 => decodeSystem f
  | _ => if f.opcode.extractLsb' 0 2 = 0b11#2 then .error .majorOpcode else .error .lowBits

/-- The instruction that a word spells (R135), without the conditions of R135 (a) and (b), which the instruction's own
meaning checks because they read the state. -/
def decodeWord (w : Word) : Except DecodeError Instr := decodeFields (Fields.ofWord w)

/-- The word of the four bytes at ascending addresses, the first in bits 7:0 (20_memory.md R71). -/
def wordOfBytes (b0 b1 b2 b3 : Byte) : Word := b3 ++ b2 ++ b1 ++ b0

/-- The instruction that the bytes at ascending addresses spell: the first four count (R110). -/
def decode : List Byte → Except DecodeError Instr
  | b0 :: b1 :: b2 :: b3 :: _ => decodeWord (wordOfBytes b0 b1 b2 b3)
  | _ => .error .short

/-- Byte `k` of a word as memory holds it: bits `8k+7 : 8k` (20_memory.md R70). -/
def byteOfWord (w : Word) (k : Nat) : Byte := w.extractLsb' (8 * k) 8

/-- The four bytes of a word at ascending addresses (20_memory.md R71). -/
def bytesOfWord (w : Word) : List Byte := [byteOfWord w 0, byteOfWord w 1, byteOfWord w 2, byteOfWord w 3]

/-- The instruction the decoder reads from the bytes of a word given as a number (the host's question). Every row of the
table has 32 bits; the bits above `nbits` are zero. -/
def decodeTableWord (nbits w : Nat) : Option Instr :=
  (decode (bytesOfWord (BitVec.ofNat 32 (w % 2 ^ nbits)))).toOption

/-! ## Encoder -/

/-- Fields of format R (R112). -/
def fieldsR (funct7 : BitVec 7) (rs2 rs1 : BitVec 5) (funct3 : BitVec 3) (rd : BitVec 5) (opcode : BitVec 7) : Fields :=
  { funct7, rs2, rs1, funct3, rd, opcode }

/-- Fields of format I and of its CSR variant (R113, R126). -/
def fieldsI (imm : BitVec 12) (rs1 : BitVec 5) (funct3 : BitVec 3) (rd : BitVec 5) (opcode : BitVec 7) : Fields :=
  { funct7 := imm.extractLsb' 5 7, rs2 := imm.extractLsb' 0 5, rs1, funct3, rd, opcode }

/-- Fields of format S (R114). -/
def fieldsS (imm : BitVec 12) (rs2 rs1 : BitVec 5) (funct3 : BitVec 3) (opcode : BitVec 7) : Fields :=
  { funct7 := imm.extractLsb' 5 7, rs2, rs1, funct3, rd := imm.extractLsb' 0 5, opcode }

/-- Fields of format B (R115). -/
def fieldsB (offset : BitVec 13) (rs2 rs1 : BitVec 5) (funct3 : BitVec 3) : Fields :=
  { funct7 := offset.extractLsb' 12 1 ++ offset.extractLsb' 5 6
    rs2, rs1, funct3
    rd := offset.extractLsb' 1 4 ++ offset.extractLsb' 11 1
    opcode := 0b1100011#7 }

/-- Fields of format U (R116), from the 20 bits of `inst[31:12]`. -/
def fieldsU (imm : BitVec 20) (rd : BitVec 5) (opcode : BitVec 7) : Fields :=
  { funct7 := imm.extractLsb' 13 7
    rs2 := imm.extractLsb' 8 5
    rs1 := imm.extractLsb' 3 5
    funct3 := imm.extractLsb' 0 3
    rd, opcode }

/-- Fields of format J (R117). -/
def fieldsJ (offset : BitVec 21) (rd : BitVec 5) : Fields :=
  fieldsU (offset.extractLsb' 20 1 ++ offset.extractLsb' 1 10 ++ offset.extractLsb' 11 1 ++ offset.extractLsb' 12 8)
    rd 0b1101111#7

/-- Fields of format R4 with `fmt` = 00 (R118). -/
def fieldsR4 (rs3 rs2 rs1 : BitVec 5) (rm : BitVec 3) (rd : BitVec 5) (opcode : BitVec 7) : Fields :=
  { funct7 := rs3 ++ 0b00#2, rs2, rs1, funct3 := rm, rd, opcode }

/-- The fields of an instruction's word (R137). The offset of a branch or of `jal` loses its low bit, which is zero in a
well-formed instruction. -/
def encodeFields : Instr → Fields
  | .add rd rs1 rs2 => fieldsR 0b0000000#7 rs2 rs1 0b000#3 rd 0b0110011#7
  | .addi rd rs1 imm => fieldsI imm rs1 0b000#3 rd 0b0010011#7
  | .and rd rs1 rs2 => fieldsR 0b0000000#7 rs2 rs1 0b111#3 rd 0b0110011#7
  | .andi rd rs1 imm => fieldsI imm rs1 0b111#3 rd 0b0010011#7
  | .auipc rd imm => fieldsU imm rd 0b0010111#7
  | .lui rd imm => fieldsU imm rd 0b0110111#7
  | .or rd rs1 rs2 => fieldsR 0b0000000#7 rs2 rs1 0b110#3 rd 0b0110011#7
  | .ori rd rs1 imm => fieldsI imm rs1 0b110#3 rd 0b0010011#7
  | .sll rd rs1 rs2 => fieldsR 0b0000000#7 rs2 rs1 0b001#3 rd 0b0110011#7
  | .slli rd rs1 shamt => fieldsR 0b0000000#7 shamt rs1 0b001#3 rd 0b0010011#7
  | .slt rd rs1 rs2 => fieldsR 0b0000000#7 rs2 rs1 0b010#3 rd 0b0110011#7
  | .slti rd rs1 imm => fieldsI imm rs1 0b010#3 rd 0b0010011#7
  | .sltiu rd rs1 imm => fieldsI imm rs1 0b011#3 rd 0b0010011#7
  | .sltu rd rs1 rs2 => fieldsR 0b0000000#7 rs2 rs1 0b011#3 rd 0b0110011#7
  | .sra rd rs1 rs2 => fieldsR 0b0100000#7 rs2 rs1 0b101#3 rd 0b0110011#7
  | .srai rd rs1 shamt => fieldsR 0b0100000#7 shamt rs1 0b101#3 rd 0b0010011#7
  | .srl rd rs1 rs2 => fieldsR 0b0000000#7 rs2 rs1 0b101#3 rd 0b0110011#7
  | .srli rd rs1 shamt => fieldsR 0b0000000#7 shamt rs1 0b101#3 rd 0b0010011#7
  | .sub rd rs1 rs2 => fieldsR 0b0100000#7 rs2 rs1 0b000#3 rd 0b0110011#7
  | .xor rd rs1 rs2 => fieldsR 0b0000000#7 rs2 rs1 0b100#3 rd 0b0110011#7
  | .xori rd rs1 imm => fieldsI imm rs1 0b100#3 rd 0b0010011#7
  | .beq rs1 rs2 offset => fieldsB offset rs2 rs1 0b000#3
  | .bge rs1 rs2 offset => fieldsB offset rs2 rs1 0b101#3
  | .bgeu rs1 rs2 offset => fieldsB offset rs2 rs1 0b111#3
  | .blt rs1 rs2 offset => fieldsB offset rs2 rs1 0b100#3
  | .bltu rs1 rs2 offset => fieldsB offset rs2 rs1 0b110#3
  | .bne rs1 rs2 offset => fieldsB offset rs2 rs1 0b001#3
  | .jal rd offset => fieldsJ offset rd
  | .jalr rd rs1 offset => fieldsI offset rs1 0b000#3 rd 0b1100111#7
  | .lb rd rs1 offset => fieldsI offset rs1 0b000#3 rd 0b0000011#7
  | .lbu rd rs1 offset => fieldsI offset rs1 0b100#3 rd 0b0000011#7
  | .lh rd rs1 offset => fieldsI offset rs1 0b001#3 rd 0b0000011#7
  | .lhu rd rs1 offset => fieldsI offset rs1 0b101#3 rd 0b0000011#7
  | .lw rd rs1 offset => fieldsI offset rs1 0b010#3 rd 0b0000011#7
  | .sb rs2 rs1 offset => fieldsS offset rs2 rs1 0b000#3 0b0100011#7
  | .sh rs2 rs1 offset => fieldsS offset rs2 rs1 0b001#3 0b0100011#7
  | .sw rs2 rs1 offset => fieldsS offset rs2 rs1 0b010#3 0b0100011#7
  | .div rd rs1 rs2 => fieldsR 0b0000001#7 rs2 rs1 0b100#3 rd 0b0110011#7
  | .divu rd rs1 rs2 => fieldsR 0b0000001#7 rs2 rs1 0b101#3 rd 0b0110011#7
  | .mul rd rs1 rs2 => fieldsR 0b0000001#7 rs2 rs1 0b000#3 rd 0b0110011#7
  | .mulh rd rs1 rs2 => fieldsR 0b0000001#7 rs2 rs1 0b001#3 rd 0b0110011#7
  | .mulhsu rd rs1 rs2 => fieldsR 0b0000001#7 rs2 rs1 0b010#3 rd 0b0110011#7
  | .mulhu rd rs1 rs2 => fieldsR 0b0000001#7 rs2 rs1 0b011#3 rd 0b0110011#7
  | .rem rd rs1 rs2 => fieldsR 0b0000001#7 rs2 rs1 0b110#3 rd 0b0110011#7
  | .remu rd rs1 rs2 => fieldsR 0b0000001#7 rs2 rs1 0b111#3 rd 0b0110011#7
  | .csrrc rd csr rs1 => fieldsI csr rs1 0b011#3 rd 0b1110011#7
  | .csrrci rd csr zimm => fieldsI csr zimm 0b111#3 rd 0b1110011#7
  | .csrrs rd csr rs1 => fieldsI csr rs1 0b010#3 rd 0b1110011#7
  | .csrrsi rd csr zimm => fieldsI csr zimm 0b110#3 rd 0b1110011#7
  | .csrrw rd csr rs1 => fieldsI csr rs1 0b001#3 rd 0b1110011#7
  | .csrrwi rd csr zimm => fieldsI csr zimm 0b101#3 rd 0b1110011#7
  | .ebreak => Fields.ofWord 0x00100073#32
  | .ecall => Fields.ofWord 0x00000073#32
  | .fence fm pred succ rs1 rd => fieldsI (fm ++ pred ++ succ) rs1 0b000#3 rd 0b0001111#7
  | .faddS rd rs1 rs2 rm => fieldsR 0b0000000#7 rs2 rs1 rm rd 0b1010011#7
  | .fdivS rd rs1 rs2 rm => fieldsR 0b0001100#7 rs2 rs1 rm rd 0b1010011#7
  | .fmaddS rd rs1 rs2 rs3 rm => fieldsR4 rs3 rs2 rs1 rm rd 0b1000011#7
  | .fmaxS rd rs1 rs2 => fieldsR 0b0010100#7 rs2 rs1 0b001#3 rd 0b1010011#7
  | .fminS rd rs1 rs2 => fieldsR 0b0010100#7 rs2 rs1 0b000#3 rd 0b1010011#7
  | .fmsubS rd rs1 rs2 rs3 rm => fieldsR4 rs3 rs2 rs1 rm rd 0b1000111#7
  | .fmulS rd rs1 rs2 rm => fieldsR 0b0001000#7 rs2 rs1 rm rd 0b1010011#7
  | .fnmaddS rd rs1 rs2 rs3 rm => fieldsR4 rs3 rs2 rs1 rm rd 0b1001111#7
  | .fnmsubS rd rs1 rs2 rs3 rm => fieldsR4 rs3 rs2 rs1 rm rd 0b1001011#7
  | .fsqrtS rd rs1 rm => fieldsR 0b0101100#7 0b00000#5 rs1 rm rd 0b1010011#7
  | .fsubS rd rs1 rs2 rm => fieldsR 0b0000100#7 rs2 rs1 rm rd 0b1010011#7
  | .fclassS rd rs1 => fieldsR 0b1110000#7 0b00000#5 rs1 0b001#3 rd 0b1010011#7
  | .fcvtSW rd rs1 rm => fieldsR 0b1101000#7 0b00000#5 rs1 rm rd 0b1010011#7
  | .fcvtSWU rd rs1 rm => fieldsR 0b1101000#7 0b00001#5 rs1 rm rd 0b1010011#7
  | .fcvtWS rd rs1 rm => fieldsR 0b1100000#7 0b00000#5 rs1 rm rd 0b1010011#7
  | .fcvtWUS rd rs1 rm => fieldsR 0b1100000#7 0b00001#5 rs1 rm rd 0b1010011#7
  | .feqS rd rs1 rs2 => fieldsR 0b1010000#7 rs2 rs1 0b010#3 rd 0b1010011#7
  | .fleS rd rs1 rs2 => fieldsR 0b1010000#7 rs2 rs1 0b000#3 rd 0b1010011#7
  | .fltS rd rs1 rs2 => fieldsR 0b1010000#7 rs2 rs1 0b001#3 rd 0b1010011#7
  | .flw rd rs1 offset => fieldsI offset rs1 0b010#3 rd 0b0000111#7
  | .fmvWX rd rs1 => fieldsR 0b1111000#7 0b00000#5 rs1 0b000#3 rd 0b1010011#7
  | .fmvXW rd rs1 => fieldsR 0b1110000#7 0b00000#5 rs1 0b000#3 rd 0b1010011#7
  | .fsgnjS rd rs1 rs2 => fieldsR 0b0010000#7 rs2 rs1 0b000#3 rd 0b1010011#7
  | .fsgnjnS rd rs1 rs2 => fieldsR 0b0010000#7 rs2 rs1 0b001#3 rd 0b1010011#7
  | .fsgnjxS rd rs1 rs2 => fieldsR 0b0010000#7 rs2 rs1 0b010#3 rd 0b1010011#7
  | .fsw rs2 rs1 offset => fieldsS offset rs2 rs1 0b010#3 0b0100111#7

/-- The word of an instruction (R137). -/
def encode (i : Instr) : Word := (encodeFields i).toWord

/-- The bytes of an instruction at ascending addresses (20_memory.md R71). -/
def encodeBytes (i : Instr) : List Byte := bytesOfWord (encode i)

/-! ## The opcode table -/

/-- One row of the table of R137 (spec/opcode_table.json). -/
structure OpcodeRow where
  mnemonic : String
  pattern : Word
  mask : Word
deriving DecidableEq, Repr

/-- A word selects the row: `w & mask == match`, with the match in `pattern` (R135). -/
def OpcodeRow.selects (r : OpcodeRow) (w : Word) : Bool := w &&& r.mask == r.pattern

/-- The first forty rows of the table of R137, in the spec's order. -/
def opcodeTableFirst : List OpcodeRow := [
  ⟨"add", 0x00000033#32, 0xfe00707f#32⟩,
  ⟨"addi", 0x00000013#32, 0x0000707f#32⟩,
  ⟨"and", 0x00007033#32, 0xfe00707f#32⟩,
  ⟨"andi", 0x00007013#32, 0x0000707f#32⟩,
  ⟨"auipc", 0x00000017#32, 0x0000007f#32⟩,
  ⟨"beq", 0x00000063#32, 0x0000707f#32⟩,
  ⟨"bge", 0x00005063#32, 0x0000707f#32⟩,
  ⟨"bgeu", 0x00007063#32, 0x0000707f#32⟩,
  ⟨"blt", 0x00004063#32, 0x0000707f#32⟩,
  ⟨"bltu", 0x00006063#32, 0x0000707f#32⟩,
  ⟨"bne", 0x00001063#32, 0x0000707f#32⟩,
  ⟨"csrrc", 0x00003073#32, 0x0000707f#32⟩,
  ⟨"csrrci", 0x00007073#32, 0x0000707f#32⟩,
  ⟨"csrrs", 0x00002073#32, 0x0000707f#32⟩,
  ⟨"csrrsi", 0x00006073#32, 0x0000707f#32⟩,
  ⟨"csrrw", 0x00001073#32, 0x0000707f#32⟩,
  ⟨"csrrwi", 0x00005073#32, 0x0000707f#32⟩,
  ⟨"div", 0x02004033#32, 0xfe00707f#32⟩,
  ⟨"divu", 0x02005033#32, 0xfe00707f#32⟩,
  ⟨"ebreak", 0x00100073#32, 0xffffffff#32⟩,
  ⟨"ecall", 0x00000073#32, 0xffffffff#32⟩,
  ⟨"fadd.s", 0x00000053#32, 0xfe00007f#32⟩,
  ⟨"fclass.s", 0xe0001053#32, 0xfff0707f#32⟩,
  ⟨"fcvt.s.w", 0xd0000053#32, 0xfff0007f#32⟩,
  ⟨"fcvt.s.wu", 0xd0100053#32, 0xfff0007f#32⟩,
  ⟨"fcvt.w.s", 0xc0000053#32, 0xfff0007f#32⟩,
  ⟨"fcvt.wu.s", 0xc0100053#32, 0xfff0007f#32⟩,
  ⟨"fdiv.s", 0x18000053#32, 0xfe00007f#32⟩,
  ⟨"fence", 0x0000000f#32, 0x0000707f#32⟩,
  ⟨"feq.s", 0xa0002053#32, 0xfe00707f#32⟩,
  ⟨"fle.s", 0xa0000053#32, 0xfe00707f#32⟩,
  ⟨"flt.s", 0xa0001053#32, 0xfe00707f#32⟩,
  ⟨"flw", 0x00002007#32, 0x0000707f#32⟩,
  ⟨"fmadd.s", 0x00000043#32, 0x0600007f#32⟩,
  ⟨"fmax.s", 0x28001053#32, 0xfe00707f#32⟩,
  ⟨"fmin.s", 0x28000053#32, 0xfe00707f#32⟩,
  ⟨"fmsub.s", 0x00000047#32, 0x0600007f#32⟩,
  ⟨"fmul.s", 0x10000053#32, 0xfe00007f#32⟩,
  ⟨"fmv.w.x", 0xf0000053#32, 0xfff0707f#32⟩,
  ⟨"fmv.x.w", 0xe0000053#32, 0xfff0707f#32⟩ ]

/-- The last forty rows of the table of R137, in the spec's order. -/
def opcodeTableLast : List OpcodeRow := [
  ⟨"fnmadd.s", 0x0000004f#32, 0x0600007f#32⟩,
  ⟨"fnmsub.s", 0x0000004b#32, 0x0600007f#32⟩,
  ⟨"fsgnj.s", 0x20000053#32, 0xfe00707f#32⟩,
  ⟨"fsgnjn.s", 0x20001053#32, 0xfe00707f#32⟩,
  ⟨"fsgnjx.s", 0x20002053#32, 0xfe00707f#32⟩,
  ⟨"fsqrt.s", 0x58000053#32, 0xfff0007f#32⟩,
  ⟨"fsub.s", 0x08000053#32, 0xfe00007f#32⟩,
  ⟨"fsw", 0x00002027#32, 0x0000707f#32⟩,
  ⟨"jal", 0x0000006f#32, 0x0000007f#32⟩,
  ⟨"jalr", 0x00000067#32, 0x0000707f#32⟩,
  ⟨"lb", 0x00000003#32, 0x0000707f#32⟩,
  ⟨"lbu", 0x00004003#32, 0x0000707f#32⟩,
  ⟨"lh", 0x00001003#32, 0x0000707f#32⟩,
  ⟨"lhu", 0x00005003#32, 0x0000707f#32⟩,
  ⟨"lw", 0x00002003#32, 0x0000707f#32⟩,
  ⟨"lui", 0x00000037#32, 0x0000007f#32⟩,
  ⟨"mul", 0x02000033#32, 0xfe00707f#32⟩,
  ⟨"mulh", 0x02001033#32, 0xfe00707f#32⟩,
  ⟨"mulhsu", 0x02002033#32, 0xfe00707f#32⟩,
  ⟨"mulhu", 0x02003033#32, 0xfe00707f#32⟩,
  ⟨"or", 0x00006033#32, 0xfe00707f#32⟩,
  ⟨"ori", 0x00006013#32, 0x0000707f#32⟩,
  ⟨"rem", 0x02006033#32, 0xfe00707f#32⟩,
  ⟨"remu", 0x02007033#32, 0xfe00707f#32⟩,
  ⟨"sb", 0x00000023#32, 0x0000707f#32⟩,
  ⟨"sh", 0x00001023#32, 0x0000707f#32⟩,
  ⟨"sll", 0x00001033#32, 0xfe00707f#32⟩,
  ⟨"slli", 0x00001013#32, 0xfe00707f#32⟩,
  ⟨"slt", 0x00002033#32, 0xfe00707f#32⟩,
  ⟨"slti", 0x00002013#32, 0x0000707f#32⟩,
  ⟨"sltiu", 0x00003013#32, 0x0000707f#32⟩,
  ⟨"sltu", 0x00003033#32, 0xfe00707f#32⟩,
  ⟨"sra", 0x40005033#32, 0xfe00707f#32⟩,
  ⟨"srai", 0x40005013#32, 0xfe00707f#32⟩,
  ⟨"srl", 0x00005033#32, 0xfe00707f#32⟩,
  ⟨"srli", 0x00005013#32, 0xfe00707f#32⟩,
  ⟨"sub", 0x40000033#32, 0xfe00707f#32⟩,
  ⟨"sw", 0x00002023#32, 0x0000707f#32⟩,
  ⟨"xor", 0x00004033#32, 0xfe00707f#32⟩,
  ⟨"xori", 0x00004013#32, 0x0000707f#32⟩ ]

/-- The 80 rows of the table of R137. -/
def opcodeTable : List OpcodeRow := opcodeTableFirst ++ opcodeTableLast

/-- The mnemonic of an instruction's row (00_scope.md R2). -/
def Instr.mnemonic : Instr → String
  | .add _ _ _ => "add"
  | .addi _ _ _ => "addi"
  | .and _ _ _ => "and"
  | .andi _ _ _ => "andi"
  | .auipc _ _ => "auipc"
  | .lui _ _ => "lui"
  | .or _ _ _ => "or"
  | .ori _ _ _ => "ori"
  | .sll _ _ _ => "sll"
  | .slli _ _ _ => "slli"
  | .slt _ _ _ => "slt"
  | .slti _ _ _ => "slti"
  | .sltiu _ _ _ => "sltiu"
  | .sltu _ _ _ => "sltu"
  | .sra _ _ _ => "sra"
  | .srai _ _ _ => "srai"
  | .srl _ _ _ => "srl"
  | .srli _ _ _ => "srli"
  | .sub _ _ _ => "sub"
  | .xor _ _ _ => "xor"
  | .xori _ _ _ => "xori"
  | .beq _ _ _ => "beq"
  | .bge _ _ _ => "bge"
  | .bgeu _ _ _ => "bgeu"
  | .blt _ _ _ => "blt"
  | .bltu _ _ _ => "bltu"
  | .bne _ _ _ => "bne"
  | .jal _ _ => "jal"
  | .jalr _ _ _ => "jalr"
  | .lb _ _ _ => "lb"
  | .lbu _ _ _ => "lbu"
  | .lh _ _ _ => "lh"
  | .lhu _ _ _ => "lhu"
  | .lw _ _ _ => "lw"
  | .sb _ _ _ => "sb"
  | .sh _ _ _ => "sh"
  | .sw _ _ _ => "sw"
  | .div _ _ _ => "div"
  | .divu _ _ _ => "divu"
  | .mul _ _ _ => "mul"
  | .mulh _ _ _ => "mulh"
  | .mulhsu _ _ _ => "mulhsu"
  | .mulhu _ _ _ => "mulhu"
  | .rem _ _ _ => "rem"
  | .remu _ _ _ => "remu"
  | .csrrc _ _ _ => "csrrc"
  | .csrrci _ _ _ => "csrrci"
  | .csrrs _ _ _ => "csrrs"
  | .csrrsi _ _ _ => "csrrsi"
  | .csrrw _ _ _ => "csrrw"
  | .csrrwi _ _ _ => "csrrwi"
  | .ebreak => "ebreak"
  | .ecall => "ecall"
  | .fence _ _ _ _ _ => "fence"
  | .faddS _ _ _ _ => "fadd.s"
  | .fdivS _ _ _ _ => "fdiv.s"
  | .fmaddS _ _ _ _ _ => "fmadd.s"
  | .fmaxS _ _ _ => "fmax.s"
  | .fminS _ _ _ => "fmin.s"
  | .fmsubS _ _ _ _ _ => "fmsub.s"
  | .fmulS _ _ _ _ => "fmul.s"
  | .fnmaddS _ _ _ _ _ => "fnmadd.s"
  | .fnmsubS _ _ _ _ _ => "fnmsub.s"
  | .fsqrtS _ _ _ => "fsqrt.s"
  | .fsubS _ _ _ _ => "fsub.s"
  | .fclassS _ _ => "fclass.s"
  | .fcvtSW _ _ _ => "fcvt.s.w"
  | .fcvtSWU _ _ _ => "fcvt.s.wu"
  | .fcvtWS _ _ _ => "fcvt.w.s"
  | .fcvtWUS _ _ _ => "fcvt.wu.s"
  | .feqS _ _ _ => "feq.s"
  | .fleS _ _ _ => "fle.s"
  | .fltS _ _ _ => "flt.s"
  | .flw _ _ _ => "flw"
  | .fmvWX _ _ => "fmv.w.x"
  | .fmvXW _ _ => "fmv.x.w"
  | .fsgnjS _ _ _ => "fsgnj.s"
  | .fsgnjnS _ _ _ => "fsgnjn.s"
  | .fsgnjxS _ _ _ => "fsgnjx.s"
  | .fsw _ _ _ => "fsw"

end Sys2Proof
end

