-- ==== Sys2Proof/Config.lean ====
section
/-! DEFINITION. What an implementation of the hardware fixes: the parameters of 00_scope.md R7. The address map and the misaligned-access policy are plain data that State carries, so that a claim about every state is a claim about every map; the CSR map is the spec's default (`csrMap` of Machine/Operands.lean); the launch values are the model's choices. -/

namespace Sys2Proof

/-- One region of the address map `MEM_MAP` (20_memory.md R76, R78): `size` bytes from `base` with a subset of the
permissions R, W, X. Every region is plain memory. -/
structure Region where
  base : Nat
  size : Nat
  readable : Bool
  writable : Bool
  executable : Bool
deriving DecidableEq, Repr

/-- `MISALIGNED_POLICY` (00_scope.md R7): what a data access does whose address is not a multiple of its width.
`trap` is the value the spec decides (20_memory.md R72), `support` the alternative it describes (R73). -/
inductive MisalignedPolicy where
  | trap
  | support
deriving DecidableEq, Repr

/-- The parameters of the machine that no instruction changes: `MEM_MAP` and `MISALIGNED_POLICY` (R7). An address
belongs to the first region listed that contains it, and is unmapped if none does. -/
structure Params where
  memMap : List Region
  misaligned : MisalignedPolicy
deriving DecidableEq, Repr

/-- The registers of the default `CSR_MAP` (10_state.md R41). -/
inductive CsrName where
  /-- The accrued exception flags, a window on `fcsr[4:0]` (R43). -/
  | fflags
  /-- The dynamic rounding mode, a window on `fcsr[7:5]` (R44). -/
  | frm
  /-- The floating-point control and status register (R42). -/
  | fcsr
deriving DecidableEq, Repr

/-- One entry of `CSR_MAP` (00_scope.md R7): its address, which register stands there, and whether it is read-only. The
bits a register implements are in its write, `State.csrWrite`. -/
structure CsrEntry where
  address : CsrAddr
  name : CsrName
  readOnly : Bool
deriving DecidableEq, Repr

/-- `RESET_PC` (70_reset_and_hazards.md R450), OPEN in the spec. DESIGN CHOICE (log 2), unsafe. -/
def Config.resetPc : Word := 0x00000000#32

/-- The launch value of every `x` register (10_state.md R55), OPEN in the spec. DESIGN CHOICE (log 3), unsafe. -/
def Config.launchX : Word := 0x00000000#32

/-- The launch value of every `f` register (10_state.md R55), OPEN in the spec. DESIGN CHOICE (log 4), unsafe. -/
def Config.launchF : Word := 0x00000000#32

/-- The launch value of `fcsr[7:0]` (10_state.md R55), OPEN in the spec. DESIGN CHOICE (log 5), unsafe. -/
def Config.launchFcsr : BitVec 8 := 0x00#8

/-- The parameters at reset: the whole address space with R, W and X, OPEN in the spec (20_memory.md R78), DESIGN
CHOICE (log 7), unsafe; and the misaligned-access policy the spec decides (R72, log 8). -/
def Config.launchParams : Params :=
  { memMap := [{ base := 0, size := 2 ^ 32, readable := true, writable := true, executable := true }]
    misaligned := .trap }

end Sys2Proof
end

