-- ==== Sys2Proof/Machine/State.lean ====
section
/-! DEFINITION. The state of the machine as plain data (10_state.md R30): registers, `pc`, `fcsr`, memory, the written-since-reset set, the run's outcome and the parameters; the reasons a step can stop; and the state after reset (70_reset_and_hazards.md R450). -/

namespace Sys2Proof.Machine

open Sys2Proof

/-- The nine synchronous exceptions (60_exceptions.md R400). Exceptions are identified by name only (R401). -/
inductive Cause where
  /-- A taken branch or a jump to a target that is not a multiple of 4. -/
  | instructionAddressMisaligned
  /-- A byte of `pc .. pc+3` is not mapped with X. -/
  | instructionAccessFault
  /-- The word is no instruction, or fails its row's condition. -/
  | illegalInstruction
  /-- `ebreak`. -/
  | breakpoint
  /-- A load whose address is not a multiple of its width. -/
  | loadAddressMisaligned
  /-- A byte of a load is not mapped with R. -/
  | loadAccessFault
  /-- A store whose address is not a multiple of its width. -/
  | storeAddressMisaligned
  /-- A byte of a store is not mapped with W. -/
  | storeAccessFault
  /-- `ecall`. -/
  | environmentCall
deriving DecidableEq, Repr

/-- The trap record (60_exceptions.md R405): the cause, the address of the instruction that raised, and the fourth
column of R400. -/
structure TrapRecord where
  cause : Cause
  pc : Word
  info : Word
deriving DecidableEq, Repr

/-- The outcome of the run so far (10_state.md R30, 60_exceptions.md R404). -/
inductive RunOutcome where
  /-- The hart executes a step (R419). -/
  | running
  /-- The run has ended with this record (R404). -/
  | trapped (record : TrapRecord)
deriving DecidableEq, Repr

/-- The bytes of memory that differ from what an unlisted address reads as, by rising address (10_state.md R52). The
canonical form is `Memory.wf`. -/
abbrev Memory := List Host.Cell

/-- The state of the hart (10_state.md R30), with the run's outcome and the parameters of 00_scope.md R7 that the
spec leaves to the model's argument. -/
structure State where
  /-- `x[1]` .. `x[31]`: register `i` stands at index `i - 1`. `x0` is hard-wired and not stored (R31). -/
  x : Vector Word 31
  /-- `f[0]` .. `f[31]` (R50). -/
  f : Vector Word 32
  /-- The address of the instruction about to be executed (R34). -/
  pc : Word
  /-- `fcsr[7:0]`: `frm` in bits 7:5, NV DZ OF UF NX in bits 4 to 0 (R42). Bits 31:8 are not state. -/
  fcsr : BitVec 8
  /-- `M` (R52). -/
  mem : Memory
  /-- The addresses a store has written since reset, rising (R54, 20_memory.md R90). -/
  written : List Nat
  /-- Running, or trapped with a record (R30, 60_exceptions.md R404). -/
  outcome : RunOutcome
  /-- `MEM_MAP` and `MISALIGNED_POLICY` (00_scope.md R7). No step changes them (log 7, log 8). -/
  params : Params
deriving DecidableEq, Repr

/-- Why the machine stops. -/
inductive Fault where
  /-- Raised by `step` alone, for a state whose run has ended with `record`: the machine takes no further step
  (60_exceptions.md R404). Safe: the spec says so. No instruction's meaning raises it. -/
  | runEnded (record : TrapRecord)
deriving DecidableEq, Repr

/-- Why a step has no meaning. -/
inductive Refusal where
  /-- An instruction whose arm of `exec` has no meaning yet. No arm is left so. Safe. -/
  | notModelled (mnemonic : String)
  /-- Raised by `step` alone: the fetch reads the byte at `address`, which a store has written since reset
  (20_memory.md R90). Safe: the spec refuses this case. -/
  | fetchOfStoredByte (address : Nat)
deriving DecidableEq, Repr

/-- The machine right after reset (10_state.md R55, 70_reset_and_hazards.md R450): running, nothing written since
reset; the values that the spec leaves open are those of Config (log 2 to log 8). -/
def State.reset : State :=
  { x := Vector.replicate 31 Config.launchX
    f := Vector.replicate 32 Config.launchF
    pc := Config.resetPc
    fcsr := Config.launchFcsr
    mem := []
    written := []
    outcome := .running
    params := Config.launchParams }

end Sys2Proof.Machine
end

