-- ==== Sys2Proof/Machine/Ops.lean ====
section
/-! DEFINITION. The named operations over registers, memory and the run's outcome, shared by every meaning: register read and write (00_scope.md R11, R12), the address map (20_memory.md R76), memory bytes and accesses (R70 to R76, R94, R95), instruction fetch (R71, R90), and taking an exception (R16, 60_exceptions.md R404, R405). There is no return from an exception (R406). -/

namespace Sys2Proof.Machine

open Sys2Proof

/-! ## Registers -/

/-- `x[i]`: zero for `i = 0`, the register's content otherwise (00_scope.md R11). -/
def State.getX (s : State) (i : XReg) : Word :=
  if i = 0#5 then 0#32 else s.x[i.toNat - 1]'(by have := i.isLt; omega)

/-- `x[i] <- v`: does nothing for `i = 0` (00_scope.md R11). -/
def State.setX (s : State) (i : XReg) (v : Word) : State :=
  if i = 0#5 then s else { s with x := s.x.set (i.toNat - 1) v (by have := i.isLt; omega) }

/-- `f[i]` (00_scope.md R12). -/
def State.getF (s : State) (i : FReg) : Word := s.f[i.toNat]'i.isLt

/-- `f[i] <- v` (00_scope.md R12). -/
def State.setF (s : State) (i : FReg) (v : Word) : State := { s with f := s.f.set i.toNat v i.isLt }

/-- `pc <- t` (00_scope.md R13). -/
def State.setPc (s : State) (t : Word) : State := { s with pc := t }

/-- `pc <- pc + 4`, modulo 2^32 (10_state.md R35). -/
def State.advance (s : State) : State := s.setPc (s.pc + 4#32)

/-! ## Taking an exception -/

/-- `raise E(info)` (00_scope.md R16, 60_exceptions.md R404, R405): no register, CSR, memory byte or `pc` changes, and
the run's outcome becomes trapped with the record (cause, `pc` of this instruction, info). -/
def State.raise (s : State) (cause : Cause) (info : Word) : State :=
  { s with outcome := .trapped { cause := cause, pc := s.pc, info := info } }

/-- A meaning that raises: the next state is the one in which the exception is taken. -/
def raiseNext (cause : Cause) (info : Word) (s : State) : Host.Outcome State Fault Refusal :=
  .next (s.raise cause info)

/-- `raise IllegalInstruction(w)` for an instruction that fails its row's condition (30_encoding.md R135): `w` is the
instruction's word, which its fields determine (log 13). -/
def raiseIllegal (i : Instr) (s : State) : Host.Outcome State Fault Refusal :=
  raiseNext .illegalInstruction (encode i) s

/-! ## The address map -/

/-- The permission an access needs (20_memory.md R76). -/
inductive Access where
  | load
  | store
  | fetch
deriving DecidableEq, Repr

/-- The region contains the address. -/
def regionContains (r : Region) (a : Nat) : Bool := r.base ≤ a && a < r.base + r.size

/-- The region has the permission that the access needs: R for a load, W for a store, X for a fetch (R76). -/
def regionPermits (r : Region) : Access → Bool
  | .load => r.readable
  | .store => r.writable
  | .fetch => r.executable

/-- `MEM_MAP` maps the address with the permission that the access needs (R76). The first region that contains the
address decides; an address in no region is unmapped (log 7). -/
def mapPermits (regions : List Region) (kind : Access) (a : Nat) : Bool :=
  match regions.find? (regionContains · a) with
  | some r => regionPermits r kind
  | none => false

/-! ## Bytes of memory -/

/-- What an address that memory does not list reads as. DESIGN CHOICE (log 6), unsafe: the spec leaves the launch
contents open (10_state.md R55). -/
def unlistedByte : Byte := 0x00#8

/-- `M[a]`: the byte at an address (10_state.md R52). -/
def Memory.read : Memory → Nat → Byte
  | [], _ => unlistedByte
  | (k, b) :: rest, a => if k = a then b else Memory.read rest a

/-- Put a cell before the first one of a higher address. -/
def Memory.insertCell : Memory → Nat → Byte → Memory
  | [], a, b => [(a, b)]
  | (k, c) :: rest, a, b => if a < k then (a, b) :: (k, c) :: rest else (k, c) :: Memory.insertCell rest a b

/-- `M[a] <- b`: the old cell goes, and the new one comes in unless it says what an unlisted address reads as, so that
equal memories are equal lists. -/
def Memory.write (m : Memory) (a : Nat) (b : Byte) : Memory :=
  if b = unlistedByte then m.filter (·.1 ≠ a) else Memory.insertCell (m.filter (·.1 ≠ a)) a b

/-- The canonical form of memory: addresses strictly rising, each in the 32-bit space, and no cell that says what an
unlisted address reads as. -/
abbrev Memory.wf (m : Memory) : Prop :=
  m.Pairwise (fun c d => c.1 < d.1) ∧ ∀ c ∈ m, c.1 < 2 ^ 32 ∧ c.2 ≠ unlistedByte

/-- Add an address to a rising list of addresses. -/
def insertAddress : List Nat → Nat → List Nat
  | [], a => [a]
  | k :: rest, a => if a < k then a :: k :: rest else if a = k then k :: rest else k :: insertAddress rest a

/-- The canonical form of the written-since-reset set: addresses strictly rising, each in the 32-bit space. -/
abbrev writtenWf (l : List Nat) : Prop := l.Pairwise (· < ·) ∧ ∀ a ∈ l, a < 2 ^ 32

/-! ## Accesses -/

/-- The width of a data access (20_memory.md R75). -/
inductive Width where
  | byte
  | half
  | word
deriving DecidableEq, Repr

/-- The number of bytes that an access moves (R75). -/
def bytesIn : Width → Nat
  | .byte => 1
  | .half => 2
  | .word => 4

/-- The address of byte `k` of an access at `addr`, modulo 2^32 (20_memory.md R94). -/
def byteAddress (addr : Word) (k : Nat) : Nat := (addr + BitVec.ofNat 32 k).toNat

/-- The addresses of the `n` bytes of an access at `addr`, lowest first, each modulo 2^32 (R94). -/
def accessAddresses (addr : Word) (n : Nat) : List Nat := (List.range n).map (byteAddress addr)

/-- The value of the bytes of an access, the byte at `addr` in bits 7:0, with zeros above it (20_memory.md R70). -/
def Memory.readValue (m : Memory) (addr : Word) : Width → Word
  | .byte => (m.read (byteAddress addr 0)).setWidth 32
  | .half => (m.read (byteAddress addr 1) ++ m.read (byteAddress addr 0)).setWidth 32
  | .word =>
    wordOfBytes (m.read (byteAddress addr 0)) (m.read (byteAddress addr 1)) (m.read (byteAddress addr 2))
      (m.read (byteAddress addr 3))

/-- The bytes of an access take the low bytes of a value: `M[addr+k] <- v[8k+7 : 8k]` (R70). -/
def Memory.writeValue (m : Memory) (addr : Word) (n : Nat) (v : Word) : Memory :=
  (List.range n).foldl (fun m k => m.write (byteAddress addr k) (byteOfWord v k)) m

/-- The access is aligned: `addr mod n == 0` (20_memory.md R72). -/
def aligned (addr : Word) (w : Width) : Bool := addr.toNat % bytesIn w == 0

/-- Every byte of the access is mapped with the permission it needs (R76). -/
def accessPermitted (p : Params) (kind : Access) (addr : Word) (n : Nat) : Bool :=
  (accessAddresses addr n).all (mapPermits p.memMap kind)

/-- The alignment check of a data access fails: only under `MISALIGNED_POLICY` = `trap` (R72, R73). -/
def alignmentFails (p : Params) (addr : Word) (w : Width) : Bool := p.misaligned == .trap && !aligned addr w

/-- `MemRead(addr, n)` (00_scope.md R14) and then `k` of the value, or the exception that the checks raise, in the order
of 20_memory.md R95: alignment, then the map. -/
def loadThen (addr : Word) (w : Width) (s : State) (k : Word → State) : Host.Outcome State Fault Refusal :=
  if alignmentFails s.params addr w then raiseNext .loadAddressMisaligned addr s
  else if accessPermitted s.params .load addr (bytesIn w) then .next (k (s.mem.readValue addr w))
  else raiseNext .loadAccessFault addr s

/-- The state after the bytes of a store are written: they also join the written-since-reset set (42_load_store.md
R250, 20_memory.md R90). -/
def State.storeBytes (s : State) (addr : Word) (n : Nat) (v : Word) : State :=
  { s with
    mem := s.mem.writeValue addr n v
    written := (accessAddresses addr n).foldl insertAddress s.written }

/-- `MemWrite(addr, n, v); pc <- pc + 4` (00_scope.md R14), or the exception that the checks raise, in the order of
20_memory.md R95: nothing is written then (R76). -/
def storeNext (addr : Word) (w : Width) (v : Word) (s : State) : Host.Outcome State Fault Refusal :=
  if alignmentFails s.params addr w then raiseNext .storeAddressMisaligned addr s
  else if accessPermitted s.params .store addr (bytesIn w) then .next (s.storeBytes addr (bytesIn w) v).advance
  else raiseNext .storeAccessFault addr s

/-! ## Fetch -/

/-- What the fetch of an instruction gives. -/
inductive Fetched where
  /-- The instruction's four bytes, lowest address first. -/
  | bytes (b0 b1 b2 b3 : Byte)
  /-- A byte is not mapped with X (20_memory.md R76). -/
  | accessFault
  /-- This byte was written by a store since reset (20_memory.md R90). -/
  | storedByte (address : Nat)
deriving DecidableEq, Repr

/-- `Fetch(pc)`: the X check on the four bytes at `pc`, then the refusal of stored bytes, then the bytes (D32, R402,
R71). `pc` is a multiple of 4 in every run; the alignment is not checked here (R74, log 17). -/
def State.fetch (s : State) : Fetched :=
  if accessPermitted s.params .fetch s.pc 4 then
    match (accessAddresses s.pc 4).find? (s.written.contains ·) with
    | some a => .storedByte a
    | none =>
      .bytes (s.mem.read (byteAddress s.pc 0)) (s.mem.read (byteAddress s.pc 1)) (s.mem.read (byteAddress s.pc 2))
        (s.mem.read (byteAddress s.pc 3))
  else .accessFault

/-- The state with a word placed at `pc` from outside the machine, as the environment places a program
(70_reset_and_hazards.md R452): its bytes are not in the written-since-reset set (log 11). -/
def State.placeWord (s : State) (w : Word) : State :=
  { s with
    mem := s.mem.writeValue s.pc 4 w
    written := s.written.filter (fun a => !(accessAddresses s.pc 4).contains a) }

end Sys2Proof.Machine
end

