-- ==== Sys2Proof/Machine/Flags.lean ====
section
/-! DEFINITION. The accrued floating-point exception flags, the only status flags of the hardware (10_state.md R37, R42; 45_float_arith.md R314, R315). Integer instructions compute no flag. -/

namespace Sys2Proof.Machine

open Sys2Proof

/-- A set of flags, as `fcsr[4:0]` holds it: NV DZ OF UF NX from bit 4 to bit 0 (45_float_arith.md R315). -/
abbrev FpFlags := BitVec 5

/-- No flag. -/
def noFlags : FpFlags := 0b00000#5

/-- `NX`, inexact: bit 0 (10_state.md R42). -/
def flagNX : FpFlags := 0b00001#5

/-- `UF`, underflow: bit 1 (10_state.md R42). -/
def flagUF : FpFlags := 0b00010#5

/-- `OF`, overflow: bit 2 (10_state.md R42). -/
def flagOF : FpFlags := 0b00100#5

/-- `DZ`, divide by zero: bit 3 (10_state.md R42). -/
def flagDZ : FpFlags := 0b01000#5

/-- `NV`, invalid operation: bit 4 (10_state.md R42). -/
def flagNV : FpFlags := 0b10000#5

/-- The flag when the condition holds. -/
def flagIf (c : Bool) (flag : FpFlags) : FpFlags := if c then flag else noFlags

/-- `fcsr[4:0]`, the accrued flags (10_state.md R43). -/
def State.fflags (s : State) : FpFlags := s.fcsr.extractLsb' 0 5

/-- `fcsr[7:5]`, the dynamic rounding mode (10_state.md R44). -/
def State.frm (s : State) : BitVec 3 := s.fcsr.extractLsb' 5 3

/-- `fcsr[7:0] <- v`. -/
def State.setFcsr (s : State) (v : BitVec 8) : State := { s with fcsr := v }

/-- `fcsr[4:0] <- fcsr[4:0] | fl` (45_float_arith.md R315): flags are sticky. -/
def State.accrue (s : State) (fl : FpFlags) : State := s.setFcsr (s.frm ++ (s.fflags ||| fl))

end Sys2Proof.Machine
end

