-- ==== Sys2Proof/Machine/Operands.lean ====
section
/-! DEFINITION. The operand forms: immediates as 32-bit values (30_encoding.md R120 to R126), shift amounts (R125), effective addresses and targets (20_memory.md R94, 41_control_transfer.md R230), the rounding mode (45_float_arith.md R311) and the CSR operand with its read and write (00_scope.md R15, 10_state.md R41 to R46). -/

namespace Sys2Proof.Machine

open Sys2Proof

/-! ## Immediates and shift amounts -/

/-- `sext_32` of a 12-bit immediate or offset (30_encoding.md R120, R121). -/
def sext12 (imm : BitVec 12) : Word := imm.signExtend 32

/-- `sext_32` of a branch offset (30_encoding.md R122). -/
def sext13 (offset : BitVec 13) : Word := offset.signExtend 32

/-- `sext_32` of a `jal` offset (30_encoding.md R124). -/
def sext21 (offset : BitVec 21) : Word := offset.signExtend 32

/-- The U-immediate: the 20 bits in bits 31:12, zeros below (30_encoding.md R123). -/
def upperImm (imm : BitVec 20) : Word := imm ++ 0x000#12

/-- `zext_32` of the five-bit immediate of a CSR instruction (30_encoding.md R126). -/
def zextZimm (zimm : BitVec 5) : Word := zimm.setWidth 32

/-- The amount of a shift by register: `unsigned(v[4:0])` (40_integer_computational.md R209). -/
def shiftAmount (v : Word) : Nat := (v.extractLsb' 0 5).toNat

/-- A comparison used as a value: 1 when true, 0 when false (00_scope.md R10). -/
def boolWord (c : Bool) : Word := if c then 1#32 else 0#32

/-! ## Addresses -/

/-- `addr = x[rs1] + sext_32(offset)`, modulo 2^32 (20_memory.md R94). -/
def State.effectiveAddress (s : State) (rs1 : XReg) (offset : BitVec 12) : Word := s.getX rs1 + sext12 offset

/-- The target of a control transfer is a multiple of 4: `target[1:0] = 00` (41_control_transfer.md R230). -/
def targetAligned (target : Word) : Bool := target.extractLsb' 0 2 == 0b00#2

/-- The target of a branch: `pc + sext_32(offset)` (41_control_transfer.md R231). -/
def State.branchTarget (s : State) (offset : BitVec 13) : Word := s.pc + sext13 offset

/-- The target of `jal`: `pc + sext_32(offset)` (41_control_transfer.md R238). -/
def State.jalTarget (s : State) (offset : BitVec 21) : Word := s.pc + sext21 offset

/-- The target of `jalr`: `(x[rs1] + sext_32(offset)) & 0xFFFFFFFE` (41_control_transfer.md R239). -/
def State.jalrTarget (s : State) (rs1 : XReg) (offset : BitVec 12) : Word :=
  (s.getX rs1 + sext12 offset) &&& 0xFFFFFFFE#32

/-! ## Rounding mode -/

/-- The five rounding modes (10_state.md R45). -/
inductive RoundingMode where
  /-- To nearest, ties to even. -/
  | rne
  /-- Toward zero. -/
  | rtz
  /-- Down, toward minus infinity. -/
  | rdn
  /-- Up, toward plus infinity. -/
  | rup
  /-- To nearest, ties to maximum magnitude. -/
  | rmm
deriving DecidableEq, Repr

/-- The mode that a code names; 101, 110 and 111 name none (10_state.md R45). -/
def modeOfCode (code : BitVec 3) : Option RoundingMode :=
  match code with
  | 0b000#3 => some .rne
  | 0b001#3 => some .rtz
  | 0b010#3 => some .rdn
  | 0b011#3 => some .rup
  | 0b100#3 => some .rmm
  | _ => none

/-- The rounding mode of an instruction (45_float_arith.md R311): `rm` = 111 takes `frm`; none when the instruction is
illegal, that is `rm` in {101, 110}, or `rm` = 111 with `frm` in {101, 110, 111}. -/
def State.roundingMode (s : State) (rm : BitVec 3) : Option RoundingMode :=
  if rm = 0b111#3 then modeOfCode s.frm else modeOfCode rm

/-! ## Control and status registers -/

/-- The default `CSR_MAP`: exactly `fflags`, `frm` and `fcsr`, all readable and writable (10_state.md R41, R46, log 9). -/
def csrMap : List CsrEntry :=
  [ { address := 0x001#12, name := .fflags, readOnly := false },
    { address := 0x002#12, name := .frm, readOnly := false },
    { address := 0x003#12, name := .fcsr, readOnly := false } ]

/-- The entry of `CSR_MAP` at an address, if one exists (44_csr_system.md R290 (a)). -/
def csrLookup (csr : CsrAddr) : Option CsrEntry := csrMap.find? (·.address == csr)

/-- `CsrRead`: the register's value, zero-extended (00_scope.md R15, 10_state.md R42 to R44). -/
def State.csrRead (s : State) : CsrName → Word
  | .fflags => s.fflags.setWidth 32
  | .frm => s.frm.setWidth 32
  | .fcsr => s.fcsr.setWidth 32

/-- `CsrWrite`: the register keeps the low bits that it implements (44_csr_system.md R290 (f), 10_state.md R42 to R44). -/
def State.csrWrite (s : State) (name : CsrName) (v : Word) : State :=
  match name with
  | .fflags => s.setFcsr (s.frm ++ v.extractLsb' 0 5)
  | .frm => s.setFcsr (v.extractLsb' 0 3 ++ s.fflags)
  | .fcsr => s.setFcsr (v.extractLsb' 0 8)

end Sys2Proof.Machine
end

