-- ==== Sys2Proof/Machine/Control.lean ====
section
/-! DEFINITION. The 8 control transfer instructions (41_control_transfer.md R230 to R241). -/

namespace Sys2Proof.Machine

open Sys2Proof

/-- `pc <- target` after `link`, or `InstructionAddressMisaligned(target)` with nothing written when the target is not a
multiple of 4 (R230). -/
def transferNext (target : Word) (link : State → State) (s : State) : Host.Outcome State Fault Refusal :=
  if targetAligned target then .next ((link s).setPc target)
  else raiseNext .instructionAddressMisaligned target s

/-- A conditional branch (R231): to `pc + sext_32(offset)` when the condition holds, else to `pc + 4`. A branch not taken
never raises (R230). -/
def branchNext (taken : Bool) (offset : BitVec 13) (s : State) : Host.Outcome State Fault Refusal :=
  if taken then transferNext (s.branchTarget offset) id s else .next s.advance

/-- `beq` (R232): equal. -/
def execBeq (rs1 rs2 : XReg) (offset : BitVec 13) (s : State) : Host.Outcome State Fault Refusal :=
  branchNext (s.getX rs1 == s.getX rs2) offset s

/-- `bge` (R233): at least, signed. -/
def execBge (rs1 rs2 : XReg) (offset : BitVec 13) (s : State) : Host.Outcome State Fault Refusal :=
  branchNext (!(s.getX rs1).slt (s.getX rs2)) offset s

/-- `bgeu` (R234): at least, unsigned (90_conflicts.md C1). -/
def execBgeu (rs1 rs2 : XReg) (offset : BitVec 13) (s : State) : Host.Outcome State Fault Refusal :=
  branchNext (!(s.getX rs1).ult (s.getX rs2)) offset s

/-- `blt` (R235): less, signed. -/
def execBlt (rs1 rs2 : XReg) (offset : BitVec 13) (s : State) : Host.Outcome State Fault Refusal :=
  branchNext ((s.getX rs1).slt (s.getX rs2)) offset s

/-- `bltu` (R236): less, unsigned. -/
def execBltu (rs1 rs2 : XReg) (offset : BitVec 13) (s : State) : Host.Outcome State Fault Refusal :=
  branchNext ((s.getX rs1).ult (s.getX rs2)) offset s

/-- `bne` (R237): not equal. -/
def execBne (rs1 rs2 : XReg) (offset : BitVec 13) (s : State) : Host.Outcome State Fault Refusal :=
  branchNext (s.getX rs1 != s.getX rs2) offset s

/-- `jal` (R238): the link is the address of the following instruction. -/
def execJal (rd : XReg) (offset : BitVec 21) (s : State) : Host.Outcome State Fault Refusal :=
  transferNext (s.jalTarget offset) (fun s => s.setX rd (s.pc + 4#32)) s

/-- `jalr` (R239): the target uses `x[rs1]` as it was before the link is written. -/
def execJalr (rd rs1 : XReg) (offset : BitVec 12) (s : State) : Host.Outcome State Fault Refusal :=
  transferNext (s.jalrTarget rs1 offset) (fun s => s.setX rd (s.pc + 4#32)) s

end Sys2Proof.Machine
end

