-- ==== Sys2Proof/Machine/Numerics.lean ====
section
/-! DEFINITION. `NUMERICS` (00_scope.md R7, 45_float_arith.md R310 to R322): the binary32 format, the rounding function on exact values, and one total function per floating-point operation from bit patterns and a rounding mode to a bit pattern and the five flags, as R322 lists them. Exact values are integers, quotients and square roots of integers: nothing is approximated. -/

namespace Sys2Proof.Machine

open Sys2Proof

/-! ## Format (R310) -/

/-- The sign, bit 31. -/
def fpSign (a : Word) : Bool := a.msb

/-- The exponent field, bits 30:23. -/
def fpExponent (a : Word) : Nat := (a.extractLsb' 23 8).toNat

/-- The fraction field, bits 22:0. -/
def fpFraction (a : Word) : Nat := (a.extractLsb' 0 23).toNat

/-- A NaN: `e = 255`, `m != 0`. -/
def isNaN (a : Word) : Bool := fpExponent a == 255 && fpFraction a != 0

/-- A signaling NaN: a NaN with bit 22 = 0. -/
def isSNaN (a : Word) : Bool := isNaN a && !a.getLsbD 22

/-- An infinity: `e = 255`, `m = 0`. -/
def isInf (a : Word) : Bool := fpExponent a == 255 && fpFraction a == 0

/-- A zero: `e = 0`, `m = 0`. -/
def isZero (a : Word) : Bool := fpExponent a == 0 && fpFraction a == 0

/-- The canonical NaN (R313 (a)). -/
def canonicalNaN : Word := 0x7FC00000#32

/-- The infinity of a sign. -/
def infinityOf (neg : Bool) : Word := if neg then 0xFF800000#32 else 0x7F800000#32

/-- The zero of a sign. -/
def zeroOf (neg : Bool) : Word := if neg then 0x80000000#32 else 0x00000000#32

/-- The largest finite number of a sign. -/
def largestOf (neg : Bool) : Word := if neg then 0xFF7FFFFF#32 else 0x7F7FFFFF#32

/-- `-x`: bit 31 inverted (R316, R320). -/
def fpNegate (a : Word) : Word := a ^^^ 0x80000000#32

/-- The magnitude of a number in units of 2^-149, the spacing of subnormals, of which every finite number is a whole
multiple: `m` for `e = 0`, `(2^23 + m) * 2^(e-1)` above. An infinity counts as 2^277 units, which is 2^128 and beyond
every finite number. -/
def unitsMagnitude (a : Word) : Nat :=
  if fpExponent a = 0 then fpFraction a else (2 ^ 23 + fpFraction a) * 2 ^ (fpExponent a - 1)

/-- `val(a)` in units of 2^-149. -/
def units (a : Word) : Int := if fpSign a then -(unitsMagnitude a : Int) else (unitsMagnitude a : Int)

/-! ## Exact magnitudes -/

/-- The integer square root, bit by bit from `bits - 1` down, starting from a root found so far. -/
def isqrtFrom (n : Nat) : Nat → Nat → Nat
  | 0, root => root
  | bits + 1, root => isqrtFrom n bits (if (root + 2 ^ bits) * (root + 2 ^ bits) ≤ n then root + 2 ^ bits else root)

/-- The floor of the square root. -/
def isqrt (n : Nat) : Nat := isqrtFrom n (n.log2 / 2 + 1) 0

/-- The magnitude of an exact result: a quotient, or the square root of a quotient. Denominators are positive. -/
inductive Magnitude where
  | ratio (num den : Nat)
  | root (num den : Nat)
deriving DecidableEq, Repr

/-- `floor(log2 (num / den))` for positive `num` and `den`: the difference of the logarithms, or one less. -/
def ratioLog2 (num den : Nat) : Int :=
  let l : Int := (num.log2 : Int) - (den.log2 : Int)
  if den * 2 ^ l.toNat ≤ num * 2 ^ (-l).toNat then l else l - 1

/-- `E = floor(log2 |v|)` (R312). -/
def floorLog2 : Magnitude → Int
  | .ratio num den => ratioLog2 num den
  | .root num den => ratioLog2 num den / 2

/-- `floor(|v| / 2^k)`, and whether `|v| / 2^k` is an integer. -/
def floorAt (v : Magnitude) (k : Int) : Nat × Bool :=
  match v with
  | .ratio num den =>
    let a := num * 2 ^ (-k).toNat
    let b := den * 2 ^ k.toNat
    (a / b, a % b == 0)
  | .root num den =>
    let a := num * 2 ^ (-(2 * k)).toNat
    let b := den * 2 ^ (2 * k).toNat
    let r := isqrt (a / b)
    (r, r * r * b == a)

/-! ## Rounding (R312) -/

/-- `|v| / q` for `q = 2^k` rounded to the integer `r` of R312, for a value of sign `neg`; and whether it was no integer.
The floor at half the spacing gives the integer below and which side of the middle the value lies. -/
def roundAt (mode : RoundingMode) (neg : Bool) (v : Magnitude) (k : Int) : Nat × Bool :=
  let below := floorAt v (k - 1)
  let n := below.1 / 2
  let half := below.1 % 2 == 1
  let inexact := half || !below.2
  let up := match mode with
    | .rne => half && (!below.2 || n % 2 == 1)
    | .rmm => half
    | .rtz => false
    | .rdn => neg && inexact
    | .rup => !neg && inexact
  (if up then n + 1 else n, inexact)

/-- The number of sign `neg` and magnitude `r * 2^k`, for `r ≤ 2^24` and `k ≥ -149`, with `r ≥ 2^23` above `k = -149`:
a carry out of the fraction raises the exponent field by one. -/
def packNumber (neg : Bool) (r : Nat) (k : Int) : Word :=
  BitVec.ofBool neg ++ BitVec.ofNat 31 ((k + 149).toNat * 2 ^ 23 + r)

/-- What an overflow delivers: infinity, or the largest finite number where the mode rounds toward zero (R312). -/
def overflowResult (mode : RoundingMode) (neg : Bool) : Word :=
  match mode with
  | .rne => infinityOf neg
  | .rmm => infinityOf neg
  | .rtz => largestOf neg
  | .rdn => if neg then infinityOf neg else largestOf neg
  | .rup => if neg then largestOf neg else infinityOf neg

/-- `v` is tiny: rounded with unbounded exponent range, spacing `2^(E-23)`, its magnitude is below 2^-126 (R312). The
rounding is that of `v`, with its sign and the instruction's mode. DEDUCED (log 14), unsafe. -/
def isTiny (mode : RoundingMode) (neg : Bool) (v : Magnitude) : Bool :=
  let e := floorLog2 v
  e < -126 && (roundAt mode neg v (e - 23)).1 < 2 ^ (-103 - e).toNat

/-- `round(v, mode)` for an exact value `v != 0` of sign `neg` (R312): the result and its flags. -/
def roundExact (mode : RoundingMode) (neg : Bool) (v : Magnitude) : Word × FpFlags :=
  let k := max (floorLog2 v) (-126) - 23
  let r := roundAt mode neg v k
  if 2 ^ 277 ≤ r.1 * 2 ^ (k + 149).toNat then (overflowResult mode neg, flagOF ||| flagNX)
  else (packNumber neg r.1 k, flagIf r.2 flagNX ||| flagIf (isTiny mode neg v && r.2) flagUF)

/-- `roundExact` of the integer `v != 0` in units of `2^-scale`. -/
def roundUnits (mode : RoundingMode) (v : Int) (scale : Nat) : Word × FpFlags :=
  roundExact mode (v < 0) (.ratio v.natAbs (2 ^ scale))

/-! ## Operations (R313, R316 to R321) -/

/-- The canonical NaN, with NV when an operand is a signaling NaN (R313 (a), (b), (c)). -/
def nanResult (signaling : Bool) : Word × FpFlags := (canonicalNaN, flagIf signaling flagNV)

/-- An invalid operation: the canonical NaN with NV. -/
def invalidResult : Word × FpFlags := (canonicalNaN, flagNV)

/-- The sign of an exact zero sum (R316, R320): that of the two zeros when they agree, otherwise plus, but minus under
RDN. -/
def zeroSum (mode : RoundingMode) (bothZero negA negB : Bool) : Word :=
  if bothZero && negA == negB then zeroOf negA else zeroOf (mode == .rdn)

/-- `fadd(a, b, mode)` (R316). -/
def fadd (a b : Word) (mode : RoundingMode) : Word × FpFlags :=
  if isNaN a || isNaN b then nanResult (isSNaN a || isSNaN b)
  else if isInf a && isInf b && fpSign a != fpSign b then invalidResult
  else if isInf a then (a, noFlags)
  else if isInf b then (b, noFlags)
  else if units a + units b = 0 then (zeroSum mode (isZero a && isZero b) (fpSign a) (fpSign b), noFlags)
  else roundUnits mode (units a + units b) 149

/-- `fsub(a, b, mode)` (R316): inverting the sign of `b` changes neither whether it is a NaN nor which kind. -/
def fsub (a b : Word) (mode : RoundingMode) : Word × FpFlags := fadd a (fpNegate b) mode

/-- `fmul(a, b, mode)` (R317). -/
def fmul (a b : Word) (mode : RoundingMode) : Word × FpFlags :=
  let neg := fpSign a != fpSign b
  if (isZero a && isInf b) || (isInf a && isZero b) then invalidResult
  else if isNaN a || isNaN b then nanResult (isSNaN a || isSNaN b)
  else if isInf a || isInf b then (infinityOf neg, noFlags)
  else if isZero a || isZero b then (zeroOf neg, noFlags)
  else roundUnits mode (units a * units b) 298

/-- `fdiv(a, b, mode)` (R318). -/
def fdiv (a b : Word) (mode : RoundingMode) : Word × FpFlags :=
  let neg := fpSign a != fpSign b
  if isNaN a || isNaN b then nanResult (isSNaN a || isSNaN b)
  else if (isZero a && isZero b) || (isInf a && isInf b) then invalidResult
  else if isInf a then (infinityOf neg, noFlags)
  else if isInf b then (zeroOf neg, noFlags)
  else if isZero b then (infinityOf neg, flagDZ)
  else if isZero a then (zeroOf neg, noFlags)
  else roundExact mode neg (.ratio (unitsMagnitude a) (unitsMagnitude b))

/-- `fsqrt(a, mode)` (R319). -/
def fsqrt (a : Word) (mode : RoundingMode) : Word × FpFlags :=
  if isNaN a then nanResult (isSNaN a)
  else if isZero a then (a, noFlags)
  else if fpSign a then invalidResult
  else if isInf a then (a, noFlags)
  else roundExact mode false (.root (unitsMagnitude a) (2 ^ 149))

/-- `fma(a, b, c, mode)`, `a × b + c` with one rounding (R320). -/
def fma (a b c : Word) (mode : RoundingMode) : Word × FpFlags :=
  let neg := fpSign a != fpSign b
  if (isZero a && isInf b) || (isInf a && isZero b) then invalidResult
  else if isNaN a || isNaN b || isNaN c then nanResult (isSNaN a || isSNaN b || isSNaN c)
  else if isInf a || isInf b then
    if isInf c && fpSign c != neg then invalidResult else (infinityOf neg, noFlags)
  else if isInf c then (c, noFlags)
  else if units a * units b + units c * 2 ^ 149 = 0 then
    (zeroSum mode ((isZero a || isZero b) && isZero c) neg (fpSign c), noFlags)
  else roundUnits mode (units a * units b + units c * 2 ^ 149) 298

/-- `a` is below `b`, for two operands that are no NaN, with -0 below +0 (R321). -/
def fpBelow (a b : Word) : Bool := units a < units b || (units a == units b && fpSign a && !fpSign b)

/-- `fmin` and `fmax` on NaNs (R321): both NaN give the canonical NaN, one gives the other operand; NV for a signaling
NaN, and no other flag ever. -/
def selectResult (a b chosen : Word) : Word × FpFlags :=
  ( if isNaN a && isNaN b then canonicalNaN else if isNaN a then b else if isNaN b then a else chosen,
    flagIf (isSNaN a || isSNaN b) flagNV )

/-- `fmin(a, b)` (R321). -/
def fmin (a b : Word) : Word × FpFlags := selectResult a b (if fpBelow b a then b else a)

/-- `fmax(a, b)` (R321). -/
def fmax (a b : Word) : Word × FpFlags := selectResult a b (if fpBelow a b then b else a)

/-! ## Comparison and classification (46_float_move_convert_compare.md R341, R346 to R348) -/

/-- `feq(a, b)`: a quiet comparison, NV for a signaling NaN only (R346). -/
def feq (a b : Word) : Bool × FpFlags :=
  (!(isNaN a || isNaN b) && units a == units b, flagIf (isSNaN a || isSNaN b) flagNV)

/-- `flt(a, b)`: a signaling comparison, NV for any NaN (R348). -/
def flt (a b : Word) : Bool × FpFlags :=
  if isNaN a || isNaN b then (false, flagNV) else (units a < units b, noFlags)

/-- `fle(a, b)`: a signaling comparison, NV for any NaN (R347). -/
def fle (a b : Word) : Bool × FpFlags :=
  if isNaN a || isNaN b then (false, flagNV) else (units a ≤ units b, noFlags)

/-- The class of a pattern, 0 to 9 (R341; the quiet NaN is bit 9, 90_conflicts.md C7). -/
def classOf (a : Word) : Nat :=
  if isNaN a then (if a.getLsbD 22 then 9 else 8)
  else if fpExponent a = 255 then (if fpSign a then 0 else 7)
  else if isZero a then (if fpSign a then 3 else 4)
  else if fpExponent a = 0 then (if fpSign a then 2 else 5)
  else (if fpSign a then 1 else 6)

/-- `classify(a)`: exactly one bit set (R341). -/
def classify (a : Word) : Word := 1#32 <<< classOf a

/-! ## Conversion (46_float_move_convert_compare.md R342 to R345) -/

/-- `rint(val(a), mode)` of a finite `a` (R344), and whether `val(a)` was no integer. -/
def rint (a : Word) (mode : RoundingMode) : Int × Bool :=
  let r := roundAt mode (fpSign a) (.ratio (unitsMagnitude a) (2 ^ 149)) 0
  (if fpSign a then -(r.1 : Int) else (r.1 : Int), r.2)

/-- Conversion to an integer between `lo` and `hi` (R344, R345): a NaN counts as plus infinity, and what lies outside
gives the nearer bound with NV alone; the range test is on the rounded value. -/
def fcvtToInt (a : Word) (mode : RoundingMode) (lo hi : Int) : Word × FpFlags :=
  if isNaN a || (isInf a && !fpSign a) then (BitVec.ofInt 32 hi, flagNV)
  else if isInf a then (BitVec.ofInt 32 lo, flagNV)
  else if hi < (rint a mode).1 then (BitVec.ofInt 32 hi, flagNV)
  else if (rint a mode).1 < lo then (BitVec.ofInt 32 lo, flagNV)
  else (BitVec.ofInt 32 (rint a mode).1, flagIf (rint a mode).2 flagNX)

/-- `fcvt_w_s(a, mode)` (R344). -/
def fcvtWSOf (a : Word) (mode : RoundingMode) : Word × FpFlags := fcvtToInt a mode (-(2 ^ 31)) (2 ^ 31 - 1)

/-- `fcvt_wu_s(a, mode)` (R345). -/
def fcvtWuSOf (a : Word) (mode : RoundingMode) : Word × FpFlags := fcvtToInt a mode 0 (2 ^ 32 - 1)

/-- Conversion of an integer (R342, R343): zero gives +0, anything else is rounded. -/
def fcvtFromInt (n : Int) (mode : RoundingMode) : Word × FpFlags :=
  if n = 0 then (0x00000000#32, noFlags) else roundUnits mode n 0

/-- `fcvt_s_w(v, mode)`: the word as a signed integer (R342). -/
def fcvtSWOf (v : Word) (mode : RoundingMode) : Word × FpFlags := fcvtFromInt v.toInt mode

/-- `fcvt_s_wu(v, mode)`: the word as an unsigned integer (R343). -/
def fcvtSWuOf (v : Word) (mode : RoundingMode) : Word × FpFlags := fcvtFromInt (v.toNat : Int) mode

/-! ## Sign injection (46_float_move_convert_compare.md R352 to R354) -/

/-- A number with the given sign and the exponent and fraction of `a`: bits only, no NaN rule (R313 (d)). -/
def withSign (neg : Bool) (a : Word) : Word := BitVec.ofBool neg ++ a.extractLsb' 0 31

end Sys2Proof.Machine
end

