-- ==== Sys2Proof/Machine/FloatArith.lean ====
section
/-! DEFINITION. The 11 floating-point arithmetic instructions (45_float_arith.md R323 to R333), over the functions of Numerics. -/

namespace Sys2Proof.Machine

open Sys2Proof

/-- `f[rd] <- r; fcsr[4:0] <- fcsr[4:0] | fl; pc <- pc + 4` (R315). -/
def State.finishF (s : State) (rd : FReg) (result : Word × FpFlags) : State :=
  ((s.setF rd result.1).accrue result.2).advance

/-- `x[rd] <- r; fcsr[4:0] <- fcsr[4:0] | fl; pc <- pc + 4`: the flags accrue for `rd = x0` too
(46_float_move_convert_compare.md R340 (b)). -/
def State.finishX (s : State) (rd : XReg) (result : Word × FpFlags) : State :=
  ((s.setX rd result.1).accrue result.2).advance

/-- The rounding-mode check of R311, before any operand is read: the instruction `i` is illegal, or runs in the mode. -/
def roundedNext (i : Instr) (rm : BitVec 3) (run : RoundingMode → State) (s : State) :
    Host.Outcome State Fault Refusal :=
  match s.roundingMode rm with
  | none => raiseIllegal i s
  | some mode => .next (run mode)

/-- `fadd.s` (R323). -/
def execFaddS (rd rs1 rs2 : FReg) (rm : BitVec 3) (s : State) : Host.Outcome State Fault Refusal :=
  roundedNext (.faddS rd rs1 rs2 rm) rm (fun mode => s.finishF rd (fadd (s.getF rs1) (s.getF rs2) mode)) s

/-- `fdiv.s` (R324). -/
def execFdivS (rd rs1 rs2 : FReg) (rm : BitVec 3) (s : State) : Host.Outcome State Fault Refusal :=
  roundedNext (.fdivS rd rs1 rs2 rm) rm (fun mode => s.finishF rd (fdiv (s.getF rs1) (s.getF rs2) mode)) s

/-- `fmadd.s` (R325): `f[rs1] × f[rs2] + f[rs3]`, one rounding. -/
def execFmaddS (rd rs1 rs2 rs3 : FReg) (rm : BitVec 3) (s : State) : Host.Outcome State Fault Refusal :=
  roundedNext (.fmaddS rd rs1 rs2 rs3 rm) rm
    (fun mode => s.finishF rd (fma (s.getF rs1) (s.getF rs2) (s.getF rs3) mode)) s

/-- `fmax.s` (R326). -/
def execFmaxS (rd rs1 rs2 : FReg) (s : State) : Host.Outcome State Fault Refusal :=
  .next (s.finishF rd (fmax (s.getF rs1) (s.getF rs2)))

/-- `fmin.s` (R327). -/
def execFminS (rd rs1 rs2 : FReg) (s : State) : Host.Outcome State Fault Refusal :=
  .next (s.finishF rd (fmin (s.getF rs1) (s.getF rs2)))

/-- `fmsub.s` (R328): `f[rs1] × f[rs2] - f[rs3]`, one rounding. -/
def execFmsubS (rd rs1 rs2 rs3 : FReg) (rm : BitVec 3) (s : State) : Host.Outcome State Fault Refusal :=
  roundedNext (.fmsubS rd rs1 rs2 rs3 rm) rm
    (fun mode => s.finishF rd (fma (s.getF rs1) (s.getF rs2) (fpNegate (s.getF rs3)) mode)) s

/-- `fmul.s` (R329). -/
def execFmulS (rd rs1 rs2 : FReg) (rm : BitVec 3) (s : State) : Host.Outcome State Fault Refusal :=
  roundedNext (.fmulS rd rs1 rs2 rm) rm (fun mode => s.finishF rd (fmul (s.getF rs1) (s.getF rs2) mode)) s

/-- `fnmadd.s` (R330): `-(f[rs1] × f[rs2]) - f[rs3]`, one rounding. -/
def execFnmaddS (rd rs1 rs2 rs3 : FReg) (rm : BitVec 3) (s : State) : Host.Outcome State Fault Refusal :=
  roundedNext (.fnmaddS rd rs1 rs2 rs3 rm) rm
    (fun mode => s.finishF rd (fma (fpNegate (s.getF rs1)) (s.getF rs2) (fpNegate (s.getF rs3)) mode)) s

/-- `fnmsub.s` (R331): `-(f[rs1] × f[rs2]) + f[rs3]`, one rounding. -/
def execFnmsubS (rd rs1 rs2 rs3 : FReg) (rm : BitVec 3) (s : State) : Host.Outcome State Fault Refusal :=
  roundedNext (.fnmsubS rd rs1 rs2 rs3 rm) rm
    (fun mode => s.finishF rd (fma (fpNegate (s.getF rs1)) (s.getF rs2) (s.getF rs3) mode)) s

/-- `fsqrt.s` (R332). -/
def execFsqrtS (rd rs1 : FReg) (rm : BitVec 3) (s : State) : Host.Outcome State Fault Refusal :=
  roundedNext (.fsqrtS rd rs1 rm) rm (fun mode => s.finishF rd (fsqrt (s.getF rs1) mode)) s

/-- `fsub.s` (R333). -/
def execFsubS (rd rs1 rs2 : FReg) (rm : BitVec 3) (s : State) : Host.Outcome State Fault Refusal :=
  roundedNext (.fsubS rd rs1 rs2 rm) rm (fun mode => s.finishF rd (fsub (s.getF rs1) (s.getF rs2) mode)) s

end Sys2Proof.Machine
end

