-- ==== Sys2Proof/Machine/FloatMove.lean ====
section
/-! DEFINITION. Floating-point classify, convert, compare, move and sign-inject (46_float_move_convert_compare.md R340 to R354); `flw` and `fsw` are in LoadStore. -/

namespace Sys2Proof.Machine

open Sys2Proof

/-- `fclass.s` (R341): no flag, also for a signaling NaN. -/
def execFclassS (rd : XReg) (rs1 : FReg) (s : State) : Host.Outcome State Fault Refusal :=
  .next (s.setX rd (classify (s.getF rs1))).advance

/-- `fcvt.s.w` (R342). -/
def execFcvtSW (rd : FReg) (rs1 : XReg) (rm : BitVec 3) (s : State) : Host.Outcome State Fault Refusal :=
  roundedNext (.fcvtSW rd rs1 rm) rm (fun mode => s.finishF rd (fcvtSWOf (s.getX rs1) mode)) s

/-- `fcvt.s.wu` (R343). -/
def execFcvtSWU (rd : FReg) (rs1 : XReg) (rm : BitVec 3) (s : State) : Host.Outcome State Fault Refusal :=
  roundedNext (.fcvtSWU rd rs1 rm) rm (fun mode => s.finishF rd (fcvtSWuOf (s.getX rs1) mode)) s

/-- `fcvt.w.s` (R344). -/
def execFcvtWS (rd : XReg) (rs1 : FReg) (rm : BitVec 3) (s : State) : Host.Outcome State Fault Refusal :=
  roundedNext (.fcvtWS rd rs1 rm) rm (fun mode => s.finishX rd (fcvtWSOf (s.getF rs1) mode)) s

/-- `fcvt.wu.s` (R345). -/
def execFcvtWUS (rd : XReg) (rs1 : FReg) (rm : BitVec 3) (s : State) : Host.Outcome State Fault Refusal :=
  roundedNext (.fcvtWUS rd rs1 rm) rm (fun mode => s.finishX rd (fcvtWuSOf (s.getF rs1) mode)) s

/-- The result of a comparison as a register value (00_scope.md R10). -/
def boolResult (result : Bool × FpFlags) : Word × FpFlags := (boolWord result.1, result.2)

/-- `feq.s` (R346). -/
def execFeqS (rd : XReg) (rs1 rs2 : FReg) (s : State) : Host.Outcome State Fault Refusal :=
  .next (s.finishX rd (boolResult (feq (s.getF rs1) (s.getF rs2))))

/-- `fle.s` (R347). -/
def execFleS (rd : XReg) (rs1 rs2 : FReg) (s : State) : Host.Outcome State Fault Refusal :=
  .next (s.finishX rd (boolResult (fle (s.getF rs1) (s.getF rs2))))

/-- `flt.s` (R348). -/
def execFltS (rd : XReg) (rs1 rs2 : FReg) (s : State) : Host.Outcome State Fault Refusal :=
  .next (s.finishX rd (boolResult (flt (s.getF rs1) (s.getF rs2))))

/-- `fmv.w.x` (R350): a bit copy. -/
def execFmvWX (rd : FReg) (rs1 : XReg) (s : State) : Host.Outcome State Fault Refusal :=
  .next (s.setF rd (s.getX rs1)).advance

/-- `fmv.x.w` (R351): a bit copy. -/
def execFmvXW (rd : XReg) (rs1 : FReg) (s : State) : Host.Outcome State Fault Refusal :=
  .next (s.setX rd (s.getF rs1)).advance

/-- `fsgnj.s` (R352): `f[rs1]` with the sign of `f[rs2]`. -/
def execFsgnjS (rd rs1 rs2 : FReg) (s : State) : Host.Outcome State Fault Refusal :=
  .next (s.setF rd (withSign (fpSign (s.getF rs2)) (s.getF rs1))).advance

/-- `fsgnjn.s` (R353): `f[rs1]` with the opposite of the sign of `f[rs2]`. -/
def execFsgnjnS (rd rs1 rs2 : FReg) (s : State) : Host.Outcome State Fault Refusal :=
  .next (s.setF rd (withSign (!fpSign (s.getF rs2)) (s.getF rs1))).advance

/-- `fsgnjx.s` (R354): `f[rs1]` with the XOR of the two signs. -/
def execFsgnjxS (rd rs1 rs2 : FReg) (s : State) : Host.Outcome State Fault Refusal :=
  .next (s.setF rd (withSign (fpSign (s.getF rs1) != fpSign (s.getF rs2)) (s.getF rs1))).advance

end Sys2Proof.Machine
end

