-- ==== Sys2Proof/Machine/Integer.lean ====
section
/-! DEFINITION. The 21 integer computational instructions (40_integer_computational.md R200 to R221). Each reads its sources, writes one `x` register and advances `pc`; none sets a flag or raises (R200). -/

namespace Sys2Proof.Machine

open Sys2Proof

/-- `x[rd] <- v; pc <- pc + 4`, how every instruction of this file ends (R200). -/
def writeXNext (rd : XReg) (v : Word) (s : State) : Host.Outcome State Fault Refusal := .next (s.setX rd v).advance

/-- `add` (R201): modulo 2^32. -/
def execAdd (rd rs1 rs2 : XReg) (s : State) : Host.Outcome State Fault Refusal :=
  writeXNext rd (s.getX rs1 + s.getX rs2) s

/-- `addi` (R202): modulo 2^32. -/
def execAddi (rd rs1 : XReg) (imm : BitVec 12) (s : State) : Host.Outcome State Fault Refusal :=
  writeXNext rd (s.getX rs1 + sext12 imm) s

/-- `and` (R203). -/
def execAnd (rd rs1 rs2 : XReg) (s : State) : Host.Outcome State Fault Refusal :=
  writeXNext rd (s.getX rs1 &&& s.getX rs2) s

/-- `andi` (R204). -/
def execAndi (rd rs1 : XReg) (imm : BitVec 12) (s : State) : Host.Outcome State Fault Refusal :=
  writeXNext rd (s.getX rs1 &&& sext12 imm) s

/-- `auipc` (R205): the `pc` of the instruction itself, modulo 2^32. -/
def execAuipc (rd : XReg) (imm : BitVec 20) (s : State) : Host.Outcome State Fault Refusal :=
  writeXNext rd (s.pc + upperImm imm) s

/-- `lui` (R206). -/
def execLui (rd : XReg) (imm : BitVec 20) (s : State) : Host.Outcome State Fault Refusal :=
  writeXNext rd (upperImm imm) s

/-- `or` (R207). -/
def execOr (rd rs1 rs2 : XReg) (s : State) : Host.Outcome State Fault Refusal :=
  writeXNext rd (s.getX rs1 ||| s.getX rs2) s

/-- `ori` (R208). -/
def execOri (rd rs1 : XReg) (imm : BitVec 12) (s : State) : Host.Outcome State Fault Refusal :=
  writeXNext rd (s.getX rs1 ||| sext12 imm) s

/-- `sll` (R209): by `x[rs2][4:0]`. -/
def execSll (rd rs1 rs2 : XReg) (s : State) : Host.Outcome State Fault Refusal :=
  writeXNext rd (s.getX rs1 <<< shiftAmount (s.getX rs2)) s

/-- `slli` (R210). -/
def execSlli (rd rs1 : XReg) (shamt : BitVec 5) (s : State) : Host.Outcome State Fault Refusal :=
  writeXNext rd (s.getX rs1 <<< shamt.toNat) s

/-- `slt` (R211): signed. -/
def execSlt (rd rs1 rs2 : XReg) (s : State) : Host.Outcome State Fault Refusal :=
  writeXNext rd (boolWord ((s.getX rs1).slt (s.getX rs2))) s

/-- `slti` (R212): signed. -/
def execSlti (rd rs1 : XReg) (imm : BitVec 12) (s : State) : Host.Outcome State Fault Refusal :=
  writeXNext rd (boolWord ((s.getX rs1).slt (sext12 imm))) s

/-- `sltiu` (R213): unsigned, after sign extension. -/
def execSltiu (rd rs1 : XReg) (imm : BitVec 12) (s : State) : Host.Outcome State Fault Refusal :=
  writeXNext rd (boolWord ((s.getX rs1).ult (sext12 imm))) s

/-- `sltu` (R214): unsigned. -/
def execSltu (rd rs1 rs2 : XReg) (s : State) : Host.Outcome State Fault Refusal :=
  writeXNext rd (boolWord ((s.getX rs1).ult (s.getX rs2))) s

/-- `sra` (R215): by `x[rs2][4:0]`, copies of the sign come in. -/
def execSra (rd rs1 rs2 : XReg) (s : State) : Host.Outcome State Fault Refusal :=
  writeXNext rd ((s.getX rs1).sshiftRight (shiftAmount (s.getX rs2))) s

/-- `srai` (R216): copies of the sign come in. -/
def execSrai (rd rs1 : XReg) (shamt : BitVec 5) (s : State) : Host.Outcome State Fault Refusal :=
  writeXNext rd ((s.getX rs1).sshiftRight shamt.toNat) s

/-- `srl` (R217): by `x[rs2][4:0]`. -/
def execSrl (rd rs1 rs2 : XReg) (s : State) : Host.Outcome State Fault Refusal :=
  writeXNext rd (s.getX rs1 >>> shiftAmount (s.getX rs2)) s

/-- `srli` (R218). -/
def execSrli (rd rs1 : XReg) (shamt : BitVec 5) (s : State) : Host.Outcome State Fault Refusal :=
  writeXNext rd (s.getX rs1 >>> shamt.toNat) s

/-- `sub` (R219): modulo 2^32. -/
def execSub (rd rs1 rs2 : XReg) (s : State) : Host.Outcome State Fault Refusal :=
  writeXNext rd (s.getX rs1 - s.getX rs2) s

/-- `xor` (R220). -/
def execXor (rd rs1 rs2 : XReg) (s : State) : Host.Outcome State Fault Refusal :=
  writeXNext rd (s.getX rs1 ^^^ s.getX rs2) s

/-- `xori` (R221). -/
def execXori (rd rs1 : XReg) (imm : BitVec 12) (s : State) : Host.Outcome State Fault Refusal :=
  writeXNext rd (s.getX rs1 ^^^ sext12 imm) s

end Sys2Proof.Machine
end

