-- ==== Sys2Proof/Machine/LoadStore.lean ====
section
/-! DEFINITION. The integer and floating-point loads and stores (42_load_store.md R250 to R259, 46_float_move_convert_compare.md R349, R355). The checks, their order and the bytes are those of `loadThen` and `storeNext`. -/

namespace Sys2Proof.Machine

open Sys2Proof

/-- A load into an `x` register (42_load_store.md R250): `ext` says how the value fills the register. With `rd = x0` the
access and its checks are made and the value is discarded (30_encoding.md R142). -/
def loadXNext (rd rs1 : XReg) (offset : BitVec 12) (w : Width) (ext : Word → Word) (s : State) :
    Host.Outcome State Fault Refusal :=
  loadThen (s.effectiveAddress rs1 offset) w s (fun v => (s.setX rd (ext v)).advance)

/-- `lb` (R251): one byte, sign-extended. -/
def execLb (rd rs1 : XReg) (offset : BitVec 12) (s : State) : Host.Outcome State Fault Refusal :=
  loadXNext rd rs1 offset .byte (fun v => (v.extractLsb' 0 8).signExtend 32) s

/-- `lbu` (R252): one byte, zero-extended. -/
def execLbu (rd rs1 : XReg) (offset : BitVec 12) (s : State) : Host.Outcome State Fault Refusal :=
  loadXNext rd rs1 offset .byte id s

/-- `lh` (R253): two bytes, sign-extended. -/
def execLh (rd rs1 : XReg) (offset : BitVec 12) (s : State) : Host.Outcome State Fault Refusal :=
  loadXNext rd rs1 offset .half (fun v => (v.extractLsb' 0 16).signExtend 32) s

/-- `lhu` (R254): two bytes, zero-extended. -/
def execLhu (rd rs1 : XReg) (offset : BitVec 12) (s : State) : Host.Outcome State Fault Refusal :=
  loadXNext rd rs1 offset .half id s

/-- `lw` (R255): four bytes. -/
def execLw (rd rs1 : XReg) (offset : BitVec 12) (s : State) : Host.Outcome State Fault Refusal :=
  loadXNext rd rs1 offset .word id s

/-- `sb` (R256): the low one byte of `x[rs2]`. -/
def execSb (rs2 rs1 : XReg) (offset : BitVec 12) (s : State) : Host.Outcome State Fault Refusal :=
  storeNext (s.effectiveAddress rs1 offset) .byte (s.getX rs2) s

/-- `sh` (R257): the low two bytes of `x[rs2]`. -/
def execSh (rs2 rs1 : XReg) (offset : BitVec 12) (s : State) : Host.Outcome State Fault Refusal :=
  storeNext (s.effectiveAddress rs1 offset) .half (s.getX rs2) s

/-- `sw` (R258): the low four bytes of `x[rs2]`. -/
def execSw (rs2 rs1 : XReg) (offset : BitVec 12) (s : State) : Host.Outcome State Fault Refusal :=
  storeNext (s.effectiveAddress rs1 offset) .word (s.getX rs2) s

/-- `flw` (R349): four bytes into `f[rd]`, unchanged. -/
def execFlw (rd : FReg) (rs1 : XReg) (offset : BitVec 12) (s : State) : Host.Outcome State Fault Refusal :=
  loadThen (s.effectiveAddress rs1 offset) .word s (fun v => (s.setF rd v).advance)

/-- `fsw` (R355): the four bytes of `f[rs2]`, unchanged. -/
def execFsw (rs2 : FReg) (rs1 : XReg) (offset : BitVec 12) (s : State) : Host.Outcome State Fault Refusal :=
  storeNext (s.effectiveAddress rs1 offset) .word (s.getF rs2) s

end Sys2Proof.Machine
end

