-- ==== Sys2Proof/Machine/MulDiv.lean ====
section
/-! DEFINITION. The 8 multiply and divide instructions (43_multiply_divide.md R270 to R279). No division raises or sets a flag (R271). -/

namespace Sys2Proof.Machine

open Sys2Proof

/-- Bits 63:32 of an exact product, `floor(p / 2^32) mod 2^32` (R275). -/
def highHalf (p : Int) : Word := BitVec.ofInt 32 (p / 2 ^ 32)

/-- `div` with the corners of `DIV_CORNER` (R271): by zero, all ones; -2^31 by -1, -2^31. Else `div_s`, the quotient rounded
toward zero (R270). -/
def divSigned (p q : Word) : Word :=
  if q = 0#32 then 0xFFFFFFFF#32
  else if p = 0x80000000#32 ∧ q = 0xFFFFFFFF#32 then 0x80000000#32
  else BitVec.ofInt 32 (p.toInt.tdiv q.toInt)

/-- `divu` (R271): by zero, all ones. Else `div_u` (R270). -/
def divUnsigned (p q : Word) : Word := if q = 0#32 then 0xFFFFFFFF#32 else BitVec.ofNat 32 (p.toNat / q.toNat)

/-- `rem` with the corners of `DIV_CORNER` (R271): by zero, the dividend; -2^31 by -1, zero. Else `rem_s`, the remainder
of the quotient rounded toward zero (R270). -/
def remSigned (p q : Word) : Word :=
  if q = 0#32 then p
  else if p = 0x80000000#32 ∧ q = 0xFFFFFFFF#32 then 0#32
  else BitVec.ofInt 32 (p.toInt.tmod q.toInt)

/-- `remu` (R271): by zero, the dividend. Else `rem_u` (R270). -/
def remUnsigned (p q : Word) : Word := if q = 0#32 then p else BitVec.ofNat 32 (p.toNat % q.toNat)

/-- `div` (R272): signed quotient. -/
def execDiv (rd rs1 rs2 : XReg) (s : State) : Host.Outcome State Fault Refusal :=
  writeXNext rd (divSigned (s.getX rs1) (s.getX rs2)) s

/-- `divu` (R273): unsigned quotient. -/
def execDivu (rd rs1 rs2 : XReg) (s : State) : Host.Outcome State Fault Refusal :=
  writeXNext rd (divUnsigned (s.getX rs1) (s.getX rs2)) s

/-- `mul` (R274): the low 32 bits of the product. -/
def execMul (rd rs1 rs2 : XReg) (s : State) : Host.Outcome State Fault Refusal :=
  writeXNext rd (BitVec.ofNat 32 ((s.getX rs1).toNat * (s.getX rs2).toNat)) s

/-- `mulh` (R275): the high half, signed by signed. -/
def execMulh (rd rs1 rs2 : XReg) (s : State) : Host.Outcome State Fault Refusal :=
  writeXNext rd (highHalf ((s.getX rs1).toInt * (s.getX rs2).toInt)) s

/-- `mulhsu` (R276): the high half, signed by unsigned. -/
def execMulhsu (rd rs1 rs2 : XReg) (s : State) : Host.Outcome State Fault Refusal :=
  writeXNext rd (highHalf ((s.getX rs1).toInt * ((s.getX rs2).toNat : Int))) s

/-- `mulhu` (R277): the high half, unsigned by unsigned. -/
def execMulhu (rd rs1 rs2 : XReg) (s : State) : Host.Outcome State Fault Refusal :=
  writeXNext rd (highHalf (((s.getX rs1).toNat : Int) * ((s.getX rs2).toNat : Int))) s

/-- `rem` (R278): signed remainder. -/
def execRem (rd rs1 rs2 : XReg) (s : State) : Host.Outcome State Fault Refusal :=
  writeXNext rd (remSigned (s.getX rs1) (s.getX rs2)) s

/-- `remu` (R279): unsigned remainder. -/
def execRemu (rd rs1 rs2 : XReg) (s : State) : Host.Outcome State Fault Refusal :=
  writeXNext rd (remUnsigned (s.getX rs1) (s.getX rs2)) s

end Sys2Proof.Machine
end

