-- ==== Sys2Proof/Machine/System.lean ====
section
/-! DEFINITION. The CSR, environment and fence instructions (44_csr_system.md R290 to R300). -/

namespace Sys2Proof.Machine

open Sys2Proof

/-- The steps (a) to (f) of R290 for the instruction `i`: the address must exist in `CSR_MAP`; a write to a read-only
register is illegal; the old value goes to `x[rd]` (reading is free of side effects, so it is read even for `rd = x0`, as
R290 (d) allows, log 16) and the new one, made from the old, to the register if the instruction writes. -/
def csrNext (i : Instr) (rd : XReg) (csr : CsrAddr) (writes : Bool) (newValue : Word → Word) (s : State) :
    Host.Outcome State Fault Refusal :=
  match csrLookup csr with
  | none => raiseIllegal i s
  | some entry =>
    if writes && entry.readOnly then raiseIllegal i s
    else
      let t := s.csrRead entry.name
      let written := if writes then s.csrWrite entry.name (newValue t) else s
      .next (written.setX rd t).advance

/-- `csrrc` (R291): clear the bits of `x[rs1]`; no write when the field `rs1` is 0. -/
def execCsrrc (rd : XReg) (csr : CsrAddr) (rs1 : XReg) (s : State) : Host.Outcome State Fault Refusal :=
  csrNext (.csrrc rd csr rs1) rd csr (rs1 != 0#5) (fun t => t &&& ~~~(s.getX rs1)) s

/-- `csrrci` (R292): clear the bits of `zimm`; no write when `zimm` is 0. -/
def execCsrrci (rd : XReg) (csr : CsrAddr) (zimm : BitVec 5) (s : State) : Host.Outcome State Fault Refusal :=
  csrNext (.csrrci rd csr zimm) rd csr (zimm != 0#5) (fun t => t &&& ~~~(zextZimm zimm)) s

/-- `csrrs` (R293): set the bits of `x[rs1]`; no write when the field `rs1` is 0. -/
def execCsrrs (rd : XReg) (csr : CsrAddr) (rs1 : XReg) (s : State) : Host.Outcome State Fault Refusal :=
  csrNext (.csrrs rd csr rs1) rd csr (rs1 != 0#5) (fun t => t ||| s.getX rs1) s

/-- `csrrsi` (R294): set the bits of `zimm`; no write when `zimm` is 0. -/
def execCsrrsi (rd : XReg) (csr : CsrAddr) (zimm : BitVec 5) (s : State) : Host.Outcome State Fault Refusal :=
  csrNext (.csrrsi rd csr zimm) rd csr (zimm != 0#5) (fun t => t ||| zextZimm zimm) s

/-- `csrrw` (R295): write `x[rs1]`. -/
def execCsrrw (rd : XReg) (csr : CsrAddr) (rs1 : XReg) (s : State) : Host.Outcome State Fault Refusal :=
  csrNext (.csrrw rd csr rs1) rd csr true (fun _ => s.getX rs1) s

/-- `csrrwi` (R296): write `zimm`. -/
def execCsrrwi (rd : XReg) (csr : CsrAddr) (zimm : BitVec 5) (s : State) : Host.Outcome State Fault Refusal :=
  csrNext (.csrrwi rd csr zimm) rd csr true (fun _ => zextZimm zimm) s

/-- `ebreak` (R297): always `Breakpoint(pc)`. -/
def execEbreak (s : State) : Host.Outcome State Fault Refusal :=
  raiseNext .breakpoint s.pc s

/-- `ecall` (R298): always `EnvironmentCall`, with info 0; what the environment then does is outside the machine (log 10). -/
def execEcall (s : State) : Host.Outcome State Fault Refusal :=
  raiseNext .environmentCall 0#32 s

/-- `fence` (R299): with one hart and no device every order it asks for holds already, so only `pc` changes, whatever its
fields are (20_memory.md R86, 30_encoding.md R134). -/
def execFence (_fm _pred _succ : BitVec 4) (_rs1 _rd : XReg) (s : State) : Host.Outcome State Fault Refusal :=
  .next s.advance

end Sys2Proof.Machine
end

