-- ==== Sys2Proof/Machine/Cycle.lean ====
section
/-! DEFINITION. One cycle of the machine: fetch, decode, run (00_scope.md R17), with the exceptions of fetch and decode in the order of 60_exceptions.md R402. -/

namespace Sys2Proof.Machine

open Sys2Proof

/-- Decode the fetched bytes and run the instruction; bytes that are no instruction raise `IllegalInstruction(w)`
(30_encoding.md R135, R140). -/
def runBytes (b0 b1 b2 b3 : Byte) (s : State) : Host.Outcome State Fault Refusal :=
  match decode [b0, b1, b2, b3] with
  | .ok i => exec i s
  | .error _ => raiseNext .illegalInstruction (wordOfBytes b0 b1 b2 b3) s

/-- What a running hart does in one step (R17): an unmapped fetch raises `InstructionAccessFault(pc)` (20_memory.md R76);
a fetch of a byte stored since reset has no meaning (R90). -/
def runCycle (s : State) : Host.Outcome State Fault Refusal :=
  match s.fetch with
  | .accessFault => raiseNext .instructionAccessFault s.pc s
  | .storedByte a => .refused (.fetchOfStoredByte a)
  | .bytes b0 b1 b2 b3 => runBytes b0 b1 b2 b3 s

/-- One step: a run that has ended takes no further step (60_exceptions.md R404). -/
def cycle (s : State) : Host.Outcome State Fault Refusal :=
  match s.outcome with
  | .trapped record => .fault (.runEnded record)
  | .running => runCycle s

end Sys2Proof.Machine
end

