-- ==== Sys2Proof/Safety.lean ====
section
/-! DEFINITION. The terms that claims about the machine use: the invariant of the state, runs, which word a step fetches, frames (what a step leaves unchanged), and the spec's own words for rounding (45_float_arith.md R312) and comparison over exact numbers. Nothing here is part of the machine. -/

namespace Sys2Proof.Machine

open Sys2Proof

/-! ## The invariant -/

/-- What every step keeps: `pc` is a multiple of 4 (10_state.md R36), memory and the written-since-reset set are in their
canonical forms, and a byte that a store has written is mapped with W (20_memory.md R76, R90). -/
def State.Inv (s : State) : Prop :=
  s.pc.toNat % 4 = 0 ∧ s.mem.wf ∧ writtenWf s.written ∧
    ∀ a ∈ s.written, mapPermits s.params.memMap .store a = true

/-- No address is mapped with both W and X. -/
def WriteXorExecute (p : Params) : Prop :=
  ∀ a, mapPermits p.memMap .store a = true → mapPermits p.memMap .fetch a = false

/-! ## Runs -/

/-- What a bounded run gives (60_exceptions.md R407): the record of the trap that ended it with the final state, the
state after that many steps, or the refusal that left it without a meaning. -/
inductive RunResult where
  | ended (record : TrapRecord) (final : State)
  | running (state : State)
  | refused (reason : Refusal)
deriving DecidableEq, Repr

/-- At most `n` steps (R407). A run that has ended stays ended (R404). -/
def runFor : Nat → State → RunResult
  | 0, s =>
    match s.outcome with
    | .trapped record => .ended record s
    | .running => .running s
  | n + 1, s =>
    match step s with
    | .next t => runFor n t
    | .fault (.runEnded record) => .ended record s
    | .refused reason => .refused reason

/-- A safe run: it goes on or ends in a trap, and never comes to a fetch that the spec gives no meaning
(20_memory.md R90). -/
def NeverRefused (s : State) : Prop := ∀ n reason, runFor n s ≠ .refused reason

/-! ## Fetching -/

/-- The bytes of an `n`-byte access at `addr` are all mapped with the permission it needs (20_memory.md R76, R94). -/
def MapOk (s : State) (kind : Access) (addr : Word) (n : Nat) : Prop :=
  ∀ k < n, mapPermits s.params.memMap kind (byteAddress addr k) = true

/-- No alignment exception: the address is a multiple of the width, or the policy is `support` (20_memory.md R72,
R73). -/
def AlignmentOk (s : State) (addr : Word) (n : Nat) : Prop := s.params.misaligned = .support ∨ addr.toNat % n = 0

/-- The running hart fetches the word `w`: the four bytes at `pc` are mapped with X, no store has written one of them,
and byte `k` holds bits `8k+7 : 8k` of `w` (20_memory.md R71, R76, R90). -/
structure Fetches (s : State) (w : Word) : Prop where
  running : s.outcome = .running
  mapped : MapOk s .fetch s.pc 4
  unwritten : ∀ k < 4, byteAddress s.pc k ∉ s.written
  bytes : ∀ k < 4, s.mem.read (byteAddress s.pc k) = w.extractLsb' (8 * k) 8

/-! ## Traps -/

/-- The outcome is the taking of an exception: the next state differs from `s` in the run's outcome alone, which holds
the record (00_scope.md R16, 60_exceptions.md R404, R405). -/
def Raises (o : Host.Outcome State Fault Refusal) (s : State) (cause : Cause) (info : Word) : Prop :=
  o = .next { s with outcome := .trapped { cause := cause, pc := s.pc, info := info } }

/-- The third column of 60_exceptions.md R400: the instructions that raise the exception while they execute. The
exceptions of fetch and decode are raised by no instruction of their own. -/
def raisedBy : Cause → List String
  | .instructionAddressMisaligned => ["beq", "bne", "blt", "bge", "bltu", "bgeu", "jal", "jalr"]
  | .instructionAccessFault => []
  | .illegalInstruction =>
    ["fadd.s", "fsub.s", "fmul.s", "fdiv.s", "fsqrt.s", "fmadd.s", "fmsub.s", "fnmadd.s", "fnmsub.s", "fcvt.w.s",
      "fcvt.wu.s", "fcvt.s.w", "fcvt.s.wu", "csrrw", "csrrs", "csrrc", "csrrwi", "csrrsi", "csrrci"]
  | .breakpoint => ["ebreak"]
  | .loadAddressMisaligned => ["lh", "lhu", "lw", "flw"]
  | .loadAccessFault => ["lb", "lbu", "lh", "lhu", "lw", "flw"]
  | .storeAddressMisaligned => ["sh", "sw", "fsw"]
  | .storeAccessFault => ["sb", "sh", "sw", "fsw"]
  | .environmentCall => ["ecall"]

/-- The rows with an `rm` field (45_float_arith.md R311). -/
def roundingMnemonics : List String :=
  ["fadd.s", "fsub.s", "fmul.s", "fdiv.s", "fsqrt.s", "fmadd.s", "fmsub.s", "fnmadd.s", "fnmsub.s", "fcvt.w.s",
    "fcvt.wu.s", "fcvt.s.w", "fcvt.s.wu"]

/-- The CSR rows (44_csr_system.md R290). -/
def csrMnemonics : List String := ["csrrw", "csrrs", "csrrc", "csrrwi", "csrrsi", "csrrci"]

/-- The rows that accrue flags: those of 45_float_arith.md R314 that can set one. -/
def flagMnemonics : List String := roundingMnemonics ++ ["fmin.s", "fmax.s", "feq.s", "flt.s", "fle.s"]

/-- The control transfers (41_control_transfer.md R230). -/
def transferMnemonics : List String := ["beq", "bne", "blt", "bge", "bltu", "bgeu", "jal", "jalr"]

/-- `rm` is illegal in this state: 101 or 110, or 111 with 101, 110 or 111 in `frm` (45_float_arith.md R311). -/
def ModeReserved (s : State) (rm : BitVec 3) : Prop :=
  rm = 0b101#3 ∨ rm = 0b110#3 ∨ (rm = 0b111#3 ∧ (s.frm = 0b101#3 ∨ s.frm = 0b110#3 ∨ s.frm = 0b111#3))

/-- The code of a rounding mode (10_state.md R45). -/
def modeCode : RoundingMode → BitVec 3
  | .rne => 0b000#3
  | .rtz => 0b001#3
  | .rdn => 0b010#3
  | .rup => 0b011#3
  | .rmm => 0b100#3

/-- The instruction with this `rm` runs in this mode: the one whose code is `rm`, or `frm` when `rm` is 111
(45_float_arith.md R311). -/
def ModeSelected (s : State) (rm : BitVec 3) (mode : RoundingMode) : Prop :=
  modeCode mode = if rm = 0b111#3 then s.frm else rm

/-- The condition of the row fails for the word (30_encoding.md R135): (a) a reserved rounding mode in `inst[14:12]`, (b) a
CSR address in `inst[31:20]` that is not in the default `CSR_MAP` (10_state.md R41), of which no register is read-only. -/
def ConditionFails (s : State) (mnemonic : String) (w : Word) : Prop :=
  (mnemonic ∈ roundingMnemonics ∧ ModeReserved s (w.extractLsb' 12 3)) ∨
    (mnemonic ∈ csrMnemonics ∧ w.extractLsb' 20 12 ∉ [0x001#12, 0x002#12, 0x003#12])

/-! ## Frames -/

/-- Where an instruction's result goes (10_state.md R33, R51, R53). -/
inductive Destination where
  | xReg (rd : XReg)
  | fReg (rd : FReg)
  | memory
  | nothing
deriving DecidableEq, Repr

/-- The destination of an instruction (10_state.md R33, R51, R53). -/
def destinationOf : Instr → Destination
  | .add rd _ _ => .xReg rd
  | .addi rd _ _ => .xReg rd
  | .and rd _ _ => .xReg rd
  | .andi rd _ _ => .xReg rd
  | .auipc rd _ => .xReg rd
  | .lui rd _ => .xReg rd
  | .or rd _ _ => .xReg rd
  | .ori rd _ _ => .xReg rd
  | .sll rd _ _ => .xReg rd
  | .slli rd _ _ => .xReg rd
  | .slt rd _ _ => .xReg rd
  | .slti rd _ _ => .xReg rd
  | .sltiu rd _ _ => .xReg rd
  | .sltu rd _ _ => .xReg rd
  | .sra rd _ _ => .xReg rd
  | .srai rd _ _ => .xReg rd
  | .srl rd _ _ => .xReg rd
  | .srli rd _ _ => .xReg rd
  | .sub rd _ _ => .xReg rd
  | .xor rd _ _ => .xReg rd
  | .xori rd _ _ => .xReg rd
  | .beq _ _ _ => .nothing
  | .bge _ _ _ => .nothing
  | .bgeu _ _ _ => .nothing
  | .blt _ _ _ => .nothing
  | .bltu _ _ _ => .nothing
  | .bne _ _ _ => .nothing
  | .jal rd _ => .xReg rd
  | .jalr rd _ _ => .xReg rd
  | .lb rd _ _ => .xReg rd
  | .lbu rd _ _ => .xReg rd
  | .lh rd _ _ => .xReg rd
  | .lhu rd _ _ => .xReg rd
  | .lw rd _ _ => .xReg rd
  | .sb _ _ _ => .memory
  | .sh _ _ _ => .memory
  | .sw _ _ _ => .memory
  | .div rd _ _ => .xReg rd
  | .divu rd _ _ => .xReg rd
  | .mul rd _ _ => .xReg rd
  | .mulh rd _ _ => .xReg rd
  | .mulhsu rd _ _ => .xReg rd
  | .mulhu rd _ _ => .xReg rd
  | .rem rd _ _ => .xReg rd
  | .remu rd _ _ => .xReg rd
  | .csrrc rd _ _ => .xReg rd
  | .csrrci rd _ _ => .xReg rd
  | .csrrs rd _ _ => .xReg rd
  | .csrrsi rd _ _ => .xReg rd
  | .csrrw rd _ _ => .xReg rd
  | .csrrwi rd _ _ => .xReg rd
  | .ebreak => .nothing
  | .ecall => .nothing
  | .fence _ _ _ _ _ => .nothing
  | .faddS rd _ _ _ => .fReg rd
  | .fdivS rd _ _ _ => .fReg rd
  | .fmaddS rd _ _ _ _ => .fReg rd
  | .fmaxS rd _ _ => .fReg rd
  | .fminS rd _ _ => .fReg rd
  | .fmsubS rd _ _ _ _ => .fReg rd
  | .fmulS rd _ _ _ => .fReg rd
  | .fnmaddS rd _ _ _ _ => .fReg rd
  | .fnmsubS rd _ _ _ _ => .fReg rd
  | .fsqrtS rd _ _ => .fReg rd
  | .fsubS rd _ _ _ => .fReg rd
  | .fclassS rd _ => .xReg rd
  | .fcvtSW rd _ _ => .fReg rd
  | .fcvtSWU rd _ _ => .fReg rd
  | .fcvtWS rd _ _ => .xReg rd
  | .fcvtWUS rd _ _ => .xReg rd
  | .feqS rd _ _ => .xReg rd
  | .fleS rd _ _ => .xReg rd
  | .fltS rd _ _ => .xReg rd
  | .flw rd _ _ => .fReg rd
  | .fmvWX rd _ => .fReg rd
  | .fmvXW rd _ => .xReg rd
  | .fsgnjS rd _ _ => .fReg rd
  | .fsgnjnS rd _ _ => .fReg rd
  | .fsgnjxS rd _ _ => .fReg rd
  | .fsw _ _ _ => .memory

/-- No `x` register changes. -/
def SameX (s t : State) : Prop := ∀ i, t.getX i = s.getX i

/-- No `f` register changes. -/
def SameF (s t : State) : Prop := ∀ i, t.getF i = s.getF i

/-- No byte of memory changes, nor does the written-since-reset set. -/
def SameMem (s t : State) : Prop := (∀ a, t.mem.read a = s.mem.read a) ∧ ∀ a, a ∈ t.written ↔ a ∈ s.written

/-- The run's outcome and the parameters stay. -/
def SameRun (s t : State) : Prop := t.outcome = s.outcome ∧ t.params = s.params

/-- `x[rd]` becomes `v`, unless it is `x0`, which reads zero before and after (00_scope.md R11); every other `x` register
stays. -/
def XBecomes (s t : State) (rd : XReg) (v : Word) : Prop :=
  ∀ i, t.getX i = if i = 0#5 then 0#32 else if i = rd then v else s.getX i

/-- `f[rd]` becomes `v`; every other `f` register stays (00_scope.md R12). -/
def FBecomes (s t : State) (rd : FReg) (v : Word) : Prop := ∀ i, t.getF i = if i = rd then v else s.getF i

/-- The flags `fl` are ORed in, and `frm` stays (45_float_arith.md R315). -/
def FlagsAccrue (s t : State) (fl : FpFlags) : Prop := t.frm = s.frm ∧ t.fflags = s.fflags ||| fl

/-- The instruction changes `pc` alone. -/
structure WritesPc (s t : State) (target : Word) : Prop where
  x : SameX s t
  f : SameF s t
  fcsr : t.fcsr = s.fcsr
  mem : SameMem s t
  run : SameRun s t
  pc : t.pc = target

/-- The instruction writes `v` to `x[rd]` and `target` to `pc`, and nothing else. -/
structure WritesX (s t : State) (rd : XReg) (v target : Word) : Prop where
  x : XBecomes s t rd v
  f : SameF s t
  fcsr : t.fcsr = s.fcsr
  mem : SameMem s t
  run : SameRun s t
  pc : t.pc = target

/-- The instruction writes `v` to `f[rd]` and advances `pc`, and nothing else. -/
structure WritesF (s t : State) (rd : FReg) (v : Word) : Prop where
  x : SameX s t
  f : FBecomes s t rd v
  fcsr : t.fcsr = s.fcsr
  mem : SameMem s t
  run : SameRun s t
  pc : t.pc = s.pc + 4#32

/-- The instruction writes a result to `f[rd]`, accrues its flags and advances `pc`, and nothing else
(45_float_arith.md R315). -/
structure WritesFAndFlags (s t : State) (rd : FReg) (result : Word × FpFlags) : Prop where
  x : SameX s t
  f : FBecomes s t rd result.1
  flags : FlagsAccrue s t result.2
  mem : SameMem s t
  run : SameRun s t
  pc : t.pc = s.pc + 4#32

/-- The instruction writes a result to `x[rd]`, accrues its flags and advances `pc`, and nothing else
(45_float_arith.md R315, 46_float_move_convert_compare.md R340 (b)). -/
structure WritesXAndFlags (s t : State) (rd : XReg) (result : Word × FpFlags) : Prop where
  x : XBecomes s t rd result.1
  f : SameF s t
  flags : FlagsAccrue s t result.2
  mem : SameMem s t
  run : SameRun s t
  pc : t.pc = s.pc + 4#32

/-- The instruction stores the low `n` bytes of `v` at `addr`, the lowest first (20_memory.md R70, R94): byte `k` of the
access takes bits `8k+7 : 8k`, every other byte stays, the bytes join the written-since-reset set (R90), `pc` advances,
and nothing else changes. -/
structure StoresBytes (s t : State) (addr : Word) (n : Nat) (v : Word) : Prop where
  stored : ∀ k < n, t.mem.read (byteAddress addr k) = v.extractLsb' (8 * k) 8
  others : ∀ a, (∀ k < n, a ≠ byteAddress addr k) → t.mem.read a = s.mem.read a
  written : ∀ a, a ∈ t.written ↔ a ∈ s.written ∨ ∃ k < n, a = byteAddress addr k
  x : SameX s t
  f : SameF s t
  fcsr : t.fcsr = s.fcsr
  run : SameRun s t
  pc : t.pc = s.pc + 4#32

/-- The value of a CSR, zero-extended (10_state.md R42 to R44). -/
def csrValue (s : State) : CsrName → Word
  | .fflags => s.fflags.setWidth 32
  | .frm => s.frm.setWidth 32
  | .fcsr => s.fcsr.setWidth 32

/-- The bits of `v` that the register implements become its value, and the other bits of `fcsr` stay
(44_csr_system.md R290 (f), 10_state.md R42 to R44). -/
def CsrBecomes (s t : State) (name : CsrName) (v : Word) : Prop :=
  match name with
  | .fflags => t.fflags = v.extractLsb' 0 5 ∧ t.frm = s.frm
  | .frm => t.frm = v.extractLsb' 0 3 ∧ t.fflags = s.fflags
  | .fcsr => t.fcsr = v.extractLsb' 0 8

/-- A CSR instruction: `x[rd]` takes the old value of the register, the register takes the implemented bits of `v`, `pc`
advances, and nothing else changes (44_csr_system.md R290 (e), (f)). -/
structure CsrEffect (s t : State) (rd : XReg) (name : CsrName) (v : Word) : Prop where
  x : XBecomes s t rd (csrValue s name)
  csr : CsrBecomes s t name v
  f : SameF s t
  mem : SameMem s t
  run : SameRun s t
  pc : t.pc = s.pc + 4#32

/-- The addresses of the default `CSR_MAP` (10_state.md R41). -/
def csrPlaces : List (CsrAddr × CsrName) := [(0x001#12, .fflags), (0x002#12, .frm), (0x003#12, .fcsr)]

/-- A conditional branch (41_control_transfer.md R230, R231): not taken, to `pc + 4` whatever its offset; taken, to its
target if that is a multiple of 4, and otherwise the exception with the target as its info. -/
structure Branches (o : Host.Outcome State Fault Refusal) (s : State) (taken : Prop) (target : Word) : Prop where
  notTaken : ¬taken → ∃ t, o = .next t ∧ WritesPc s t (s.pc + 4#32)
  toTarget : taken → target.toNat % 4 = 0 → ∃ t, o = .next t ∧ WritesPc s t target
  misaligned : taken → target.toNat % 4 ≠ 0 → Raises o s .instructionAddressMisaligned target

/-! ## Exact numbers -/

/-- The pattern denotes a finite number (45_float_arith.md R310). -/
def isFinite (a : Word) : Bool := fpExponent a != 255

/-- `val(a)` of a finite pattern (45_float_arith.md R310): `(-1)^s * m * 2^-149` for `e = 0`, and
`(-1)^s * (2^23 + m) * 2^(e-150)` above. -/
def fpValue (a : Word) : ℚ :=
  (if fpSign a then -1 else 1) *
    (if fpExponent a = 0 then (fpFraction a : ℚ) / 2 ^ 149
      else ((2 ^ 23 + fpFraction a : ℕ) : ℚ) * 2 ^ fpExponent a / 2 ^ 150)

/-- `a < b` for two patterns that are no NaN, infinities beyond every finite number (46_float_move_convert_compare.md
R346 to R348). -/
def FpLess (a b : Word) : Prop :=
  (isFinite a ∧ isFinite b ∧ fpValue a < fpValue b) ∨ (a = infinityOf true ∧ b ≠ infinityOf true) ∨
    (b = infinityOf false ∧ a ≠ infinityOf false)

/-- `a == b` for two patterns that are no NaN: the two zeros are equal (46_float_move_convert_compare.md R346). -/
def FpEqual (a b : Word) : Prop :=
  (isFinite a ∧ isFinite b ∧ fpValue a = fpValue b) ∨ (a = b ∧ ¬isFinite a)

/-- The mode takes `n + 1` rather than `n = floor(t)` for `t = |v| / q` of a value `v` whose sign is minus if `neg`
(45_float_arith.md R312). -/
def RoundsUp (mode : RoundingMode) (neg : Prop) (t : ℝ) : Prop :=
  match mode with
  | .rne => 1 / 2 < Int.fract t ∨ (Int.fract t = 1 / 2 ∧ ⌊t⌋ % 2 = 1)
  | .rmm => 1 / 2 ≤ Int.fract t
  | .rtz => False
  | .rdn => neg ∧ Int.fract t ≠ 0
  | .rup => ¬neg ∧ Int.fract t ≠ 0

/-- The integer `r` of 45_float_arith.md R312. -/
def RoundedInteger (mode : RoundingMode) (neg : Prop) (t : ℝ) (r : ℤ) : Prop :=
  (RoundsUp mode neg t → r = ⌊t⌋ + 1) ∧ (¬RoundsUp mode neg t → r = ⌊t⌋)

/-- `v` is tiny: rounded with unbounded exponent range, spacing `2^(E-23)`, its magnitude is below `2^-126`
(45_float_arith.md R312). The rounding is that of a value whose sign is minus if `neg`. -/
def Tiny (mode : RoundingMode) (neg : Prop) (v : ℝ) (E : ℤ) : Prop :=
  ∃ r : ℤ, RoundedInteger mode neg (|v| / (2 : ℝ) ^ (E - 23)) r ∧ r * (2 : ℝ) ^ (E - 23) < (2 : ℝ) ^ (-126 : ℤ)

/-- `result = round(v, mode)`, the rounding function of 45_float_arith.md R312 over an exact real `v`:
`E = floor(log2 |v|)`, the spacing `q`, the integer `r`; overflow when `r * q >= 2^128`; otherwise the number of `v`'s
sign and magnitude `r * q`, NX when that is not `|v|`, and UF when it is inexact and `v` is tiny. The rule lets "rounding
`|v|`" be read with the sign of `v` or without it, which differ in the directed modes just below `2^-126` (log 14): UF is
set where `v` is tiny in both readings, and only where it is in one. -/
def Rounds (mode : RoundingMode) (v : ℝ) (result : Word × FpFlags) : Prop :=
  ∃ E r : ℤ, (2 : ℝ) ^ E ≤ |v| ∧ |v| < (2 : ℝ) ^ (E + 1) ∧
    RoundedInteger mode (v < 0) (|v| / (2 : ℝ) ^ (max E (-126) - 23)) r ∧
    if (2 : ℝ) ^ (128 : ℤ) ≤ r * (2 : ℝ) ^ (max E (-126) - 23) then
      result.2 = flagOF ||| flagNX ∧
        (mode = .rne ∨ mode = .rmm ∨ (mode = .rdn ∧ v < 0) ∨ (mode = .rup ∧ 0 < v) →
          (v < 0 → result.1 = 0xFF800000#32) ∧ (0 < v → result.1 = 0x7F800000#32)) ∧
        (mode = .rtz ∨ (mode = .rdn ∧ 0 < v) ∨ (mode = .rup ∧ v < 0) →
          (v < 0 → result.1 = 0xFF7FFFFF#32) ∧ (0 < v → result.1 = 0x7F7FFFFF#32))
    else
      isFinite result.1 ∧ (fpSign result.1 ↔ v < 0) ∧
        |((fpValue result.1 : ℚ) : ℝ)| = r * (2 : ℝ) ^ (max E (-126) - 23) ∧
        (result.2 = noFlags ∨ result.2 = flagNX ∨ result.2 = flagNX ||| flagUF) ∧
        (result.2 = noFlags ↔ r * (2 : ℝ) ^ (max E (-126) - 23) = |v|) ∧
        (r * (2 : ℝ) ^ (max E (-126) - 23) ≠ |v| → Tiny mode (v < 0) v E → Tiny mode False v E →
          result.2 = flagNX ||| flagUF) ∧
        (result.2 = flagNX ||| flagUF → Tiny mode (v < 0) v E ∨ Tiny mode False v E)

/-- `n = rint(v, mode)` (46_float_move_convert_compare.md R344): nearest with ties to even or away from zero, toward
zero, floor, ceiling. -/
def IsRint (mode : RoundingMode) (v : ℚ) (n : ℤ) : Prop :=
  match mode with
  | .rne => |v - n| ≤ 1 / 2 ∧ (|v - n| = 1 / 2 → n % 2 = 0)
  | .rmm => |v - n| ≤ 1 / 2 ∧ (|v - n| = 1 / 2 → |v| < |(n : ℚ)|)
  | .rtz => (0 ≤ v → n = ⌊v⌋) ∧ (v < 0 → n = ⌈v⌉)
  | .rdn => n = ⌊v⌋
  | .rup => n = ⌈v⌉

end Sys2Proof.Machine
end

