-- ==== Sys2Proof/Certificates/Slice0/Obligations.lean ====
section
/-! DEFINITION. The statements for the provers. Each docstring cites the rules of spec/ that the statement formalises or rests on. -/

open Sys2Proof Sys2Proof.Machine

/-! ## Encoding -/

/-- Decoding the bytes of a well-formed instruction, whatever follows them, gives the instruction back
(30_encoding.md R110 to R128, R137). -/
def Obligations.DecodeOfEncodeGivesBack : Prop :=
  ∀ (i : Instr) (rest : List Byte), i.wellFormed = true → decode (encodeBytes i ++ rest) = .ok i

/-- A word that decodes is the word of the instruction it decodes to, which is well formed: the decoder ignores no bit
(30_encoding.md R135, R137). -/
def Obligations.EncodeOfDecodeGivesBack : Prop :=
  ∀ (w : Word) (i : Instr), decodeWord w = .ok i → i.wellFormed = true ∧ encode i = w

/-- A word decodes exactly when it selects a row of the opcode table, `w & mask == match`, and then to an instruction of
that row; no word selects two rows (30_encoding.md R135, R137). -/
def Obligations.DecodeFollowsOpcodeTable : Prop :=
  ∀ w : Word,
    (∀ i, decodeWord w = .ok i → ∃ row ∈ opcodeTable, w &&& row.mask = row.pattern ∧ row.mnemonic = i.mnemonic) ∧
      (∀ row ∈ opcodeTable, w &&& row.mask = row.pattern → ∃ i, decodeWord w = .ok i ∧ i.mnemonic = row.mnemonic) ∧
      ∀ row ∈ opcodeTable, ∀ row' ∈ opcodeTable,
        w &&& row.mask = row.pattern → w &&& row'.mask = row'.pattern → row = row'

/-- Words that the spec's examples spell out decode to the instruction they stand for, one of each format and family. -/
def Obligations.WordsOfTheSpecDecode : Prop :=
  decodeWord 0x002081B3#32 = .ok (.add 3 1 2) ∧ decodeWord 0x12345297#32 = .ok (.auipc 5 0x12345#20) ∧
    decodeWord 0x00208463#32 = .ok (.beq 1 2 8#13) ∧ decodeWord 0x010000EF#32 = .ok (.jal 1 16#21) ∧
    decodeWord 0xFFD302E7#32 = .ok (.jalr 5 6 0xFFD#12) ∧ decodeWord 0xFFF30283#32 = .ok (.lb 5 6 0xFFF#12) ∧
    decodeWord 0xFE530FA3#32 = .ok (.sb 5 6 0xFFF#12) ∧ decodeWord 0x0220A1B3#32 = .ok (.mulhsu 3 1 2) ∧
    decodeWord 0x001332F3#32 = .ok (.csrrc 5 0x001#12 6) ∧ decodeWord 0x0230000F#32 = .ok (.fence 0 2 3 0 0) ∧
    decodeWord 0x00100073#32 = .ok .ebreak ∧ decodeWord 0x1820F24F#32 = .ok (.fnmaddS 4 1 2 3 0b111#3) ∧
    decodeWord 0xC00092D3#32 = .ok (.fcvtWS 5 1 0b001#3) ∧ decodeWord 0x00112627#32 = .ok (.fsw 1 2 12#12)

/-- Executing a fetched word that selects no row of the table, or selects a row and fails its condition, raises
`IllegalInstruction` with the word and changes no state (30_encoding.md R140, R135). -/
def Obligations.IllegalWordsRaise : Prop :=
  ∀ (s : State) (w : Word), Fetches s w →
    ((∀ row ∈ opcodeTable, w &&& row.mask ≠ row.pattern) → Raises (step s) s .illegalInstruction w) ∧
      ∀ row ∈ opcodeTable, w &&& row.mask = row.pattern → ConditionFails s row.mnemonic w →
        Raises (step s) s .illegalInstruction w

/-- A shift-immediate word with `inst[25] = 1` is illegal and raises `IllegalInstruction` (30_encoding.md R141). -/
def Obligations.ShiftImmediateBit25Raises : Prop :=
  ∀ (s : State) (w : Word), Fetches s w → w.extractLsb' 0 7 = 0b0010011#7 →
    (w.extractLsb' 12 3 = 0b001#3 ∨ w.extractLsb' 12 3 = 0b101#3) → w.getLsbD 25 = true →
    Raises (step s) s .illegalInstruction w

/-! ## The step -/

/-- A step that fetches a word which decodes to an instruction is the execution of that instruction: the step adds
nothing around `exec` (00_scope.md R17). -/
def Obligations.StepRunsDecodedInstruction : Prop :=
  ∀ (s : State) (w : Word) (i : Instr), Fetches s w → decodeWord w = .ok i → step s = exec i s

/-- An instruction placed at `pc` from outside is what the next step executes, whatever a store had written there
before (70_reset_and_hazards.md R452; the placing is the model's, log 11). -/
def Obligations.PlacedInstructionRuns : Prop :=
  ∀ (s : State) (i : Instr), s.outcome = .running → MapOk s .fetch s.pc 4 → i.wellFormed = true →
    step (s.withFetchWord 32 (encode i).toNat) = exec i (s.withFetchWord 32 (encode i).toNat)

/-- A fetch of which a byte is not mapped with X raises `InstructionAccessFault(pc)` (20_memory.md R76). -/
def Obligations.FetchOutsideMapRaises : Prop :=
  ∀ s : State, s.outcome = .running → ¬MapOk s .fetch s.pc 4 → Raises (step s) s .instructionAccessFault s.pc

/-- A fetch that reads a byte which a store has written since reset has no meaning: the step is refused and names such a
byte (20_memory.md R90; what counts as stored, log 12). -/
def Obligations.FetchOfStoredByteIsRefused : Prop :=
  ∀ s : State, s.outcome = .running → MapOk s .fetch s.pc 4 → (∃ k < 4, byteAddress s.pc k ∈ s.written) →
    ∃ k < 4, byteAddress s.pc k ∈ s.written ∧ step s = .refused (.fetchOfStoredByte (byteAddress s.pc k))

/-- The hart executes a step whenever its outcome is running (60_exceptions.md R419), unless the fetch reads a stored byte
(20_memory.md R90); once trapped it takes no further step (60_exceptions.md R404), which the model says as the fault
`runEnded` (log 1). -/
def Obligations.StepTakenWhileRunning : Prop :=
  ∀ s : State,
    (s.outcome = .running → (∃ t, step s = .next t) ∨
      ∃ a ∈ s.written, (∃ k < 4, a = byteAddress s.pc k) ∧ step s = .refused (.fetchOfStoredByte a)) ∧
      ∀ record, s.outcome = .trapped record → step s = .fault (.runEnded record)

/-- A run that has ended stays ended with the same record and the same state, however many further steps are asked for
(60_exceptions.md R404, R407; that a step of an ended run is the fault `runEnded` is the model's form of it, log 1). -/
def Obligations.EndedRunIsFinal : Prop :=
  ∀ (n m : Nat) (s f : State) (record : TrapRecord), runFor n s = .ended record f → n ≤ m →
    runFor m s = .ended record f ∧ f.outcome = .trapped record

/-- Traps are precise: a step after which the run has trapped changed nothing but the outcome, and the record holds the
address of the instruction that raised (00_scope.md R16, 60_exceptions.md R405). -/
def Obligations.TrapsArePrecise : Prop :=
  ∀ (s t : State) (record : TrapRecord), step s = .next t → t.outcome = .trapped record →
    t = { s with outcome := .trapped record } ∧ record.pc = s.pc

/-- `exec` answers a next state for every instruction and every state: no instruction stops the machine, and one that raises
ends in the state that holds the record (60_exceptions.md R404; the trap as a next state is the model's form, log 1). -/
def Obligations.ExecAnswersNextState : Prop :=
  ∀ (i : Instr) (s : State), ∃ t, exec i s = .next t

/-- An instruction raises only the exceptions that the table gives it, and none that it does not
(60_exceptions.md R400). -/
def Obligations.TrapCauseBelongsToInstruction : Prop :=
  ∀ (i : Instr) (s t : State) (record : TrapRecord), s.outcome = .running → exec i s = .next t →
    t.outcome = .trapped record → i.mnemonic ∈ raisedBy record.cause

/-- An instruction that does not raise sets `pc` to `pc + 4`, modulo 2^32, unless it is a branch, `jal` or `jalr`; one that
raises leaves `pc` at its own address (10_state.md R35). -/
def Obligations.ProgramCounterAdvances : Prop :=
  ∀ (i : Instr) (s t : State), s.outcome = .running → exec i s = .next t →
    (t.outcome = .running → i.mnemonic ∉ transferMnemonics → t.pc.toNat = (s.pc.toNat + 4) % 2 ^ 32) ∧
      ∀ record, t.outcome = .trapped record → t.pc = s.pc

/-- The invariant is kept by every step from every state: `pc` stays a multiple of 4 (10_state.md R36), memory and the
written-since-reset set keep their canonical forms, and written bytes stay mapped with W. -/
def Obligations.StepKeepsInvariant : Prop :=
  ∀ s t : State, s.Inv → step s = .next t → t.Inv

/-- The state after reset meets the invariant. -/
def Obligations.ResetMeetsInvariant : Prop := State.reset.Inv

/-- After reset the run is running, nothing has been written since reset, `x0` and `fcsr[31:8]` read zero, `pc` is
`RESET_PC`, a multiple of 4, and its four bytes are mapped with X (70_reset_and_hazards.md R450; that the address is
that of log 2 and the map that of log 7 is the model's choice). -/
def Obligations.ResetStateIsAsSpecified : Prop :=
  State.reset.outcome = .running ∧ State.reset.written = [] ∧ State.reset.getX 0#5 = 0#32 ∧
    (State.reset.csrRead .fcsr).extractLsb' 8 24 = 0#24 ∧ State.reset.pc = Config.resetPc ∧
    Config.resetPc.toNat % 4 = 0 ∧ MapOk State.reset .fetch Config.resetPc 4

/-- An instruction changes no `x` register but its destination, no `f` register but its destination, no byte of memory
and none of the written-since-reset set unless it is a store, and no parameter (10_state.md R33, R51, R53). -/
def Obligations.EffectsStayAtDestination : Prop :=
  ∀ (i : Instr) (s t : State), exec i s = .next t →
    (∀ r, destinationOf i ≠ .xReg r → t.getX r = s.getX r) ∧
      (∀ r, destinationOf i ≠ .fReg r → t.getF r = s.getF r) ∧
      (destinationOf i ≠ .memory → SameMem s t) ∧ t.params = s.params

/-- Flags are sticky: only a CSR instruction can clear one; the instructions that accrue flags leave `frm`, and no other
instruction changes `fcsr` (10_state.md R42, 45_float_arith.md R315). -/
def Obligations.OnlyCsrWritesClearFlags : Prop :=
  ∀ (i : Instr) (s t : State), exec i s = .next t → i.mnemonic ∉ csrMnemonics →
    s.fflags &&& t.fflags = s.fflags ∧ t.frm = s.frm ∧ (i.mnemonic ∉ flagMnemonics → t.fcsr = s.fcsr)

/-- Under a map that gives no address both W and X, a run from a state that meets the invariant is never refused: it can
not come to a fetch of a byte it has stored (20_memory.md R76, R90; the refusal and what counts as stored, log 12). -/
def Obligations.WriteXorExecuteRunIsNeverRefused : Prop :=
  ∀ s : State, s.Inv → WriteXorExecute s.params → NeverRefused s

/-! ## Registers and memory -/

/-- `x0` reads zero and discards writes; every other `x` register and every `f` register reads what was last written to
it and is left alone by a write to another (00_scope.md R11, R12). -/
def Obligations.RegisterReadsLastWrite : Prop :=
  ∀ (s : State) (i : BitVec 5) (v : Word),
    s.getX 0#5 = 0#32 ∧ s.setX 0#5 v = s ∧ (i ≠ 0#5 → (s.setX i v).getX i = v) ∧
      (∀ j, j ≠ i → (s.setX i v).getX j = s.getX j) ∧ (s.setF i v).getF i = v ∧
      ∀ j, j ≠ i → (s.setF i v).getF j = s.getF j

/-- Memory is little-endian and an access reads what the last write wrote, at every width: the byte at `addr + k` holds bits
`8k+7 : 8k` of the value written and of the value read, reading what was written gives its low bytes, and every other
byte is as it was (20_memory.md R70). No state but memory enters: nothing switches the byte order. -/
def Obligations.MemoryReadsLastWrite : Prop :=
  ∀ (m : Memory) (addr v : Word) (w : Width),
    (∀ k < bytesIn w, (m.writeValue addr (bytesIn w) v).read (byteAddress addr k) = v.extractLsb' (8 * k) 8) ∧
      (∀ k < bytesIn w, (m.readValue addr w).extractLsb' (8 * k) 8 = m.read (byteAddress addr k)) ∧
      ((m.writeValue addr (bytesIn w) v).readValue addr w).toNat = v.toNat % 2 ^ (8 * bytesIn w) ∧
      ∀ a, (∀ k < bytesIn w, a ≠ byteAddress addr k) → (m.writeValue addr (bytesIn w) v).read a = m.read a

/-- Two memories in canonical form that read alike at every address are the same data: the canonical form is the model's
(log 6), memory as a map from address to byte is the spec's (20_memory.md R70). -/
def Obligations.CanonicalMemoriesAreEqual : Prop :=
  ∀ m m' : Memory, m.wf → m'.wf → (∀ a, m.read a = m'.read a) → m = m'

/-! ## Integer instructions -/

/-- `add`, `addi`, `sub`, `auipc` and `lui` write the sum, the difference or the upper immediate modulo 2^32 to `x[rd]`,
advance `pc`, and change nothing else (40_integer_computational.md R200, R201, R202, R205, R206, R219). -/
def Obligations.SumResults : Prop :=
  ∀ (rd rs1 rs2 : XReg) (imm : BitVec 12) (upper : BitVec 20) (s : State),
    (∃ t v, exec (.add rd rs1 rs2) s = .next t ∧ WritesX s t rd v (s.pc + 4#32) ∧
        v.toNat = ((s.getX rs1).toNat + (s.getX rs2).toNat) % 2 ^ 32) ∧
      (∃ t v, exec (.addi rd rs1 imm) s = .next t ∧ WritesX s t rd v (s.pc + 4#32) ∧
        (v.toNat : Int) = ((s.getX rs1).toNat + imm.toInt) % 2 ^ 32) ∧
      (∃ t v, exec (.sub rd rs1 rs2) s = .next t ∧ WritesX s t rd v (s.pc + 4#32) ∧
        (v.toNat : Int) = ((s.getX rs1).toNat - (s.getX rs2).toNat : Int) % 2 ^ 32) ∧
      (∃ t v, exec (.auipc rd upper) s = .next t ∧ WritesX s t rd v (s.pc + 4#32) ∧
        v.toNat = (s.pc.toNat + upper.toNat * 2 ^ 12) % 2 ^ 32) ∧
      ∃ t v, exec (.lui rd upper) s = .next t ∧ WritesX s t rd v (s.pc + 4#32) ∧ v.toNat = upper.toNat * 2 ^ 12

/-- The bitwise instructions write AND, OR or XOR, bit by bit, of `x[rs1]` with `x[rs2]` or with the sign-extended
immediate (bits 31:12 of which are copies of its bit 11), advance `pc`, and change nothing else
(40_integer_computational.md R203, R204, R207, R208, R220, R221). -/
def Obligations.BitwiseResults : Prop :=
  ∀ (rd rs1 rs2 : XReg) (imm : BitVec 12) (s : State),
    let a := fun k => (s.getX rs1).getLsbD k
    let b := fun k => (s.getX rs2).getLsbD k
    let c := fun k => imm.getLsbD (min k 11)
    (∃ t v, exec (.and rd rs1 rs2) s = .next t ∧ WritesX s t rd v (s.pc + 4#32) ∧
        ∀ k < 32, v.getLsbD k = (a k && b k)) ∧
      (∃ t v, exec (.andi rd rs1 imm) s = .next t ∧ WritesX s t rd v (s.pc + 4#32) ∧
        ∀ k < 32, v.getLsbD k = (a k && c k)) ∧
      (∃ t v, exec (.or rd rs1 rs2) s = .next t ∧ WritesX s t rd v (s.pc + 4#32) ∧
        ∀ k < 32, v.getLsbD k = (a k || b k)) ∧
      (∃ t v, exec (.ori rd rs1 imm) s = .next t ∧ WritesX s t rd v (s.pc + 4#32) ∧
        ∀ k < 32, v.getLsbD k = (a k || c k)) ∧
      (∃ t v, exec (.xor rd rs1 rs2) s = .next t ∧ WritesX s t rd v (s.pc + 4#32) ∧
        ∀ k < 32, v.getLsbD k = (a k ^^ b k)) ∧
      ∃ t v, exec (.xori rd rs1 imm) s = .next t ∧ WritesX s t rd v (s.pc + 4#32) ∧
        ∀ k < 32, v.getLsbD k = (a k ^^ c k)

/-- The shifts: left is multiplication by `2^n` modulo 2^32, logical right is division of the unsigned value, arithmetic
right is division of the signed value rounded down; `n` is the low five bits of `x[rs2]`, the rest ignored, or `shamt`.
They advance `pc` and change nothing else (40_integer_computational.md R209, R210, R215 to R218). -/
def Obligations.ShiftResults : Prop :=
  ∀ (rd rs1 rs2 : XReg) (shamt : BitVec 5) (s : State),
    let a := s.getX rs1
    let n := (s.getX rs2).toNat % 32
    (∃ t v, exec (.sll rd rs1 rs2) s = .next t ∧ WritesX s t rd v (s.pc + 4#32) ∧
        v.toNat = a.toNat * 2 ^ n % 2 ^ 32) ∧
      (∃ t v, exec (.slli rd rs1 shamt) s = .next t ∧ WritesX s t rd v (s.pc + 4#32) ∧
        v.toNat = a.toNat * 2 ^ shamt.toNat % 2 ^ 32) ∧
      (∃ t v, exec (.srl rd rs1 rs2) s = .next t ∧ WritesX s t rd v (s.pc + 4#32) ∧ v.toNat = a.toNat / 2 ^ n) ∧
      (∃ t v, exec (.srli rd rs1 shamt) s = .next t ∧ WritesX s t rd v (s.pc + 4#32) ∧
        v.toNat = a.toNat / 2 ^ shamt.toNat) ∧
      (∃ t v, exec (.sra rd rs1 rs2) s = .next t ∧ WritesX s t rd v (s.pc + 4#32) ∧ v.toInt = a.toInt / 2 ^ n) ∧
      ∃ t v, exec (.srai rd rs1 shamt) s = .next t ∧ WritesX s t rd v (s.pc + 4#32) ∧
        v.toInt = a.toInt / 2 ^ shamt.toNat

/-- The comparisons write 1 or 0: signed for `slt` and `slti`, unsigned for `sltu` and `sltiu`, whose immediate is sign
extended first; they advance `pc` and change nothing else (40_integer_computational.md R211 to R214). -/
def Obligations.ComparisonResults : Prop :=
  ∀ (rd rs1 rs2 : XReg) (imm : BitVec 12) (s : State),
    let a := s.getX rs1
    (∃ t, exec (.slt rd rs1 rs2) s = .next t ∧
        WritesX s t rd (if a.toInt < (s.getX rs2).toInt then 1#32 else 0#32) (s.pc + 4#32)) ∧
      (∃ t, exec (.slti rd rs1 imm) s = .next t ∧
        WritesX s t rd (if a.toInt < imm.toInt then 1#32 else 0#32) (s.pc + 4#32)) ∧
      (∃ t, exec (.sltu rd rs1 rs2) s = .next t ∧
        WritesX s t rd (if a.toNat < (s.getX rs2).toNat then 1#32 else 0#32) (s.pc + 4#32)) ∧
      ∃ t, exec (.sltiu rd rs1 imm) s = .next t ∧
        WritesX s t rd (if (a.toNat : Int) < imm.toInt % 2 ^ 32 then 1#32 else 0#32) (s.pc + 4#32)

/-- `mul`, `mulh`, `mulhsu` and `mulhu` write the low or the high half of the exact product, signed or unsigned as the
name says, advance `pc`, and change nothing else (43_multiply_divide.md R274 to R277). -/
def Obligations.MultiplyResults : Prop :=
  ∀ (rd rs1 rs2 : XReg) (s : State),
    let a := s.getX rs1
    let b := s.getX rs2
    (∃ t v, exec (.mul rd rs1 rs2) s = .next t ∧ WritesX s t rd v (s.pc + 4#32) ∧
        v.toNat = a.toNat * b.toNat % 2 ^ 32) ∧
      (∃ t v, exec (.mulh rd rs1 rs2) s = .next t ∧ WritesX s t rd v (s.pc + 4#32) ∧
        v.toInt = a.toInt * b.toInt / 2 ^ 32) ∧
      (∃ t v, exec (.mulhsu rd rs1 rs2) s = .next t ∧ WritesX s t rd v (s.pc + 4#32) ∧
        v.toInt = a.toInt * b.toNat / 2 ^ 32) ∧
      ∃ t v, exec (.mulhu rd rs1 rs2) s = .next t ∧ WritesX s t rd v (s.pc + 4#32) ∧
        v.toNat = a.toNat * b.toNat / 2 ^ 32

/-- `div`, `divu`, `rem` and `remu` write the quotient rounded toward zero or its remainder, with the corners of R271: a
zero divisor gives all ones or the dividend, and `-2^31 / -1` gives `-2^31` with remainder 0. They advance `pc`, change
nothing else and never raise (43_multiply_divide.md R270 to R273, R278, R279). -/
def Obligations.DivideResults : Prop :=
  ∀ (rd rs1 rs2 : XReg) (s : State),
    let a := s.getX rs1
    let b := s.getX rs2
    (∃ t q, exec (.div rd rs1 rs2) s = .next t ∧ WritesX s t rd q (s.pc + 4#32) ∧
        (b = 0#32 → q = 0xFFFFFFFF#32) ∧ (a = 0x80000000#32 → b = 0xFFFFFFFF#32 → q = 0x80000000#32) ∧
        (b ≠ 0#32 → ¬(a = 0x80000000#32 ∧ b = 0xFFFFFFFF#32) → q.toInt = a.toInt.tdiv b.toInt)) ∧
      (∃ t q, exec (.divu rd rs1 rs2) s = .next t ∧ WritesX s t rd q (s.pc + 4#32) ∧
        (b = 0#32 → q = 0xFFFFFFFF#32) ∧ (b ≠ 0#32 → q.toNat = a.toNat / b.toNat)) ∧
      (∃ t r, exec (.rem rd rs1 rs2) s = .next t ∧ WritesX s t rd r (s.pc + 4#32) ∧
        (b = 0#32 → r = a) ∧ (a = 0x80000000#32 → b = 0xFFFFFFFF#32 → r = 0#32) ∧
        (b ≠ 0#32 → r.toInt = a.toInt - b.toInt * a.toInt.tdiv b.toInt)) ∧
      ∃ t r, exec (.remu rd rs1 rs2) s = .next t ∧ WritesX s t rd r (s.pc + 4#32) ∧
        (b = 0#32 → r = a) ∧ (b ≠ 0#32 → r.toNat = a.toNat % b.toNat)

/-! ## Control transfer -/

/-- The six branches: equal, not equal, less and at least, signed and unsigned, of the register contents; the target is
`pc + sext(offset)`; a taken branch to a target that is no multiple of 4 raises, and a branch not taken never does
(41_control_transfer.md R230 to R237). -/
def Obligations.BranchResults : Prop :=
  ∀ (rs1 rs2 : XReg) (offset : BitVec 13) (s : State),
    let a := s.getX rs1
    let b := s.getX rs2
    let target := s.pc + offset.signExtend 32
    Branches (exec (.beq rs1 rs2 offset) s) s (a = b) target ∧
      Branches (exec (.bne rs1 rs2 offset) s) s (a ≠ b) target ∧
      Branches (exec (.blt rs1 rs2 offset) s) s (a.toInt < b.toInt) target ∧
      Branches (exec (.bge rs1 rs2 offset) s) s (b.toInt ≤ a.toInt) target ∧
      Branches (exec (.bltu rs1 rs2 offset) s) s (a.toNat < b.toNat) target ∧
      Branches (exec (.bgeu rs1 rs2 offset) s) s (b.toNat ≤ a.toNat) target

/-- `jal` and `jalr` go to `pc + sext(offset)` and to `x[rs1] + sext(offset)` with bit 0 cleared, from the old `x[rs1]`
also when it is the link register, and write `pc + 4` to `x[rd]`; a target that is no multiple of 4 raises and nothing
is written (41_control_transfer.md R230, R238, R239). -/
def Obligations.JumpResults : Prop :=
  ∀ (rd rs1 : XReg) (offset : BitVec 21) (displacement : BitVec 12) (s : State),
    let target := s.pc + offset.signExtend 32
    let indirect := (s.getX rs1 + displacement.signExtend 32) &&& 0xFFFFFFFE#32
    (target.toNat % 4 = 0 → ∃ t, exec (.jal rd offset) s = .next t ∧ WritesX s t rd (s.pc + 4#32) target) ∧
      (target.toNat % 4 ≠ 0 → Raises (exec (.jal rd offset) s) s .instructionAddressMisaligned target) ∧
      (indirect.toNat % 4 = 0 →
        ∃ t, exec (.jalr rd rs1 displacement) s = .next t ∧ WritesX s t rd (s.pc + 4#32) indirect) ∧
      (indirect.toNat % 4 ≠ 0 →
        Raises (exec (.jalr rd rs1 displacement) s) s .instructionAddressMisaligned indirect)

/-! ## Loads and stores -/

/-- A load whose address is aligned, or whose policy is `support`, and whose bytes are all mapped with R writes the bytes,
the lowest at `addr = x[rs1] + sext(offset)`, sign- or zero-extended to its destination, advances `pc`, and changes
nothing else (42_load_store.md R250 to R255, 46_float_move_convert_compare.md R349; under `support`, logs 8 and 18). -/
def Obligations.LoadResults : Prop :=
  ∀ (rd : XReg) (fd : FReg) (rs1 : XReg) (offset : BitVec 12) (s : State),
    let addr := s.getX rs1 + offset.signExtend 32
    let b := fun k => s.mem.read (byteAddress addr k)
    (MapOk s .load addr 1 →
        (∃ t, exec (.lb rd rs1 offset) s = .next t ∧ WritesX s t rd ((b 0).signExtend 32) (s.pc + 4#32)) ∧
          ∃ t, exec (.lbu rd rs1 offset) s = .next t ∧ WritesX s t rd ((b 0).setWidth 32) (s.pc + 4#32)) ∧
      (AlignmentOk s addr 2 → MapOk s .load addr 2 →
        (∃ t, exec (.lh rd rs1 offset) s = .next t ∧ WritesX s t rd ((b 1 ++ b 0).signExtend 32) (s.pc + 4#32)) ∧
          ∃ t, exec (.lhu rd rs1 offset) s = .next t ∧ WritesX s t rd ((b 1 ++ b 0).setWidth 32) (s.pc + 4#32)) ∧
      (AlignmentOk s addr 4 → MapOk s .load addr 4 →
        (∃ t, exec (.lw rd rs1 offset) s = .next t ∧ WritesX s t rd (b 3 ++ b 2 ++ b 1 ++ b 0) (s.pc + 4#32)) ∧
          ∃ t, exec (.flw fd rs1 offset) s = .next t ∧ WritesF s t fd (b 3 ++ b 2 ++ b 1 ++ b 0))

/-- A store whose address is aligned, or whose policy is `support`, and whose bytes are all mapped with W writes the low
one, two or four bytes of its register at `addr = x[rs1] + sext(offset)`, and no other byte
(42_load_store.md R250, R256 to R258, 46_float_move_convert_compare.md R355; under `support`, logs 8 and 18). -/
def Obligations.StoreResults : Prop :=
  ∀ (rs2 : XReg) (fs2 : FReg) (rs1 : XReg) (offset : BitVec 12) (s : State),
    let addr := s.effectiveAddress rs1 offset
    addr = s.getX rs1 + offset.signExtend 32 ∧
      (MapOk s .store addr 1 →
        ∃ t, exec (.sb rs2 rs1 offset) s = .next t ∧ StoresBytes s t addr 1 (s.getX rs2)) ∧
      (AlignmentOk s addr 2 → MapOk s .store addr 2 →
        ∃ t, exec (.sh rs2 rs1 offset) s = .next t ∧ StoresBytes s t addr 2 (s.getX rs2)) ∧
      (AlignmentOk s addr 4 → MapOk s .store addr 4 →
        (∃ t, exec (.sw rs2 rs1 offset) s = .next t ∧ StoresBytes s t addr 4 (s.getX rs2)) ∧
          ∃ t, exec (.fsw fs2 rs1 offset) s = .next t ∧ StoresBytes s t addr 4 (s.getF fs2))

/-- A load or a store checks the alignment first and the map second, and the check that fails raises its exception with
the effective address; nothing is read or written then. A byte access has no alignment to fail (20_memory.md R72, R76,
R95; the policy and the map are parameters of the run, logs 7 and 8). -/
def Obligations.LoadAndStoreTraps : Prop :=
  ∀ (r rs1 : BitVec 5) (offset : BitVec 12) (s : State),
    let addr := s.getX rs1 + offset.signExtend 32
    (∀ p ∈ [(Instr.lh r rs1 offset, 2), (.lhu r rs1 offset, 2), (.lw r rs1 offset, 4), (.flw r rs1 offset, 4)],
      (¬AlignmentOk s addr p.2 → Raises (exec p.1 s) s .loadAddressMisaligned addr) ∧
        (AlignmentOk s addr p.2 → ¬MapOk s .load addr p.2 → Raises (exec p.1 s) s .loadAccessFault addr)) ∧
      (∀ p ∈ [(Instr.sh r rs1 offset, 2), (.sw r rs1 offset, 4), (.fsw r rs1 offset, 4)],
        (¬AlignmentOk s addr p.2 → Raises (exec p.1 s) s .storeAddressMisaligned addr) ∧
          (AlignmentOk s addr p.2 → ¬MapOk s .store addr p.2 → Raises (exec p.1 s) s .storeAccessFault addr)) ∧
      (¬MapOk s .load addr 1 → Raises (exec (.lb r rs1 offset) s) s .loadAccessFault addr ∧
        Raises (exec (.lbu r rs1 offset) s) s .loadAccessFault addr) ∧
      (¬MapOk s .store addr 1 → Raises (exec (.sb r rs1 offset) s) s .storeAccessFault addr)

/-- A word stored is the word loaded from the same address by the next instruction, in either register file
(20_memory.md R80, 70_reset_and_hazards.md R458 (e)). -/
def Obligations.StoreThenLoadGivesValue : Prop :=
  ∀ (rs2 rs1 rd : XReg) (fd : FReg) (offset : BitVec 12) (s t : State),
    let addr := s.getX rs1 + offset.signExtend 32
    AlignmentOk s addr 4 → MapOk s .load addr 4 → MapOk s .store addr 4 → exec (.sw rs2 rs1 offset) s = .next t →
      (∃ u, exec (.lw rd rs1 offset) t = .next u ∧ XBecomes s u rd (s.getX rs2)) ∧
        ∃ u, exec (.flw fd rs1 offset) t = .next u ∧ FBecomes s u fd (s.getX rs2)

/-! ## System instructions -/

/-- The six CSR instructions at the three addresses of the default map: `x[rd]` takes the old value, and the register the
implemented bits of the new one, made from the old value and the old `x[rs1]` or `zimm`. A set or clear with a zero
operand writes the old value back, which is no write (44_csr_system.md R290 to R296). -/
def Obligations.CsrResults : Prop :=
  ∀ (rd rs1 : XReg) (zimm : BitVec 5) (s : State), ∀ p ∈ csrPlaces,
    let old := csrValue s p.2
    let z := zimm.setWidth 32
    (∃ t, exec (.csrrw rd p.1 rs1) s = .next t ∧ CsrEffect s t rd p.2 (s.getX rs1)) ∧
      (∃ t, exec (.csrrs rd p.1 rs1) s = .next t ∧ CsrEffect s t rd p.2 (old ||| s.getX rs1)) ∧
      (∃ t, exec (.csrrc rd p.1 rs1) s = .next t ∧ CsrEffect s t rd p.2 (old &&& ~~~(s.getX rs1))) ∧
      (∃ t, exec (.csrrwi rd p.1 zimm) s = .next t ∧ CsrEffect s t rd p.2 z) ∧
      (∃ t, exec (.csrrsi rd p.1 zimm) s = .next t ∧ CsrEffect s t rd p.2 (old ||| z)) ∧
      ∃ t, exec (.csrrci rd p.1 zimm) s = .next t ∧ CsrEffect s t rd p.2 (old &&& ~~~z)

/-- A CSR instruction that names an address outside the default map raises `IllegalInstruction` with its word, and nothing
is read or written (44_csr_system.md R290 (a), 10_state.md R41; the map is the default one, log 9, and the word is `encode`'s, log 13). -/
def Obligations.UnimplementedCsrRaises : Prop :=
  ∀ (rd rs1 : XReg) (zimm : BitVec 5) (csr : CsrAddr) (s : State), csr ∉ [0x001#12, 0x002#12, 0x003#12] →
    ∀ i ∈ [Instr.csrrw rd csr rs1, .csrrs rd csr rs1, .csrrc rd csr rs1, .csrrwi rd csr zimm, .csrrsi rd csr zimm,
        .csrrci rd csr zimm],
      Raises (exec i s) s .illegalInstruction (encode i)

/-- `ebreak`, the single word 0x00100073, always takes `Breakpoint` with its own address, and `ecall`, the single word
0x00000073, always `EnvironmentCall` with 0: no register, CSR, memory byte or `pc` changes (44_csr_system.md R297,
R298). -/
def Obligations.BreakpointAndEnvironmentCallTrap : Prop :=
  (∀ s : State, Raises (exec .ebreak s) s .breakpoint s.pc ∧ Raises (exec .ecall s) s .environmentCall 0#32) ∧
    ∀ w : Word, (decodeWord w = .ok .ebreak ↔ w = 0x00100073#32) ∧ (decodeWord w = .ok .ecall ↔ w = 0x00000073#32)

/-- `fence` changes nothing but `pc`, whatever `pred`, `succ` and its ignored fields are, and every such word decodes
(44_csr_system.md R299, 20_memory.md R86, 30_encoding.md R134). -/
def Obligations.FenceChangesOnlyPc : Prop :=
  ∀ (fm pred succ : BitVec 4) (rs1 rd : BitVec 5) (s : State),
    (∃ t, exec (.fence fm pred succ rs1 rd) s = .next t ∧ WritesPc s t (s.pc + 4#32)) ∧
      decodeWord (fm ++ pred ++ succ ++ rs1 ++ 0b000#3 ++ rd ++ 0b0001111#7) = .ok (.fence fm pred succ rs1 rd)

/-! ## Floating-point instructions -/

/-- The check of the rounding mode: each of the 13 instructions with an `rm` field raises `IllegalInstruction` with its
word for a reserved mode, before anything else, and for every other mode runs without raising, whatever the operands
(45_float_arith.md R311; the word is `encode`'s, log 13). -/
def Obligations.ReservedRoundingModeRaises : Prop :=
  ∀ (rd rs1 rs2 rs3 : BitVec 5) (rm : BitVec 3) (s : State),
    ∀ i ∈ [Instr.faddS rd rs1 rs2 rm, .fsubS rd rs1 rs2 rm, .fmulS rd rs1 rs2 rm, .fdivS rd rs1 rs2 rm,
        .fsqrtS rd rs1 rm, .fmaddS rd rs1 rs2 rs3 rm, .fmsubS rd rs1 rs2 rs3 rm, .fnmaddS rd rs1 rs2 rs3 rm,
        .fnmsubS rd rs1 rs2 rs3 rm, .fcvtWS rd rs1 rm, .fcvtWUS rd rs1 rm, .fcvtSW rd rs1 rm, .fcvtSWU rd rs1 rm],
      (ModeReserved s rm → Raises (exec i s) s .illegalInstruction (encode i)) ∧
        (¬ModeReserved s rm → ∃ t, exec i s = .next t ∧ t.outcome = s.outcome ∧ t.pc = s.pc + 4#32)

/-- `fadd.s`, `fsub.s`, `fmul.s`, `fdiv.s` and `fsqrt.s` write the NUMERICS function of their operands in the selected
mode to `f[rd]`, accrue its flags, advance `pc`, and change nothing else (45_float_arith.md R315, R323, R324, R329,
R332, R333). -/
def Obligations.FloatArithmeticResults : Prop :=
  ∀ (rd rs1 rs2 : FReg) (rm : BitVec 3) (mode : RoundingMode) (s : State), ModeSelected s rm mode →
    let a := s.getF rs1
    let b := s.getF rs2
    (∃ t, exec (.faddS rd rs1 rs2 rm) s = .next t ∧ WritesFAndFlags s t rd (fadd a b mode)) ∧
      (∃ t, exec (.fsubS rd rs1 rs2 rm) s = .next t ∧ WritesFAndFlags s t rd (fsub a b mode)) ∧
      (∃ t, exec (.fmulS rd rs1 rs2 rm) s = .next t ∧ WritesFAndFlags s t rd (fmul a b mode)) ∧
      (∃ t, exec (.fdivS rd rs1 rs2 rm) s = .next t ∧ WritesFAndFlags s t rd (fdiv a b mode)) ∧
      ∃ t, exec (.fsqrtS rd rs1 rm) s = .next t ∧ WritesFAndFlags s t rd (fsqrt a mode)

/-- The four fused instructions write `fma(a, b, c)`, `fma(a, b, -c)`, `fma(-a, b, -c)` and `fma(-a, b, c)`, where `-x`
inverts bit 31 of the pattern, accrue its flags, advance `pc`, and change nothing else (45_float_arith.md R320, R325, R328,
R330, R331). -/
def Obligations.FusedResults : Prop :=
  ∀ (rd rs1 rs2 rs3 : FReg) (rm : BitVec 3) (mode : RoundingMode) (s : State), ModeSelected s rm mode →
    let a := s.getF rs1
    let b := s.getF rs2
    let c := s.getF rs3
    let minus := fun x : Word => x ^^^ 0x80000000#32
    (∃ t, exec (.fmaddS rd rs1 rs2 rs3 rm) s = .next t ∧ WritesFAndFlags s t rd (fma a b c mode)) ∧
      (∃ t, exec (.fmsubS rd rs1 rs2 rs3 rm) s = .next t ∧ WritesFAndFlags s t rd (fma a b (minus c) mode)) ∧
      (∃ t, exec (.fnmaddS rd rs1 rs2 rs3 rm) s = .next t ∧ WritesFAndFlags s t rd (fma (minus a) b (minus c) mode)) ∧
      ∃ t, exec (.fnmsubS rd rs1 rs2 rs3 rm) s = .next t ∧ WritesFAndFlags s t rd (fma (minus a) b c mode)

/-- `fmin.s` and `fmax.s` copy an operand: the canonical NaN of two NaNs, the other operand of one NaN, otherwise the
smaller or the larger, -0 below +0; NV for a signaling NaN and no other flag; they advance `pc` and change nothing else
(45_float_arith.md R321, R326, R327). -/
def Obligations.MinimumAndMaximumResults : Prop :=
  ∀ (rd rs1 rs2 : FReg) (s : State),
    let a := s.getF rs1
    let b := s.getF rs2
    let flags := if isSNaN a ∨ isSNaN b then flagNV else noFlags
    let below := fun x y : Word => FpLess x y ∨ (x = 0x80000000#32 ∧ y = 0x00000000#32)
    let chosen := fun (first : Word → Word → Prop) (v : Word) =>
      (isNaN a → isNaN b → v = 0x7FC00000#32) ∧ (isNaN a → ¬isNaN b → v = b) ∧ (¬isNaN a → isNaN b → v = a) ∧
        (¬isNaN a → ¬isNaN b → (v = a ∨ v = b) ∧ ¬first a v ∧ ¬first b v)
    (∃ t v, exec (.fminS rd rs1 rs2) s = .next t ∧ WritesFAndFlags s t rd (v, flags) ∧ chosen below v) ∧
      ∃ t v, exec (.fmaxS rd rs1 rs2) s = .next t ∧ WritesFAndFlags s t rd (v, flags) ∧
        chosen (fun x y => below y x) v

/-- `fcvt.s.w` and `fcvt.s.wu` give +0 for zero and round every other integer, signed or unsigned, to `f[rd]` with the
flags of rounding (46_float_move_convert_compare.md R342, R343). -/
def Obligations.ConversionsFromInteger : Prop :=
  ∀ (rd : FReg) (rs1 : XReg) (rm : BitVec 3) (mode : RoundingMode) (s : State), ModeSelected s rm mode →
    let a := s.getX rs1
    (∃ t r, exec (.fcvtSW rd rs1 rm) s = .next t ∧ WritesFAndFlags s t rd r ∧
        (a = 0#32 → r = (0x00000000#32, noFlags)) ∧ (a ≠ 0#32 → Rounds mode (a.toInt : ℝ) r)) ∧
      ∃ t r, exec (.fcvtSWU rd rs1 rm) s = .next t ∧ WritesFAndFlags s t rd r ∧
        (a = 0#32 → r = (0x00000000#32, noFlags)) ∧ (a ≠ 0#32 → Rounds mode (a.toNat : ℝ) r)

/-- `fcvt.w.s` and `fcvt.wu.s` round to an integer and write it to `x[rd]`, NX when it is not the operand's value; a NaN,
plus infinity or a rounded value above the range gives the highest integer, minus infinity or one below the range the
lowest, with NV alone (46_float_move_convert_compare.md R344, R345). -/
def Obligations.ConversionsToInteger : Prop :=
  ∀ (rd : XReg) (rs1 : FReg) (rm : BitVec 3) (mode : RoundingMode) (s : State), ModeSelected s rm mode →
    let a := s.getF rs1
    let converted := fun (lo hi : ℤ) (r : Word × FpFlags) =>
      (isNaN a ∨ a = 0x7F800000#32 → r = (BitVec.ofInt 32 hi, flagNV)) ∧
        (a = 0xFF800000#32 → r = (BitVec.ofInt 32 lo, flagNV)) ∧
        (isFinite a → ∃ n, IsRint mode (fpValue a) n ∧
          (hi < n → r = (BitVec.ofInt 32 hi, flagNV)) ∧ (n < lo → r = (BitVec.ofInt 32 lo, flagNV)) ∧
          (lo ≤ n → n ≤ hi → r = (BitVec.ofInt 32 n, if (n : ℚ) = fpValue a then noFlags else flagNX)))
    (∃ t r, exec (.fcvtWS rd rs1 rm) s = .next t ∧ WritesXAndFlags s t rd r ∧ converted (-(2 ^ 31)) (2 ^ 31 - 1) r) ∧
      ∃ t r, exec (.fcvtWUS rd rs1 rm) s = .next t ∧ WritesXAndFlags s t rd r ∧ converted 0 (2 ^ 32 - 1) r

/-- `feq.s`, `flt.s` and `fle.s` write 1 or 0 by the exact values, the zeros equal and the infinities beyond every finite
number; a NaN gives 0, with NV for a signaling NaN in `feq.s` and for any NaN in the others
(46_float_move_convert_compare.md R346 to R348). -/
def Obligations.FloatComparisonResults : Prop :=
  ∀ (rd : XReg) (rs1 rs2 : FReg) (s : State),
    let a := s.getF rs1
    let b := s.getF rs2
    let nan := isNaN a ∨ isNaN b
    let compared := fun (holds invalid : Prop) (r : Word × FpFlags) =>
      (nan ∨ ¬holds → r.1 = 0#32) ∧ (¬nan → holds → r.1 = 1#32) ∧ (invalid → r.2 = flagNV) ∧
        (¬invalid → r.2 = noFlags)
    (∃ t r, exec (.feqS rd rs1 rs2) s = .next t ∧ WritesXAndFlags s t rd r ∧
        compared (FpEqual a b) (isSNaN a ∨ isSNaN b) r) ∧
      (∃ t r, exec (.fltS rd rs1 rs2) s = .next t ∧ WritesXAndFlags s t rd r ∧ compared (FpLess a b) nan r) ∧
      ∃ t r, exec (.fleS rd rs1 rs2) s = .next t ∧ WritesXAndFlags s t rd r ∧
        compared (FpLess a b ∨ FpEqual a b) nan r

/-- `fclass.s` writes one bit to `x[rd]`, that of the class of the pattern, and sets no flag
(46_float_move_convert_compare.md R341). -/
def Obligations.ClassifyResult : Prop :=
  ∀ (rd : XReg) (rs1 : FReg) (s : State),
    let a := s.getF rs1
    ∃ t k, exec (.fclassS rd rs1) s = .next t ∧ WritesX s t rd (BitVec.twoPow 32 k) (s.pc + 4#32) ∧ k ≤ 9 ∧
      (k = 0 ↔ a = 0xFF800000#32) ∧ (k = 1 ↔ isFinite a ∧ fpValue a ≤ -(1 / 2 ^ 126)) ∧
      (k = 2 ↔ isFinite a ∧ -(1 / 2 ^ 126) < fpValue a ∧ fpValue a < 0) ∧ (k = 3 ↔ a = 0x80000000#32) ∧
      (k = 4 ↔ a = 0x00000000#32) ∧ (k = 5 ↔ isFinite a ∧ 0 < fpValue a ∧ fpValue a < 1 / 2 ^ 126) ∧
      (k = 6 ↔ isFinite a ∧ 1 / 2 ^ 126 ≤ fpValue a) ∧ (k = 7 ↔ a = 0x7F800000#32) ∧
      (k = 8 ↔ isNaN a ∧ a.getLsbD 22 = false) ∧ (k = 9 ↔ isNaN a ∧ a.getLsbD 22 = true)

/-- `fsgnj.s`, `fsgnjn.s`, `fsgnjx.s`, `fmv.w.x` and `fmv.x.w` move bits: bits 30:0 of `f[rs1]` with the sign of `f[rs2]`,
its opposite, or the XOR of the two, or the whole register; no NaN is changed and no flag set
(46_float_move_convert_compare.md R350 to R354, 45_float_arith.md R313 (d)). -/
def Obligations.BitCopyResults : Prop :=
  ∀ (rd rs1 rs2 : FReg) (xd xs1 : XReg) (s : State),
    let a := s.getF rs1
    let b := s.getF rs2
    let signed := fun (sign : Bool) (v : Word) => v.getLsbD 31 = sign ∧ ∀ k < 31, v.getLsbD k = a.getLsbD k
    (∃ t v, exec (.fsgnjS rd rs1 rs2) s = .next t ∧ WritesF s t rd v ∧ signed (b.getLsbD 31) v) ∧
      (∃ t v, exec (.fsgnjnS rd rs1 rs2) s = .next t ∧ WritesF s t rd v ∧ signed (!b.getLsbD 31) v) ∧
      (∃ t v, exec (.fsgnjxS rd rs1 rs2) s = .next t ∧ WritesF s t rd v ∧
        signed (a.getLsbD 31 ^^ b.getLsbD 31) v) ∧
      (∃ t, exec (.fmvWX rd xs1) s = .next t ∧ WritesF s t rd (s.getX xs1)) ∧
      ∃ t, exec (.fmvXW xd rs1) s = .next t ∧ WritesX s t xd a (s.pc + 4#32)

/-! ## Floating-point numbers -/

/-- The rounding function of the model, on an exact quotient of either sign, is the rounding function of the spec: the
result, OF, UF and NX, where UF is stated only where both readings of tininess agree (45_float_arith.md R312, log 14). -/
def Obligations.RoundingFollowsItsRule : Prop :=
  ∀ (mode : RoundingMode) (neg : Bool) (num den : ℕ), 0 < num → 0 < den →
    Rounds mode ((if neg then -1 else 1) * ((num : ℝ) / den)) (roundExact mode neg (.ratio num den))

/-- Rounding to nearest gives a number than which no finite number is nearer to the exact value, and of two equally near
the one with an even significand under RNE, the larger magnitude under RMM (45_float_arith.md R312, 10_state.md R45). -/
def Obligations.NearestRoundingIsNearest : Prop :=
  ∀ (num den : ℕ) (neg : Bool) (w : Word), 0 < num → 0 < den → isFinite w →
    let v : ℚ := (if neg then -1 else 1) * ((num : ℚ) / den)
    let even := (roundExact .rne neg (.ratio num den)).1
    let away := (roundExact .rmm neg (.ratio num den)).1
    (isFinite even → |fpValue even - v| ≤ |fpValue w - v| ∧
        (|fpValue even - v| = |fpValue w - v| → fpValue even ≠ fpValue w → even.getLsbD 0 = false)) ∧
      (isFinite away → |fpValue away - v| ≤ |fpValue w - v| ∧
        (|fpValue away - v| = |fpValue w - v| → |fpValue w| ≤ |fpValue away|))

/-- The directed modes give the tightest bounds: RDN the largest number not above the exact value, RUP the smallest not
below it, RTZ the one of these that is not larger in magnitude (45_float_arith.md R312, 10_state.md R45). -/
def Obligations.DirectedRoundingIsTightest : Prop :=
  ∀ (num den : ℕ) (neg : Bool) (w : Word), 0 < num → 0 < den → isFinite w →
    let v : ℚ := (if neg then -1 else 1) * ((num : ℚ) / den)
    let down := (roundExact .rdn neg (.ratio num den)).1
    let up := (roundExact .rup neg (.ratio num den)).1
    (isFinite down → fpValue down ≤ v ∧ (fpValue w ≤ v → fpValue w ≤ fpValue down)) ∧
      (¬isFinite down → down = 0xFF800000#32 ∧ v < fpValue w) ∧
      (isFinite up → v ≤ fpValue up ∧ (v ≤ fpValue w → fpValue up ≤ fpValue w)) ∧
      (¬isFinite up → up = 0x7F800000#32 ∧ fpValue w < v) ∧
      (roundExact .rtz neg (.ratio num den)).1 = if neg then up else down

/-- Addition and subtraction, case by case (45_float_arith.md R316). -/
def Obligations.AdditionFollowsItsRule : Prop :=
  ∀ (a b : Word) (mode : RoundingMode),
    fsub a b mode = fadd a (b ^^^ 0x80000000#32) mode ∧
      (isNaN a ∨ isNaN b → fadd a b mode = (0x7FC00000#32, if isSNaN a ∨ isSNaN b then flagNV else noFlags)) ∧
      (isInf a → isInf b → fpSign a ≠ fpSign b → fadd a b mode = (0x7FC00000#32, flagNV)) ∧
      (isInf a → ¬isNaN b → ¬(isInf b ∧ fpSign a ≠ fpSign b) → fadd a b mode = (a, noFlags)) ∧
      (isInf b → ¬isNaN a → ¬(isInf a ∧ fpSign a ≠ fpSign b) → fadd a b mode = (b, noFlags)) ∧
      (isFinite a → isFinite b → fpValue a + fpValue b ≠ 0 →
        Rounds mode ((fpValue a + fpValue b : ℚ) : ℝ) (fadd a b mode)) ∧
      (isFinite a → isFinite b → fpValue a + fpValue b = 0 → fadd a b mode =
        (if isZero a ∧ isZero b ∧ fpSign a = fpSign b then a
          else if mode = .rdn then 0x80000000#32 else 0x00000000#32, noFlags))

/-- Multiplication, case by case (45_float_arith.md R317). -/
def Obligations.MultiplicationFollowsItsRule : Prop :=
  ∀ (a b : Word) (mode : RoundingMode),
    let sign : Bool := fpSign a != fpSign b
    ((isZero a ∧ isInf b) ∨ (isInf a ∧ isZero b) → fmul a b mode = (0x7FC00000#32, flagNV)) ∧
      (isNaN a ∨ isNaN b → fmul a b mode = (0x7FC00000#32, if isSNaN a ∨ isSNaN b then flagNV else noFlags)) ∧
      ((isInf a ∧ ¬isZero b ∧ ¬isNaN b) ∨ (isInf b ∧ ¬isZero a ∧ ¬isNaN a) →
        fmul a b mode = (if sign then 0xFF800000#32 else 0x7F800000#32, noFlags)) ∧
      (isFinite a → isFinite b → isZero a ∨ isZero b →
        fmul a b mode = (if sign then 0x80000000#32 else 0x00000000#32, noFlags)) ∧
      (isFinite a → isFinite b → ¬isZero a → ¬isZero b →
        Rounds mode ((fpValue a * fpValue b : ℚ) : ℝ) (fmul a b mode))

/-- Division, case by case (45_float_arith.md R318). -/
def Obligations.DivisionFollowsItsRule : Prop :=
  ∀ (a b : Word) (mode : RoundingMode),
    let sign : Bool := fpSign a != fpSign b
    (isNaN a ∨ isNaN b → fdiv a b mode = (0x7FC00000#32, if isSNaN a ∨ isSNaN b then flagNV else noFlags)) ∧
      ((isZero a ∧ isZero b) ∨ (isInf a ∧ isInf b) → fdiv a b mode = (0x7FC00000#32, flagNV)) ∧
      (isInf a → isFinite b → fdiv a b mode = (if sign then 0xFF800000#32 else 0x7F800000#32, noFlags)) ∧
      (isFinite a → isInf b → fdiv a b mode = (if sign then 0x80000000#32 else 0x00000000#32, noFlags)) ∧
      (isFinite a → ¬isZero a → isZero b →
        fdiv a b mode = (if sign then 0xFF800000#32 else 0x7F800000#32, flagDZ)) ∧
      (isZero a → isFinite b → ¬isZero b →
        fdiv a b mode = (if sign then 0x80000000#32 else 0x00000000#32, noFlags)) ∧
      (isFinite a → isFinite b → ¬isZero a → ¬isZero b →
        Rounds mode ((fpValue a / fpValue b : ℚ) : ℝ) (fdiv a b mode))

/-- The square root, case by case, rounded from the exact real root (45_float_arith.md R319). -/
def Obligations.SquareRootFollowsItsRule : Prop :=
  ∀ (a : Word) (mode : RoundingMode),
    (isNaN a → fsqrt a mode = (0x7FC00000#32, if isSNaN a then flagNV else noFlags)) ∧
      (isZero a → fsqrt a mode = (a, noFlags)) ∧
      (fpSign a → ¬isNaN a → ¬isZero a → fsqrt a mode = (0x7FC00000#32, flagNV)) ∧
      (a = 0x7F800000#32 → fsqrt a mode = (a, noFlags)) ∧
      (isFinite a → 0 < fpValue a → Rounds mode (Real.sqrt ((fpValue a : ℚ) : ℝ)) (fsqrt a mode)) ∧
      ((fsqrt a mode).2 &&& (flagOF ||| flagUF) = noFlags)

/-- Fused multiply-add, case by case, with one rounding of the exact `a * b + c` (45_float_arith.md R320). -/
def Obligations.FusedMultiplyAddFollowsItsRule : Prop :=
  ∀ (a b c : Word) (mode : RoundingMode),
    let sign : Bool := fpSign a != fpSign b
    let invalid := (isZero a ∧ isInf b) ∨ (isInf a ∧ isZero b)
    let nan := isNaN a ∨ isNaN b ∨ isNaN c
    (invalid → fma a b c mode = (0x7FC00000#32, flagNV)) ∧
      (¬invalid → nan →
        fma a b c mode = (0x7FC00000#32, if isSNaN a ∨ isSNaN b ∨ isSNaN c then flagNV else noFlags)) ∧
      (¬invalid → ¬nan → isInf a ∨ isInf b → fma a b c mode =
        if isInf c ∧ fpSign c ≠ sign then (0x7FC00000#32, flagNV)
        else (if sign then 0xFF800000#32 else 0x7F800000#32, noFlags)) ∧
      (isFinite a → isFinite b → isInf c → fma a b c mode = (c, noFlags)) ∧
      (isFinite a → isFinite b → isFinite c → fpValue a * fpValue b + fpValue c ≠ 0 →
        Rounds mode ((fpValue a * fpValue b + fpValue c : ℚ) : ℝ) (fma a b c mode)) ∧
      (isFinite a → isFinite b → isFinite c → fpValue a * fpValue b + fpValue c = 0 → fma a b c mode =
        (if (isZero a ∨ isZero b) ∧ isZero c ∧ fpSign c = sign then c
          else if mode = .rdn then 0x80000000#32 else 0x00000000#32, noFlags))

/-- Whenever an arithmetic operation produces a NaN it is the canonical one: no payload is propagated
(45_float_arith.md R313 (a)). -/
def Obligations.ArithmeticNaNIsCanonical : Prop :=
  ∀ (a b c : Word) (mode : RoundingMode),
    ∀ r ∈ [fadd a b mode, fsub a b mode, fmul a b mode, fdiv a b mode, fsqrt a mode, fma a b c mode, fmin a b, fmax a b],
      isNaN r.1 → r.1 = 0x7FC00000#32

/-- Which operation can set which flag: the entries "no" of the table (45_float_arith.md R314). -/
def Obligations.FlagTableHolds : Prop :=
  ∀ (a b c : Word) (mode : RoundingMode),
    (fadd a b mode).2 &&& (flagDZ ||| flagUF) = noFlags ∧ (fsub a b mode).2 &&& (flagDZ ||| flagUF) = noFlags ∧
      (fmul a b mode).2 &&& flagDZ = noFlags ∧
      (fsqrt a mode).2 &&& (flagDZ ||| flagOF ||| flagUF) = noFlags ∧ (fma a b c mode).2 &&& flagDZ = noFlags ∧
      (∀ fl ∈ [(fmin a b).2, (fmax a b).2, (feq a b).2, (flt a b).2, (fle a b).2], fl &&& ~~~flagNV = noFlags) ∧
      (∀ fl ∈ [(fcvtWSOf a mode).2, (fcvtWuSOf a mode).2], fl = noFlags ∨ fl = flagNV ∨ fl = flagNX) ∧
      ∀ fl ∈ [(fcvtSWOf a mode).2, (fcvtSWuOf a mode).2], fl &&& ~~~flagNX = noFlags
end

