-- ==== Sys2Proof/Laws/Encoding.lean ====
section
/-! SUPPORT. The six fields and the word determine each other, and every immediate read from the fields that an immediate was written into is that immediate (30_encoding.md R111 to R128). -/

namespace Sys2Proof

/-! ## Fields and words -/

/-- Which field each bit of a word belongs to (R111). -/
theorem Fields.getLsbD_toWord (f : Fields) (i : Nat) :
    f.toWord.getLsbD i =
      if i < 7 then f.opcode.getLsbD i
      else if i < 12 then f.rd.getLsbD (i - 7)
      else if i < 15 then f.funct3.getLsbD (i - 12)
      else if i < 20 then f.rs1.getLsbD (i - 15)
      else if i < 25 then f.rs2.getLsbD (i - 20)
      else f.funct7.getLsbD (i - 25) := by
  change BitVec.getLsbD (w := 7 + 5 + 5 + 3 + 5 + 7)
    (f.funct7 ++ f.rs2 ++ f.rs1 ++ f.funct3 ++ f.rd ++ f.opcode) i = _
  simp only [BitVec.getLsbD_append]
  repeat' split
  all_goals first | omega | (congr 1; try omega)

theorem Fields.ofWord_toWord (f : Fields) : Fields.ofWord f.toWord = f := by
  have h := f.getLsbD_toWord
  cases f with
  | mk a b c d e g =>
    simp only [Fields.ofWord, Fields.mk.injEq]
    refine ⟨?_, ?_, ?_, ?_, ?_, ?_⟩ <;>
    · apply BitVec.eq_of_getLsbD_eq
      intro i hi
      rw [BitVec.getLsbD_extractLsb', h]
      simp only [hi, decide_true, Bool.true_and]
      repeat' split
      all_goals first | omega | (congr 1; omega)

theorem Fields.toWord_ofWord (w : Word) : (Fields.ofWord w).toWord = w := by
  apply BitVec.eq_of_getLsbD_eq
  intro i hi
  rw [Fields.getLsbD_toWord]
  simp only [Fields.ofWord, BitVec.getLsbD_extractLsb']
  repeat' split
  all_goals
    rw [decide_eq_true (by omega), Bool.true_and]
    congr 1; omega

/-- Decoding an instruction's word decodes its fields. -/
theorem decodeWord_encode (i : Instr) : decodeWord (encode i) = decodeFields (encodeFields i) := by
  rw [decodeWord, encode, Fields.ofWord_toWord]

/-! ## Immediates -/

theorem append_extractLsb'_low {w : Nat} (lo hi : Nat) (v : BitVec w) (h : w = hi + lo) :
    (v.extractLsb' lo hi ++ v.extractLsb' 0 lo) = v.cast h := by
  subst h
  apply BitVec.eq_of_getLsbD_eq
  intro i hi'
  rw [BitVec.getLsbD_append, BitVec.getLsbD_extractLsb', BitVec.getLsbD_extractLsb', BitVec.getLsbD_cast]
  split
  · simp [*]
  · rw [decide_eq_true (by omega), Bool.true_and]
    congr 1; omega

@[simp] theorem immI_fieldsI (imm : BitVec 12) (rs1 : BitVec 5) (f3 : BitVec 3) (rd : BitVec 5) (op : BitVec 7) :
    (fieldsI imm rs1 f3 rd op).immI = imm :=
  append_extractLsb'_low 5 7 imm rfl

@[simp] theorem immS_fieldsS (imm : BitVec 12) (rs2 rs1 : BitVec 5) (f3 : BitVec 3) (op : BitVec 7) :
    (fieldsS imm rs2 rs1 f3 op).immS = imm :=
  append_extractLsb'_low 5 7 imm rfl

@[simp] theorem immB_fieldsB (off : BitVec 13) (rs2 rs1 : BitVec 5) (f3 : BitVec 3) (h : off.getLsbD 0 = false) :
    (fieldsB off rs2 rs1 f3).immB = off := by
  apply BitVec.eq_of_getLsbD_eq
  intro i hi
  simp only [fieldsB]
  change BitVec.getLsbD (w := 1 + 1 + 6 + 4 + 1)
    (BitVec.extractLsb' 6 1 (n := 1 + 6) _ ++ BitVec.extractLsb' 0 1 (n := 4 + 1) _ ++
      BitVec.extractLsb' 0 6 (n := 1 + 6) _ ++ BitVec.extractLsb' 1 4 (n := 4 + 1) _ ++ 0#1) i = _
  simp only [BitVec.getLsbD_append, BitVec.getLsbD_extractLsb']
  interval_cases i
  · simpa using h.symm
  all_goals simp

@[simp] theorem immU_fieldsU (imm : BitVec 20) (rd : BitVec 5) (op : BitVec 7) : (fieldsU imm rd op).immU = imm := by
  apply BitVec.eq_of_getLsbD_eq
  intro i hi
  change BitVec.getLsbD (w := 7 + 5 + 5 + 3)
    (imm.extractLsb' 13 7 ++ imm.extractLsb' 8 5 ++ imm.extractLsb' 3 5 ++ imm.extractLsb' 0 3) i = _
  simp only [BitVec.getLsbD_append, BitVec.getLsbD_extractLsb']
  repeat' split
  all_goals
    rw [decide_eq_true (by omega), Bool.true_and]
    congr 1; omega

@[simp] theorem immJ_fieldsJ (off : BitVec 21) (rd : BitVec 5) (h : off.getLsbD 0 = false) :
    (fieldsJ off rd).immJ = off := by
  have hu : (fieldsJ off rd).immU =
      off.extractLsb' 20 1 ++ off.extractLsb' 1 10 ++ off.extractLsb' 11 1 ++ off.extractLsb' 12 8 := immU_fieldsU _ _ _
  unfold Fields.immJ
  rw [hu]
  apply BitVec.eq_of_getLsbD_eq
  intro i hi
  change BitVec.getLsbD (w := 1 + 8 + 1 + 10 + 1)
    (BitVec.extractLsb' 19 1 (n := 1 + 10 + 1 + 8) _ ++ BitVec.extractLsb' 0 8 (n := 1 + 10 + 1 + 8) _ ++
      BitVec.extractLsb' 8 1 (n := 1 + 10 + 1 + 8) _ ++ BitVec.extractLsb' 9 10 (n := 1 + 10 + 1 + 8) _ ++ 0#1) i = _
  simp only [BitVec.getLsbD_append, BitVec.getLsbD_extractLsb']
  interval_cases i
  · simpa using h.symm
  all_goals simp

@[simp] theorem fence_fields (fm pred succ : BitVec 4) (rs1 : BitVec 5) (f3 : BitVec 3) (rd : BitVec 5) (op : BitVec 7) :
    (fieldsI (fm ++ pred ++ succ) rs1 f3 rd op).fenceFm = fm ∧
      (fieldsI (fm ++ pred ++ succ) rs1 f3 rd op).fencePred = pred ∧
      (fieldsI (fm ++ pred ++ succ) rs1 f3 rd op).fenceSucc = succ := by
  simp only [Fields.fenceFm, Fields.fencePred, Fields.fenceSucc, immI_fieldsI]
  refine ⟨?_, ?_, ?_⟩ <;>
  · apply BitVec.eq_of_getLsbD_eq
    intro i hi
    rw [BitVec.getLsbD_extractLsb', decide_eq_true hi, Bool.true_and]
    change BitVec.getLsbD (w := 4 + 4 + 4) (fm ++ pred ++ succ) _ = _
    simp only [BitVec.getLsbD_append]
    repeat' split
    all_goals first | omega | (congr 1; omega)

@[simp] theorem rs3_fieldsR4 (rs3 rs2 rs1 : BitVec 5) (rm : BitVec 3) (rd : BitVec 5) (op : BitVec 7) :
    (fieldsR4 rs3 rs2 rs1 rm rd op).rs3 = rs3 := by
  apply BitVec.eq_of_getLsbD_eq
  intro i hi
  change BitVec.getLsbD (BitVec.extractLsb' 2 5 (n := 5 + 2) (rs3 ++ 0b00#2)) i = _
  rw [BitVec.getLsbD_extractLsb', BitVec.getLsbD_append, decide_eq_true hi, Bool.true_and, if_neg (by omega)]
  congr 1; omega

@[simp] theorem fmt_fieldsR4 (rs3 rs2 rs1 : BitVec 5) (rm : BitVec 3) (rd : BitVec 5) (op : BitVec 7) :
    (fieldsR4 rs3 rs2 rs1 rm rd op).fmt = 0b00#2 := by
  apply BitVec.eq_of_getLsbD_eq
  intro i hi
  change BitVec.getLsbD (BitVec.extractLsb' 0 2 (n := 5 + 2) (rs3 ++ 0b00#2)) i = _
  rw [BitVec.getLsbD_extractLsb', BitVec.getLsbD_append]
  interval_cases i <;> simp

end Sys2Proof
end

