-- ==== Sys2Proof/Laws/Memory.lean ====
section
/-! SUPPORT. The laws of memory: a read after a write, byte by byte and access by access, and the canonical forms of memory and of the written-since-reset set, which every operation keeps. -/

namespace Sys2Proof.Machine

open Sys2Proof

/-! ## Reading after writing one byte -/

theorem Memory.read_filter (m : Memory) (a j : Nat) :
    Memory.read (m.filter (·.1 ≠ a)) j = if j = a then unlistedByte else Memory.read m j := by
  induction m with
  | nil => simp [Memory.read]
  | cons c rest ih =>
    obtain ⟨k, b⟩ := c
    by_cases hk : k = a
    · subst hk
      simp only [List.filter_cons, ne_eq, not_true_eq_false, decide_false, Bool.false_eq_true, if_false]
      rw [show (List.filter (fun x => decide ¬x.1 = k) rest) = rest.filter (·.1 ≠ k) from rfl, ih]
      by_cases hj : j = k
      · simp [hj]
      · simp [hj, Memory.read, Ne.symm hj]
    · simp only [List.filter_cons, ne_eq, hk, not_false_eq_true, decide_true, if_true, Memory.read]
      rw [show (List.filter (fun x => decide ¬x.1 = a) rest) = rest.filter (·.1 ≠ a) from rfl, ih]
      by_cases hj : j = a
      · subst hj; simp [hk]
      · simp [hj]

theorem Memory.read_insertCell (m : Memory) (a j : Nat) (b : Byte) (h : ∀ c ∈ m, c.1 ≠ a) :
    Memory.read (m.insertCell a b) j = if j = a then b else Memory.read m j := by
  induction m with
  | nil => simp only [Memory.insertCell, Memory.read, eq_comm]
  | cons c rest ih =>
    obtain ⟨k, d⟩ := c
    have hk : k ≠ a := h (k, d) (by simp)
    have ih := ih (fun c hc => h c (by simp [hc]))
    unfold Memory.insertCell
    split
    · by_cases hj : j = a
      · subst hj; simp [Memory.read]
      · simp [Memory.read, hj, Ne.symm hj]
    · simp only [Memory.read, ih]
      by_cases hkj : k = j
      · subst hkj; simp [hk]
      · simp [hkj]

/-- A read after a write of one byte: the written address gives the byte, every other address what it gave before. -/
theorem Memory.read_write (m : Memory) (a j : Nat) (b : Byte) :
    (m.write a b).read j = if j = a then b else m.read j := by
  unfold Memory.write
  split
  · rename_i hb
    rw [Memory.read_filter, hb]
  · rw [Memory.read_insertCell, Memory.read_filter]
    · by_cases hj : j = a <;> simp [hj]
    · intro c hc
      simpa using (List.mem_filter.mp hc).2

/-! ## Reading after writing an access -/

/-- The bytes of an access of at most four bytes stand at different addresses (20_memory.md R94). -/
theorem byteAddress_inj (addr : Word) {j k : Nat} (hj : j < 4) (hk : k < 4) :
    byteAddress addr j = byteAddress addr k ↔ j = k := by
  unfold byteAddress
  constructor
  · intro h
    simp only [BitVec.toNat_add, BitVec.toNat_ofNat] at h
    have := addr.isLt
    omega
  · rintro rfl; rfl

/-- Writing the bytes of an access one by one: byte `k` gives bits `8k+7 : 8k`, every other address what it gave before
(20_memory.md R70). -/
theorem Memory.read_writeValue (m : Memory) (addr v : Word) (n : Nat) (hn : n ≤ 4) (a : Nat) :
    ((∀ k < n, a ≠ byteAddress addr k) → (m.writeValue addr n v).read a = m.read a) ∧
      ∀ k < n, (m.writeValue addr n v).read (byteAddress addr k) = byteOfWord v k := by
  induction n with
  | zero => exact ⟨fun _ => rfl, fun k hk => absurd hk (Nat.not_lt_zero k)⟩
  | succ n ih =>
    have ih := ih (by omega)
    have e : m.writeValue addr (n + 1) v =
        (m.writeValue addr n v).write (byteAddress addr n) (byteOfWord v n) := by
      simp [Memory.writeValue, List.range_succ]
    rw [e]
    constructor
    · intro h
      rw [Memory.read_write, if_neg (h n (by omega))]
      exact ih.1 (fun k hk => h k (by omega))
    · intro k hk
      rw [Memory.read_write]
      by_cases hkn : k = n
      · subst hkn; simp
      · rw [if_neg (fun hh => hkn ((byteAddress_inj addr (by omega) (by omega)).mp hh))]
        exact ih.2 k (by omega)

theorem Memory.read_writeValue_of_ne (m : Memory) (addr v : Word) {n : Nat} (hn : n ≤ 4) {a : Nat}
    (h : ∀ k < n, a ≠ byteAddress addr k) : (m.writeValue addr n v).read a = m.read a :=
  (m.read_writeValue addr v n hn a).1 h

theorem Memory.read_writeValue_byte (m : Memory) (addr v : Word) {n k : Nat} (hn : n ≤ 4) (hk : k < n) :
    (m.writeValue addr n v).read (byteAddress addr k) = byteOfWord v k :=
  (m.read_writeValue addr v n hn 0).2 k hk

/-! ## The canonical form of memory -/

theorem Memory.wf_filter {m : Memory} (h : m.wf) (p : Host.Cell → Bool) : Memory.wf (m.filter p) :=
  ⟨h.1.filter p, fun c hc => h.2 c (List.mem_filter.mp hc).1⟩

theorem Memory.mem_insertCell {m : Memory} {a : Nat} {b : Byte} {c : Host.Cell} :
    c ∈ m.insertCell a b ↔ c = (a, b) ∨ c ∈ m := by
  induction m with
  | nil => simp [Memory.insertCell]
  | cons d rest ih =>
    obtain ⟨k, e⟩ := d
    unfold Memory.insertCell
    split
    · simp
    · simp only [List.mem_cons, ih]; tauto

theorem Memory.wf_insertCell {m : Memory} {a : Nat} {b : Byte} (h : m.wf) (ha : a < 2 ^ 32) (hb : b ≠ unlistedByte)
    (hne : ∀ c ∈ m, c.1 ≠ a) : Memory.wf (m.insertCell a b) := by
  constructor
  · induction m with
    | nil => simp [Memory.insertCell]
    | cons d rest ih =>
      obtain ⟨k, e⟩ := d
      obtain ⟨hp, hc⟩ := h
      rw [List.pairwise_cons] at hp
      have ih := ih ⟨hp.2, fun c hc' => hc c (by simp [hc'])⟩ (fun c hc' => hne c (by simp [hc']))
      have hk : k ≠ a := hne (k, e) (by simp)
      unfold Memory.insertCell
      split
      · rename_i hlt
        rw [List.pairwise_cons]
        refine ⟨?_, List.pairwise_cons.mpr hp⟩
        intro c hc'
        rcases List.mem_cons.mp hc' with rfl | hc'
        · exact hlt
        · exact lt_trans hlt (hp.1 c hc')
      · rename_i hlt
        rw [List.pairwise_cons]
        refine ⟨?_, ih⟩
        intro c hc'
        rcases Memory.mem_insertCell.mp hc' with rfl | hc'
        · show k < a; omega
        · exact hp.1 c hc'
  · intro c hc
    rcases Memory.mem_insertCell.mp hc with rfl | hc
    · exact ⟨ha, hb⟩
    · exact h.2 c hc

/-- Writing a byte keeps the canonical form. -/
theorem Memory.wf_write {m : Memory} (h : m.wf) {a : Nat} (ha : a < 2 ^ 32) (b : Byte) : (m.write a b).wf := by
  unfold Memory.write
  split
  · exact Memory.wf_filter h _
  · rename_i hb
    refine Memory.wf_insertCell (Memory.wf_filter h _) ha hb ?_
    intro c hc
    simpa using (List.mem_filter.mp hc).2

theorem byteAddress_lt (addr : Word) (k : Nat) : byteAddress addr k < 2 ^ 32 := (addr + BitVec.ofNat 32 k).isLt

/-- Writing the bytes of an access keeps the canonical form. -/
theorem Memory.wf_writeValue {m : Memory} (h : m.wf) (addr : Word) (n : Nat) (v : Word) : (m.writeValue addr n v).wf := by
  induction n with
  | zero => exact h
  | succ n ih =>
    have e : m.writeValue addr (n + 1) v =
        (m.writeValue addr n v).write (byteAddress addr n) (byteOfWord v n) := by
      simp [Memory.writeValue, List.range_succ]
    rw [e]
    exact Memory.wf_write ih (byteAddress_lt addr n) _

/-- Placing a word keeps the canonical form. -/
theorem Memory.wf_placeWord {s : State} (h : s.mem.wf) (w : Word) : (s.placeWord w).mem.wf :=
  Memory.wf_writeValue h _ _ _

/-- The memory after reset is in canonical form. -/
theorem Memory.wf_reset : State.reset.mem.wf := by decide

/-! ## The written-since-reset set -/

theorem mem_insertAddress {l : List Nat} {a b : Nat} : b ∈ insertAddress l a ↔ b = a ∨ b ∈ l := by
  induction l with
  | nil => simp [insertAddress]
  | cons k rest ih =>
    unfold insertAddress
    split
    · simp
    · split
      · rename_i h; subst h; simp
      · simp only [List.mem_cons, ih]; tauto

theorem writtenWf_insertAddress {l : List Nat} {a : Nat} (h : writtenWf l) (ha : a < 2 ^ 32) :
    writtenWf (insertAddress l a) := by
  constructor
  · induction l with
    | nil => simp [insertAddress]
    | cons k rest ih =>
      obtain ⟨hp, hc⟩ := h
      have hp' := List.pairwise_cons.mp hp
      have ih := ih ⟨hp'.2, fun c hc' => hc c (by simp [hc'])⟩
      unfold insertAddress
      split
      · rename_i hlt
        refine List.pairwise_cons.mpr ⟨?_, hp⟩
        intro c hc'
        rcases List.mem_cons.mp hc' with rfl | hc'
        · exact hlt
        · exact lt_trans hlt (hp'.1 c hc')
      · split
        · exact hp
        · refine List.pairwise_cons.mpr ⟨?_, ih⟩
          intro c hc'
          rcases mem_insertAddress.mp hc' with rfl | hc'
          · omega
          · exact hp'.1 c hc'
  · intro c hc
    rcases mem_insertAddress.mp hc with rfl | hc
    · exact ha
    · exact h.2 c hc

theorem mem_foldl_insertAddress {as l : List Nat} {b : Nat} :
    b ∈ as.foldl insertAddress l ↔ b ∈ l ∨ b ∈ as := by
  induction as generalizing l with
  | nil => simp
  | cons a as ih => simp only [List.foldl_cons, ih, mem_insertAddress, List.mem_cons]; tauto

theorem mem_accessAddresses {addr : Word} {n a : Nat} :
    a ∈ accessAddresses addr n ↔ ∃ k < n, a = byteAddress addr k := by
  simp [accessAddresses, eq_comm]

/-- A store keeps the canonical form of the written-since-reset set. -/
theorem writtenWf_storeBytes {s : State} (h : writtenWf s.written) (addr : Word) (n : Nat) (v : Word) :
    writtenWf (s.storeBytes addr n v).written := by
  have hall : ∀ a ∈ accessAddresses addr n, a < 2 ^ 32 := by
    intro a ha
    obtain ⟨k, -, rfl⟩ := mem_accessAddresses.mp ha
    exact byteAddress_lt addr k
  show writtenWf ((accessAddresses addr n).foldl insertAddress s.written)
  generalize accessAddresses addr n = as at hall
  generalize s.written = l at h
  induction as generalizing l with
  | nil => exact h
  | cons a as ih =>
    exact ih (fun b hb => hall b (by simp [hb])) _ (writtenWf_insertAddress h (hall a (by simp)))

/-- The map check of an access is the check of each of its bytes (20_memory.md R76). -/
theorem accessPermitted_iff {p : Params} {kind : Access} {addr : Word} {n : Nat} :
    accessPermitted p kind addr n = true ↔ ∀ k < n, mapPermits p.memMap kind (byteAddress addr k) = true := by
  simp [accessPermitted, accessAddresses]

end Sys2Proof.Machine
end

