-- ==== Sys2Proof/Laws/Numerics.lean ====
section
/-! SUPPORT. One lemma per function of Numerics that says what it computes over the real numbers: the integer square root, the exponent, the floor at a spacing, the integer that the rounding takes, and the pattern of a number (45_float_arith.md R310, R312). -/

namespace Sys2Proof.Machine

open Sys2Proof

/-! ## Exact magnitudes -/

/-- The real number that an exact magnitude stands for. -/
noncomputable def Magnitude.value : Magnitude → ℝ
  | .ratio num den => (num : ℝ) / den
  | .root num den => Real.sqrt ((num : ℝ) / den)

theorem isqrtFrom_spec (n : Nat) : ∀ bits root : Nat, root * root ≤ n → n < (root + 2 ^ bits) * (root + 2 ^ bits) →
    isqrtFrom n bits root * isqrtFrom n bits root ≤ n ∧ n < (isqrtFrom n bits root + 1) * (isqrtFrom n bits root + 1)
  | 0, root, h1, h2 => ⟨h1, by simpa [isqrtFrom] using h2⟩
  | bits + 1, root, h1, h2 => by
    unfold isqrtFrom
    split
    · rename_i h
      exact isqrtFrom_spec n bits _ h (by rw [pow_succ] at h2; convert h2 using 2 <;> ring)
    · rename_i h
      exact isqrtFrom_spec n bits root h1 (by omega)

/-- `isqrt` is the floor of the square root. -/
theorem isqrt_spec (n : Nat) : isqrt n * isqrt n ≤ n ∧ n < (isqrt n + 1) * (isqrt n + 1) := by
  refine isqrtFrom_spec n _ 0 (by simp) ?_
  have h : n < 2 ^ (n.log2 + 1) := Nat.lt_log2_self
  have h2 : 2 ^ (n.log2 + 1) ≤ 2 ^ (2 * (n.log2 / 2 + 1)) := Nat.pow_le_pow_right (by decide) (by omega)
  calc n < 2 ^ (2 * (n.log2 / 2 + 1)) := by omega
    _ = _ := by rw [two_mul, pow_add]; simp

theorem isqrt_eq_sqrt (n : Nat) : isqrt n = Nat.sqrt n := by
  have h := isqrt_spec n
  exact (Nat.eq_sqrt.mpr ⟨by simpa using h.1, by simpa using h.2⟩)

/-! ## The exponent -/

theorem two_zpow_toNat (l : ℤ) : (2 : ℝ) ^ l.toNat / (2 : ℝ) ^ (-l).toNat = (2 : ℝ) ^ l := by
  rcases le_total 0 l with h | h
  · obtain ⟨n, rfl⟩ := Int.eq_ofNat_of_zero_le h
    simp
  · obtain ⟨n, hn⟩ := Int.eq_ofNat_of_zero_le (Int.neg_nonneg.mpr h)
    have hl : l = -(n : ℤ) := by omega
    subst hl
    simp

/-- `ratioLog2` is the floor of the logarithm. -/
theorem ratioLog2_spec {num den : Nat} (hn : 0 < num) (hd : 0 < den) :
    (2 : ℝ) ^ ratioLog2 num den ≤ (num : ℝ) / den ∧ (num : ℝ) / den < (2 : ℝ) ^ (ratioLog2 num den + 1) := by
  have hd' : (0 : ℝ) < den := by exact_mod_cast hd
  have n1 : (2 : ℝ) ^ num.log2 ≤ num := by exact_mod_cast Nat.log2_self_le (by omega)
  have n2 : (num : ℝ) < (2 : ℝ) ^ (num.log2 + 1) := by exact_mod_cast Nat.lt_log2_self
  have d1 : (2 : ℝ) ^ den.log2 ≤ den := by exact_mod_cast Nat.log2_self_le (by omega)
  have d2 : (den : ℝ) < (2 : ℝ) ^ (den.log2 + 1) := by exact_mod_cast Nat.lt_log2_self
  set l : ℤ := (num.log2 : ℤ) - (den.log2 : ℤ) with hl
  have hp : (2 : ℝ) ^ l = (2 : ℝ) ^ num.log2 / (2 : ℝ) ^ den.log2 := by
    rw [hl, zpow_sub₀ (by norm_num)]; simp
  have up : (num : ℝ) / den < (2 : ℝ) ^ (l + 1) := by
    rw [zpow_add₀ (by norm_num), hp, div_lt_iff₀ hd', zpow_one, div_mul_eq_mul_div, div_mul_eq_mul_div,
      lt_div_iff₀ (by positivity)]
    rw [pow_succ] at n2
    nlinarith [pow_pos (show (0 : ℝ) < 2 by norm_num) num.log2, pow_pos (show (0 : ℝ) < 2 by norm_num) den.log2]
  have low : (2 : ℝ) ^ (l - 1) ≤ (num : ℝ) / den := by
    rw [zpow_sub₀ (by norm_num), hp, zpow_one, div_div, div_le_div_iff₀ (by positivity) hd']
    rw [pow_succ] at d2
    nlinarith [pow_pos (show (0 : ℝ) < 2 by norm_num) num.log2, pow_pos (show (0 : ℝ) < 2 by norm_num) den.log2]
  have test : den * 2 ^ l.toNat ≤ num * 2 ^ (-l).toNat ↔ (2 : ℝ) ^ l ≤ (num : ℝ) / den := by
    rw [← two_zpow_toNat l, div_le_div_iff₀ (by positivity) hd', ← Nat.cast_le (α := ℝ)]
    push_cast
    rw [mul_comm]
  have unfolded : ratioLog2 num den = if den * 2 ^ l.toNat ≤ num * 2 ^ (-l).toNat then l else l - 1 := rfl
  rw [unfolded]
  split
  · exact ⟨test.mp ‹_›, up⟩
  · refine ⟨low, ?_⟩
    rw [sub_add_cancel]
    exact lt_of_not_ge (fun h => ‹¬_› (test.mpr h))

/-- The denominators and numerators of a magnitude are positive. -/
def Magnitude.Pos : Magnitude → Prop
  | .ratio num den => 0 < num ∧ 0 < den
  | .root num den => 0 < num ∧ 0 < den

theorem Magnitude.value_pos {v : Magnitude} (h : v.Pos) : 0 < v.value := by
  cases v <;> obtain ⟨h1, h2⟩ := h <;> simp only [Magnitude.value] <;> positivity

/-- `floorLog2` is the floor of the logarithm of the magnitude: the `E` of R312. -/
theorem floorLog2_spec {v : Magnitude} (h : v.Pos) :
    (2 : ℝ) ^ floorLog2 v ≤ v.value ∧ v.value < (2 : ℝ) ^ (floorLog2 v + 1) := by
  cases v with
  | ratio num den => exact ratioLog2_spec h.1 h.2
  | root num den =>
    have r := ratioLog2_spec h.1 h.2
    set l := ratioLog2 num den with hl
    have e : floorLog2 (.root num den) = l / 2 := rfl
    rw [e]
    simp only [Magnitude.value]
    have sq : ∀ j : ℤ, ((2 : ℝ) ^ j) ^ 2 = (2 : ℝ) ^ (2 * j) := by
      intro j; rw [← zpow_natCast, ← zpow_mul]; congr 1; push_cast; ring
    constructor
    · apply Real.le_sqrt_of_sq_le
      rw [sq]
      exact le_trans (zpow_le_zpow_right₀ (by norm_num) (by omega)) r.1
    · rw [Real.sqrt_lt' (by positivity), sq]
      exact lt_of_lt_of_le r.2 (zpow_le_zpow_right₀ (by norm_num) (by omega))

/-! ## The floor at a spacing -/

theorem floor_ratio (a b : Nat) (hb : 0 < b) :
    ⌊(a : ℝ) / b⌋ = ((a / b : Nat) : ℤ) ∧ (a % b = 0 ↔ Int.fract ((a : ℝ) / b) = 0) := by
  have hb' : (0 : ℝ) < b := by exact_mod_cast hb
  have hf : ⌊(a : ℝ) / b⌋ = ((a / b : Nat) : ℤ) := by
    rw [← Nat.floor_div_eq_div (K := ℝ), Int.natCast_floor_eq_floor (by positivity)]
  refine ⟨hf, ?_⟩
  rw [← Int.self_sub_floor, hf, sub_eq_zero, div_eq_iff hb'.ne']
  have := Nat.div_add_mod a b
  constructor
  · intro h
    have e : a = a / b * b := by rw [mul_comm]; omega
    exact_mod_cast e
  · intro h
    have e : a = a / b * b := by exact_mod_cast h
    rw [mul_comm] at e
    omega

/-- `floorAt` is the floor of the magnitude over `2^k`, and says whether that quotient is an integer. -/
theorem floorAt_spec {v : Magnitude} (h : v.Pos) (k : ℤ) :
    ⌊v.value / (2 : ℝ) ^ k⌋ = ((floorAt v k).1 : ℤ) ∧ ((floorAt v k).2 = true ↔ Int.fract (v.value / (2 : ℝ) ^ k) = 0) := by
  have scale : ∀ (num den : Nat) (j : ℤ), 0 < den →
      (num : ℝ) / den / (2 : ℝ) ^ j = ((num * 2 ^ (-j).toNat : Nat) : ℝ) / ((den * 2 ^ j.toNat : Nat) : ℝ) := by
    intro num den j hd
    have hd' : (den : ℝ) ≠ 0 := by positivity
    rw [← two_zpow_toNat j]
    push_cast
    field_simp
  cases v with
  | ratio num den =>
    have hb : 0 < den * 2 ^ k.toNat := Nat.mul_pos h.2 (by positivity)
    have f := floor_ratio (num * 2 ^ (-k).toNat) (den * 2 ^ k.toNat) hb
    simp only [Magnitude.value, floorAt, beq_iff_eq]
    rw [scale num den k h.2]
    exact f
  | root num den =>
    have hb : 0 < den * 2 ^ (2 * k).toNat := Nat.mul_pos h.2 (by positivity)
    simp only [floorAt, beq_iff_eq]
    set a := num * 2 ^ (-(2 * k)).toNat with ha
    set b := den * 2 ^ (2 * k).toNat with hbdef
    set r := isqrt (a / b) with hr
    have hb' : (0 : ℝ) < b := by exact_mod_cast hb
    have spec := isqrt_spec (a / b)
    rw [← hr] at spec
    have val : (Magnitude.root num den).value / (2 : ℝ) ^ k = Real.sqrt ((a : ℝ) / b) := by
      have e : (a : ℝ) / b = (num : ℝ) / den / ((2 : ℝ) ^ k) ^ 2 := by
        rw [ha, hbdef, ← scale num den (2 * k) h.2]
        congr 1
        rw [← zpow_natCast, ← zpow_mul]; congr 1; push_cast; ring
      rw [e, Real.sqrt_div' _ (by positivity), Real.sqrt_sq (by positivity)]
      rfl
    rw [val]
    have l1 : ((r : ℝ)) ^ 2 ≤ (a : ℝ) / b := by
      rw [le_div_iff₀ hb']
      have : r * r * b ≤ a := le_trans (Nat.mul_le_mul_right b spec.1) (Nat.div_mul_le_self a b)
      have : ((r * r * b : Nat) : ℝ) ≤ a := by exact_mod_cast this
      push_cast at this
      nlinarith
    have l2 : (a : ℝ) / b < ((r : ℝ) + 1) ^ 2 := by
      rw [div_lt_iff₀ hb']
      have : a < (r + 1) * (r + 1) * b := (Nat.div_lt_iff_lt_mul hb).mp spec.2
      have : (a : ℝ) < (((r + 1) * (r + 1) * b : Nat) : ℝ) := by exact_mod_cast this
      push_cast at this
      nlinarith
    have s1 : (r : ℝ) ≤ Real.sqrt ((a : ℝ) / b) := Real.le_sqrt_of_sq_le l1
    have s2 : Real.sqrt ((a : ℝ) / b) < (r : ℝ) + 1 := (Real.sqrt_lt' (by positivity)).mpr l2
    have hf : ⌊Real.sqrt ((a : ℝ) / b)⌋ = (r : ℤ) := Int.floor_eq_iff.mpr ⟨by exact_mod_cast s1, by exact_mod_cast s2⟩
    refine ⟨hf, ?_⟩
    rw [← Int.self_sub_floor, hf, sub_eq_zero]
    push_cast
    constructor
    · intro e
      have e' : (r : ℝ) * r * b = a := by exact_mod_cast e
      rw [← e', mul_div_assoc, div_self hb'.ne', mul_one, Real.sqrt_mul_self (by positivity)]
    · intro e
      have e' : (a : ℝ) / b = r * r := by
        rw [← e, Real.mul_self_sqrt (by positivity)]
      rw [div_eq_iff hb'.ne'] at e'
      exact_mod_cast e'.symm

/-! ## The rounding -/

/-- Halving: the floor and the fraction of a number from those of its double. -/
theorem floor_half (t : ℝ) (m : ℕ) (h : ⌊2 * t⌋ = (m : ℤ)) :
    ⌊t⌋ = ((m / 2 : ℕ) : ℤ) ∧ (m % 2 = 1 ↔ 1 / 2 ≤ Int.fract t) ∧
      (Int.fract t = 1 / 2 ↔ m % 2 = 1 ∧ Int.fract (2 * t) = 0) ∧
      (Int.fract t = 0 ↔ m % 2 = 0 ∧ Int.fract (2 * t) = 0) := by
  have hb := Int.floor_eq_iff.mp h
  have hm : (m : ℝ) = 2 * ((m / 2 : ℕ) : ℝ) + ((m % 2 : ℕ) : ℝ) := by exact_mod_cast (Nat.div_add_mod m 2).symm
  have hr : (((m % 2 : ℕ) : ℝ)) = 0 ∨ ((m % 2 : ℕ) : ℝ) = 1 := by
    rcases Nat.mod_two_eq_zero_or_one m with e | e <;> simp [e]
  have hf : ⌊t⌋ = ((m / 2 : ℕ) : ℤ) := by
    rw [Int.floor_eq_iff]
    simp only [Int.cast_natCast] at hb ⊢
    constructor <;> rcases hr with e | e <;> linarith [hb.1, hb.2]
  have f1 : Int.fract t = t - ((m / 2 : ℕ) : ℝ) := by rw [← Int.self_sub_floor, hf, Int.cast_natCast]
  have f2 : Int.fract (2 * t) = 2 * t - m := by rw [← Int.self_sub_floor, h, Int.cast_natCast]
  have b1 : (m : ℝ) ≤ 2 * t := by exact_mod_cast hb.1
  have b2 : 2 * t < m + 1 := by exact_mod_cast hb.2
  refine ⟨hf, ?_, ?_, ?_⟩
  · rw [f1]
    rcases Nat.mod_two_eq_zero_or_one m with e | e <;> rw [e] at hm ⊢ <;> push_cast at hm
    · constructor
      · intro h0; omega
      · intro h0; exfalso; linarith
    · exact ⟨fun _ => by linarith, fun _ => rfl⟩
  · rw [f1, f2]
    rcases Nat.mod_two_eq_zero_or_one m with e | e <;> rw [e] at hm ⊢ <;> push_cast at hm
    · constructor
      · intro h0; exfalso; linarith
      · intro h0; omega
    · exact ⟨fun h0 => ⟨rfl, by linarith⟩, fun h0 => by linarith [h0.2]⟩
  · rw [f1, f2]
    rcases Nat.mod_two_eq_zero_or_one m with e | e <;> rw [e] at hm ⊢ <;> push_cast at hm
    · exact ⟨fun h0 => ⟨rfl, by linarith⟩, fun h0 => by linarith [h0.2]⟩
    · constructor
      · intro h0; exfalso; linarith
      · intro h0; omega

/-- `roundAt` takes the integer of R312 for the spacing `2^k`, and says whether the quotient was no integer. -/
theorem roundAt_spec {v : Magnitude} (h : v.Pos) (mode : RoundingMode) (neg : Bool) (k : ℤ) :
    RoundedInteger mode (neg = true) (v.value / (2 : ℝ) ^ k) ((roundAt mode neg v k).1 : ℤ) ∧
      ((roundAt mode neg v k).2 = true ↔ Int.fract (v.value / (2 : ℝ) ^ k) ≠ 0) := by
  have fs := floorAt_spec h (k - 1)
  have e : v.value / (2 : ℝ) ^ (k - 1) = 2 * (v.value / (2 : ℝ) ^ k) := by
    rw [zpow_sub₀ (by norm_num), zpow_one]; field_simp
  rw [e] at fs
  obtain ⟨hf, hhalf, htie, hzero⟩ := floor_half _ _ fs.1
  set t := v.value / (2 : ℝ) ^ k with ht
  set m := (floorAt v (k - 1)).1 with hm
  have hb : (floorAt v (k - 1)).2 = true ↔ Int.fract (2 * t) = 0 := fs.2
  have inex : (roundAt mode neg v k).2 = true ↔ Int.fract t ≠ 0 := by
    show ((m % 2 == 1) || !(floorAt v (k - 1)).2) = true ↔ _
    rw [Bool.or_eq_true, beq_iff_eq, Bool.not_eq_true', ← Bool.not_eq_true, hb, Ne, hzero]
    rcases Nat.mod_two_eq_zero_or_one m with e | e <;> rw [e] <;> simp
  refine ⟨?_, inex⟩
  have up : RoundsUp mode (neg = true) t ↔ (roundAt mode neg v k).1 = m / 2 + 1 := by
    have strict : 1 / 2 < Int.fract t ↔ m % 2 = 1 ∧ Int.fract (2 * t) ≠ 0 := by
      rw [lt_iff_le_and_ne, ← hhalf]
      constructor
      · rintro ⟨h1, h2⟩; exact ⟨h1, fun h3 => h2 (htie.mpr ⟨h1, h3⟩).symm⟩
      · rintro ⟨h1, h2⟩; exact ⟨h1, fun h3 => h2 (htie.mp h3.symm).2⟩
    have frac : Int.fract t ≠ 0 ↔ (m % 2 == 1 || !(floorAt v (k - 1)).2) = true := inex.symm
    have odd : ⌊t⌋ % 2 = 1 ↔ m / 2 % 2 = 1 := by rw [hf]; omega
    cases mode
    · show _ ↔ (if (m % 2 == 1 && (!(floorAt v (k - 1)).2 || m / 2 % 2 == 1)) = true then m / 2 + 1 else m / 2) = _
      unfold RoundsUp
      rw [strict, htie, odd, Ne, ← hb]
      rcases Nat.mod_two_eq_zero_or_one m with e | e <;> rw [e] <;>
        cases (floorAt v (k - 1)).2 <;> by_cases h2 : m / 2 % 2 = 1 <;> simp [h2]
    · show _ ↔ (if false = true then m / 2 + 1 else m / 2) = _
      unfold RoundsUp; simp
    · show _ ↔ (if (neg && (m % 2 == 1 || !(floorAt v (k - 1)).2)) = true then m / 2 + 1 else m / 2) = _
      unfold RoundsUp
      rw [frac]
      cases neg <;> cases (m % 2 == 1 || !(floorAt v (k - 1)).2) <;> simp
    · show _ ↔ (if (!neg && (m % 2 == 1 || !(floorAt v (k - 1)).2)) = true then m / 2 + 1 else m / 2) = _
      unfold RoundsUp
      rw [frac]
      cases neg <;> cases (m % 2 == 1 || !(floorAt v (k - 1)).2) <;> simp
    · show _ ↔ (if (m % 2 == 1) = true then m / 2 + 1 else m / 2) = _
      unfold RoundsUp
      rw [← hhalf]
      rcases Nat.mod_two_eq_zero_or_one m with e | e <;> rw [e] <;> simp
  have two : (roundAt mode neg v k).1 = m / 2 + 1 ∨ (roundAt mode neg v k).1 = m / 2 := by
    have choice : ∀ c : Bool, (if c = true then m / 2 + 1 else m / 2) = m / 2 + 1 ∨
        (if c = true then m / 2 + 1 else m / 2) = m / 2 := by intro c; cases c <;> simp
    exact choice _
  constructor
  · intro hu
    rw [hf, up.mp hu]; push_cast; rfl
  · intro hu
    rcases two with e | e
    · exact absurd (up.mpr e) hu
    · rw [hf, e]

/-! ## Patterns and values -/

/-- A pattern as a number: its sign above its low 31 bits. -/
theorem toNat_ofBool_append (neg : Bool) (y : BitVec 31) :
    (BitVec.ofBool neg ++ y).toNat = (if neg then 2 ^ 31 else 0) + y.toNat := by
  rw [BitVec.toNat_append, ← Nat.shiftLeft_add_eq_or_of_lt y.isLt]
  cases neg <;> simp [Nat.shiftLeft_eq]

theorem fpSign_append (neg : Bool) (y : BitVec 31) : fpSign (BitVec.ofBool neg ++ y) = neg := by
  unfold fpSign
  rw [BitVec.msb_eq_decide, toNat_ofBool_append]
  have := y.isLt
  cases neg
  · simpa using this
  · simp

theorem fpExponent_append (neg : Bool) (y : BitVec 31) :
    fpExponent (BitVec.ofBool neg ++ y) = y.toNat / 2 ^ 23 := by
  unfold fpExponent
  rw [BitVec.extractLsb'_toNat, toNat_ofBool_append, Nat.shiftRight_eq_div_pow]
  have := y.isLt
  cases neg <;> simp only [if_true, Bool.false_eq_true, if_false] <;> omega

theorem fpFraction_append (neg : Bool) (y : BitVec 31) :
    fpFraction (BitVec.ofBool neg ++ y) = y.toNat % 2 ^ 23 := by
  unfold fpFraction
  rw [BitVec.extractLsb'_toNat, toNat_ofBool_append, Nat.shiftRight_zero]
  cases neg <;> simp only [if_true, Bool.false_eq_true, if_false] <;> omega

theorem fpFraction_lt (a : Word) : fpFraction a < 2 ^ 23 := (a.extractLsb' 0 23).isLt

theorem fpExponent_lt (a : Word) : fpExponent a < 256 := (a.extractLsb' 23 8).isLt

/-- The number that `packNumber` spells: its sign, its magnitude in units of `2^-149`, and that it is finite. -/
theorem packNumber_spec (neg : Bool) (r j : ℕ) (hr : r ≤ 2 ^ 24) (hn : 0 < j → 2 ^ 23 ≤ r) (hf : r * 2 ^ j < 2 ^ 277) :
    let a := packNumber neg r ((j : ℤ) - 149)
    fpSign a = neg ∧ isFinite a = true ∧ unitsMagnitude a = r * 2 ^ j := by
  intro a
  have hj : j ≤ 253 := by
    by_contra hc
    have h1 : 2 ^ 23 * 2 ^ 254 ≤ r * 2 ^ j :=
      Nat.mul_le_mul (hn (by omega)) (Nat.pow_le_pow_right (by decide) (by omega))
    rw [← pow_add, show 23 + 254 = 277 from rfl] at h1
    exact absurd h1 (Nat.not_le.mpr hf)
  have hj2 : r = 2 ^ 24 → j ≤ 252 := by
    intro e
    by_contra hc
    have h1 : 2 ^ 24 * 2 ^ 253 ≤ r * 2 ^ j :=
      Nat.mul_le_mul (by omega) (Nat.pow_le_pow_right (by decide) (by omega))
    rw [← pow_add, show 24 + 253 = 277 from rfl] at h1
    exact absurd h1 (Nat.not_le.mpr hf)
  have ha : a = BitVec.ofBool neg ++ BitVec.ofNat 31 (j * 2 ^ 23 + r) := by
    show BitVec.ofBool neg ++ BitVec.ofNat 31 (((j : ℤ) - 149 + 149).toNat * 2 ^ 23 + r) = _
    rw [sub_add_cancel, Int.toNat_natCast]
  have hN : (BitVec.ofNat 31 (j * 2 ^ 23 + r)).toNat = j * 2 ^ 23 + r := by
    rw [BitVec.toNat_ofNat]; omega
  have hexp : fpExponent a = (j * 2 ^ 23 + r) / 2 ^ 23 := by rw [ha, fpExponent_append, hN]
  have hfrac : fpFraction a = (j * 2 ^ 23 + r) % 2 ^ 23 := by rw [ha, fpFraction_append, hN]
  refine ⟨by rw [ha, fpSign_append], ?_, ?_⟩
  · have : fpExponent a ≠ 255 := by rw [hexp]; omega
    simpa [isFinite] using this
  · unfold unitsMagnitude
    rw [hexp, hfrac]
    rcases Nat.lt_or_ge r (2 ^ 23) with h | h
    · have hj0 : j = 0 := by by_contra hc; exact absurd (hn (by omega)) (by omega)
      subst hj0
      rw [if_pos (by omega)]; omega
    · rcases Nat.lt_or_ge r (2 ^ 24) with h' | h'
      · have e1 : (j * 2 ^ 23 + r) / 2 ^ 23 = j + 1 := by omega
        have e2 : 2 ^ 23 + (j * 2 ^ 23 + r) % 2 ^ 23 = r := by omega
        rw [if_neg (by omega), e1, e2, Nat.add_sub_cancel]
      · have hr' : r = 2 ^ 24 := by omega
        subst hr'
        have e1 : (j * 2 ^ 23 + 2 ^ 24) / 2 ^ 23 = j + 2 := by omega
        have e2 : 2 ^ 23 + (j * 2 ^ 23 + 2 ^ 24) % 2 ^ 23 = 2 ^ 23 := by omega
        rw [if_neg (by omega), e1, e2, show j + 2 - 1 = j + 1 by omega, pow_succ]
        ring

/-- The value of a pattern is its count of units of `2^-149` (45_float_arith.md R310). -/
theorem fpValue_eq_units (a : Word) : fpValue a = (units a : ℚ) / 2 ^ 149 := by
  have mag : (if fpExponent a = 0 then (fpFraction a : ℚ) / 2 ^ 149
      else ((2 ^ 23 + fpFraction a : ℕ) : ℚ) * 2 ^ fpExponent a / 2 ^ 150) = (unitsMagnitude a : ℚ) / 2 ^ 149 := by
    unfold unitsMagnitude
    split
    · rfl
    · rename_i h
      obtain ⟨e, he⟩ := Nat.exists_eq_succ_of_ne_zero h
      rw [he, Nat.succ_sub_one, Nat.succ_eq_add_one, pow_succ (2 : ℚ) e]
      push_cast
      ring
  unfold fpValue units
  rw [mag]
  split <;> simp [neg_div]

theorem abs_fpValue (a : Word) : |fpValue a| = (unitsMagnitude a : ℚ) / 2 ^ 149 := by
  rw [fpValue_eq_units, abs_div, abs_of_pos (show (0 : ℚ) < 2 ^ 149 by positivity)]
  unfold units
  split <;> simp

end Sys2Proof.Machine
end

