-- ==== Sys2Proof/Laws/State.lean ====
section
/-! SUPPORT. The small lemmas of the state's updates: what each field holds after each update, and what each accessor reads, so that no later proof unfolds a record update. -/

namespace Sys2Proof.Machine

open Sys2Proof

/-! ## Fields after updates -/

@[simp] theorem State.f_setX (s : State) (i : XReg) (v : Word) :
    (s.setX i v).f = s.f := by
  unfold State.setX; split <;> rfl

@[simp] theorem State.pc_setX (s : State) (i : XReg) (v : Word) :
    (s.setX i v).pc = s.pc := by
  unfold State.setX; split <;> rfl

@[simp] theorem State.fcsr_setX (s : State) (i : XReg) (v : Word) :
    (s.setX i v).fcsr = s.fcsr := by
  unfold State.setX; split <;> rfl

@[simp] theorem State.mem_setX (s : State) (i : XReg) (v : Word) :
    (s.setX i v).mem = s.mem := by
  unfold State.setX; split <;> rfl

@[simp] theorem State.written_setX (s : State) (i : XReg) (v : Word) :
    (s.setX i v).written = s.written := by
  unfold State.setX; split <;> rfl

@[simp] theorem State.outcome_setX (s : State) (i : XReg) (v : Word) :
    (s.setX i v).outcome = s.outcome := by
  unfold State.setX; split <;> rfl

@[simp] theorem State.params_setX (s : State) (i : XReg) (v : Word) :
    (s.setX i v).params = s.params := by
  unfold State.setX; split <;> rfl

@[simp] theorem State.x_setF (s : State) (i : FReg) (v : Word) :
    (s.setF i v).x = s.x := rfl

@[simp] theorem State.pc_setF (s : State) (i : FReg) (v : Word) :
    (s.setF i v).pc = s.pc := rfl

@[simp] theorem State.fcsr_setF (s : State) (i : FReg) (v : Word) :
    (s.setF i v).fcsr = s.fcsr := rfl

@[simp] theorem State.mem_setF (s : State) (i : FReg) (v : Word) :
    (s.setF i v).mem = s.mem := rfl

@[simp] theorem State.written_setF (s : State) (i : FReg) (v : Word) :
    (s.setF i v).written = s.written := rfl

@[simp] theorem State.outcome_setF (s : State) (i : FReg) (v : Word) :
    (s.setF i v).outcome = s.outcome := rfl

@[simp] theorem State.params_setF (s : State) (i : FReg) (v : Word) :
    (s.setF i v).params = s.params := rfl

@[simp] theorem State.x_setPc (s : State) (v : Word) :
    (s.setPc v).x = s.x := rfl

@[simp] theorem State.f_setPc (s : State) (v : Word) :
    (s.setPc v).f = s.f := rfl

@[simp] theorem State.pc_setPc (s : State) (v : Word) :
    (s.setPc v).pc = v := rfl

@[simp] theorem State.fcsr_setPc (s : State) (v : Word) :
    (s.setPc v).fcsr = s.fcsr := rfl

@[simp] theorem State.mem_setPc (s : State) (v : Word) :
    (s.setPc v).mem = s.mem := rfl

@[simp] theorem State.written_setPc (s : State) (v : Word) :
    (s.setPc v).written = s.written := rfl

@[simp] theorem State.outcome_setPc (s : State) (v : Word) :
    (s.setPc v).outcome = s.outcome := rfl

@[simp] theorem State.params_setPc (s : State) (v : Word) :
    (s.setPc v).params = s.params := rfl

@[simp] theorem State.x_advance (s : State) :
    (s.advance).x = s.x := rfl

@[simp] theorem State.f_advance (s : State) :
    (s.advance).f = s.f := rfl

@[simp] theorem State.pc_advance (s : State) :
    (s.advance).pc = s.pc + 4#32 := rfl

@[simp] theorem State.fcsr_advance (s : State) :
    (s.advance).fcsr = s.fcsr := rfl

@[simp] theorem State.mem_advance (s : State) :
    (s.advance).mem = s.mem := rfl

@[simp] theorem State.written_advance (s : State) :
    (s.advance).written = s.written := rfl

@[simp] theorem State.outcome_advance (s : State) :
    (s.advance).outcome = s.outcome := rfl

@[simp] theorem State.params_advance (s : State) :
    (s.advance).params = s.params := rfl

@[simp] theorem State.x_setFcsr (s : State) (v : BitVec 8) :
    (s.setFcsr v).x = s.x := rfl

@[simp] theorem State.f_setFcsr (s : State) (v : BitVec 8) :
    (s.setFcsr v).f = s.f := rfl

@[simp] theorem State.pc_setFcsr (s : State) (v : BitVec 8) :
    (s.setFcsr v).pc = s.pc := rfl

@[simp] theorem State.fcsr_setFcsr (s : State) (v : BitVec 8) :
    (s.setFcsr v).fcsr = v := rfl

@[simp] theorem State.mem_setFcsr (s : State) (v : BitVec 8) :
    (s.setFcsr v).mem = s.mem := rfl

@[simp] theorem State.written_setFcsr (s : State) (v : BitVec 8) :
    (s.setFcsr v).written = s.written := rfl

@[simp] theorem State.outcome_setFcsr (s : State) (v : BitVec 8) :
    (s.setFcsr v).outcome = s.outcome := rfl

@[simp] theorem State.params_setFcsr (s : State) (v : BitVec 8) :
    (s.setFcsr v).params = s.params := rfl

@[simp] theorem State.x_raise (s : State) (c : Cause) (w : Word) :
    (s.raise c w).x = s.x := rfl

@[simp] theorem State.f_raise (s : State) (c : Cause) (w : Word) :
    (s.raise c w).f = s.f := rfl

@[simp] theorem State.pc_raise (s : State) (c : Cause) (w : Word) :
    (s.raise c w).pc = s.pc := rfl

@[simp] theorem State.fcsr_raise (s : State) (c : Cause) (w : Word) :
    (s.raise c w).fcsr = s.fcsr := rfl

@[simp] theorem State.mem_raise (s : State) (c : Cause) (w : Word) :
    (s.raise c w).mem = s.mem := rfl

@[simp] theorem State.written_raise (s : State) (c : Cause) (w : Word) :
    (s.raise c w).written = s.written := rfl

@[simp] theorem State.outcome_raise (s : State) (c : Cause) (w : Word) :
    (s.raise c w).outcome = .trapped { cause := c, pc := s.pc, info := w } := rfl

@[simp] theorem State.params_raise (s : State) (c : Cause) (w : Word) :
    (s.raise c w).params = s.params := rfl

@[simp] theorem State.x_accrue (s : State) (fl : FpFlags) :
    (s.accrue fl).x = s.x := rfl

@[simp] theorem State.f_accrue (s : State) (fl : FpFlags) :
    (s.accrue fl).f = s.f := rfl

@[simp] theorem State.pc_accrue (s : State) (fl : FpFlags) :
    (s.accrue fl).pc = s.pc := rfl

@[simp] theorem State.fcsr_accrue (s : State) (fl : FpFlags) :
    (s.accrue fl).fcsr = s.frm ++ (s.fflags ||| fl) := rfl

@[simp] theorem State.mem_accrue (s : State) (fl : FpFlags) :
    (s.accrue fl).mem = s.mem := rfl

@[simp] theorem State.written_accrue (s : State) (fl : FpFlags) :
    (s.accrue fl).written = s.written := rfl

@[simp] theorem State.outcome_accrue (s : State) (fl : FpFlags) :
    (s.accrue fl).outcome = s.outcome := rfl

@[simp] theorem State.params_accrue (s : State) (fl : FpFlags) :
    (s.accrue fl).params = s.params := rfl

@[simp] theorem State.x_csrWrite (s : State) (n : CsrName) (v : Word) :
    (s.csrWrite n v).x = s.x := by
  cases n <;> rfl

@[simp] theorem State.f_csrWrite (s : State) (n : CsrName) (v : Word) :
    (s.csrWrite n v).f = s.f := by
  cases n <;> rfl

@[simp] theorem State.pc_csrWrite (s : State) (n : CsrName) (v : Word) :
    (s.csrWrite n v).pc = s.pc := by
  cases n <;> rfl

@[simp] theorem State.mem_csrWrite (s : State) (n : CsrName) (v : Word) :
    (s.csrWrite n v).mem = s.mem := by
  cases n <;> rfl

@[simp] theorem State.written_csrWrite (s : State) (n : CsrName) (v : Word) :
    (s.csrWrite n v).written = s.written := by
  cases n <;> rfl

@[simp] theorem State.outcome_csrWrite (s : State) (n : CsrName) (v : Word) :
    (s.csrWrite n v).outcome = s.outcome := by
  cases n <;> rfl

@[simp] theorem State.params_csrWrite (s : State) (n : CsrName) (v : Word) :
    (s.csrWrite n v).params = s.params := by
  cases n <;> rfl

@[simp] theorem State.x_storeBytes (s : State) (addr : Word) (n : Nat) (v : Word) :
    (s.storeBytes addr n v).x = s.x := rfl

@[simp] theorem State.f_storeBytes (s : State) (addr : Word) (n : Nat) (v : Word) :
    (s.storeBytes addr n v).f = s.f := rfl

@[simp] theorem State.pc_storeBytes (s : State) (addr : Word) (n : Nat) (v : Word) :
    (s.storeBytes addr n v).pc = s.pc := rfl

@[simp] theorem State.fcsr_storeBytes (s : State) (addr : Word) (n : Nat) (v : Word) :
    (s.storeBytes addr n v).fcsr = s.fcsr := rfl

@[simp] theorem State.mem_storeBytes (s : State) (addr : Word) (n : Nat) (v : Word) :
    (s.storeBytes addr n v).mem = s.mem.writeValue addr n v := rfl

@[simp] theorem State.written_storeBytes (s : State) (addr : Word) (n : Nat) (v : Word) :
    (s.storeBytes addr n v).written = (accessAddresses addr n).foldl insertAddress s.written := rfl

@[simp] theorem State.outcome_storeBytes (s : State) (addr : Word) (n : Nat) (v : Word) :
    (s.storeBytes addr n v).outcome = s.outcome := rfl

@[simp] theorem State.params_storeBytes (s : State) (addr : Word) (n : Nat) (v : Word) :
    (s.storeBytes addr n v).params = s.params := rfl

@[simp] theorem State.x_placeWord (s : State) (w : Word) :
    (s.placeWord w).x = s.x := rfl

@[simp] theorem State.f_placeWord (s : State) (w : Word) :
    (s.placeWord w).f = s.f := rfl

@[simp] theorem State.pc_placeWord (s : State) (w : Word) :
    (s.placeWord w).pc = s.pc := rfl

@[simp] theorem State.fcsr_placeWord (s : State) (w : Word) :
    (s.placeWord w).fcsr = s.fcsr := rfl

@[simp] theorem State.mem_placeWord (s : State) (w : Word) :
    (s.placeWord w).mem = s.mem.writeValue s.pc 4 w := rfl

@[simp] theorem State.written_placeWord (s : State) (w : Word) :
    (s.placeWord w).written = s.written.filter (fun a => !(accessAddresses s.pc 4).contains a) := rfl

@[simp] theorem State.outcome_placeWord (s : State) (w : Word) :
    (s.placeWord w).outcome = s.outcome := rfl

@[simp] theorem State.params_placeWord (s : State) (w : Word) :
    (s.placeWord w).params = s.params := rfl

/-! ## Accessors after updates -/

@[simp] theorem State.getX_setF (s : State) (i : FReg) (v : Word) (j : XReg) :
    (s.setF i v).getX j = s.getX j := rfl

@[simp] theorem State.getX_setPc (s : State) (v : Word) (j : XReg) :
    (s.setPc v).getX j = s.getX j := rfl

@[simp] theorem State.getX_advance (s : State) (j : XReg) :
    (s.advance).getX j = s.getX j := rfl

@[simp] theorem State.getX_setFcsr (s : State) (v : BitVec 8) (j : XReg) :
    (s.setFcsr v).getX j = s.getX j := rfl

@[simp] theorem State.getX_raise (s : State) (c : Cause) (w : Word) (j : XReg) :
    (s.raise c w).getX j = s.getX j := rfl

@[simp] theorem State.getX_accrue (s : State) (fl : FpFlags) (j : XReg) :
    (s.accrue fl).getX j = s.getX j := rfl

@[simp] theorem State.getX_csrWrite (s : State) (n : CsrName) (v : Word) (j : XReg) :
    (s.csrWrite n v).getX j = s.getX j := by
  cases n <;> rfl

@[simp] theorem State.getX_storeBytes (s : State) (addr : Word) (n : Nat) (v : Word) (j : XReg) :
    (s.storeBytes addr n v).getX j = s.getX j := rfl

@[simp] theorem State.getX_placeWord (s : State) (w : Word) (j : XReg) :
    (s.placeWord w).getX j = s.getX j := rfl

@[simp] theorem State.getF_setX (s : State) (i : XReg) (v : Word) (j : FReg) :
    (s.setX i v).getF j = s.getF j := by
  unfold State.getF; simp

@[simp] theorem State.getF_setPc (s : State) (v : Word) (j : FReg) :
    (s.setPc v).getF j = s.getF j := rfl

@[simp] theorem State.getF_advance (s : State) (j : FReg) :
    (s.advance).getF j = s.getF j := rfl

@[simp] theorem State.getF_setFcsr (s : State) (v : BitVec 8) (j : FReg) :
    (s.setFcsr v).getF j = s.getF j := rfl

@[simp] theorem State.getF_raise (s : State) (c : Cause) (w : Word) (j : FReg) :
    (s.raise c w).getF j = s.getF j := rfl

@[simp] theorem State.getF_accrue (s : State) (fl : FpFlags) (j : FReg) :
    (s.accrue fl).getF j = s.getF j := rfl

@[simp] theorem State.getF_csrWrite (s : State) (n : CsrName) (v : Word) (j : FReg) :
    (s.csrWrite n v).getF j = s.getF j := by
  cases n <;> rfl

@[simp] theorem State.getF_storeBytes (s : State) (addr : Word) (n : Nat) (v : Word) (j : FReg) :
    (s.storeBytes addr n v).getF j = s.getF j := rfl

@[simp] theorem State.getF_placeWord (s : State) (w : Word) (j : FReg) :
    (s.placeWord w).getF j = s.getF j := rfl

@[simp] theorem State.fflags_setX (s : State) (i : XReg) (v : Word) :
    (s.setX i v).fflags = s.fflags := by
  unfold State.fflags; simp

@[simp] theorem State.fflags_setF (s : State) (i : FReg) (v : Word) :
    (s.setF i v).fflags = s.fflags := rfl

@[simp] theorem State.fflags_setPc (s : State) (v : Word) :
    (s.setPc v).fflags = s.fflags := rfl

@[simp] theorem State.fflags_advance (s : State) :
    (s.advance).fflags = s.fflags := rfl

@[simp] theorem State.fflags_raise (s : State) (c : Cause) (w : Word) :
    (s.raise c w).fflags = s.fflags := rfl

@[simp] theorem State.fflags_storeBytes (s : State) (addr : Word) (n : Nat) (v : Word) :
    (s.storeBytes addr n v).fflags = s.fflags := rfl

@[simp] theorem State.fflags_placeWord (s : State) (w : Word) :
    (s.placeWord w).fflags = s.fflags := rfl

@[simp] theorem State.frm_setX (s : State) (i : XReg) (v : Word) :
    (s.setX i v).frm = s.frm := by
  unfold State.frm; simp

@[simp] theorem State.frm_setF (s : State) (i : FReg) (v : Word) :
    (s.setF i v).frm = s.frm := rfl

@[simp] theorem State.frm_setPc (s : State) (v : Word) :
    (s.setPc v).frm = s.frm := rfl

@[simp] theorem State.frm_advance (s : State) :
    (s.advance).frm = s.frm := rfl

@[simp] theorem State.frm_raise (s : State) (c : Cause) (w : Word) :
    (s.raise c w).frm = s.frm := rfl

@[simp] theorem State.frm_storeBytes (s : State) (addr : Word) (n : Nat) (v : Word) :
    (s.storeBytes addr n v).frm = s.frm := rfl

@[simp] theorem State.frm_placeWord (s : State) (w : Word) :
    (s.placeWord w).frm = s.frm := rfl

/-! ## Registers -/

@[simp] theorem State.getX_zero (s : State) : s.getX 0#5 = 0#32 := rfl

/-- Reading an `x` register after writing one (00_scope.md R11). -/
theorem State.getX_setX (s : State) (i j : XReg) (v : Word) :
    (s.setX i v).getX j = if j = 0#5 then 0#32 else if j = i then v else s.getX j := by
  unfold State.setX State.getX
  by_cases hj : j = 0#5
  · simp [hj]
  by_cases hi : i = 0#5
  · subst hi; simp [hj]
  have hi' : i.toNat ≠ 0 := fun h => hi (BitVec.eq_of_toNat_eq (by simpa using h))
  have hj' : j.toNat ≠ 0 := fun h => hj (BitVec.eq_of_toNat_eq (by simpa using h))
  by_cases h : j = i
  · subst h; simp [hj]
  · have hne : i.toNat - 1 ≠ j.toNat - 1 := by
      intro e; exact h (BitVec.eq_of_toNat_eq (by omega))
    simp [hi, hj, h, hne]

/-- Reading an `f` register after writing one (00_scope.md R12). -/
theorem State.getF_setF (s : State) (i j : FReg) (v : Word) :
    (s.setF i v).getF j = if j = i then v else s.getF j := by
  unfold State.setF State.getF
  by_cases h : j = i
  · subst h; simp
  · have hne : i.toNat ≠ j.toNat := fun e => h (BitVec.eq_of_toNat_eq e.symm)
    simp [h, hne]

/-! ## Fields of `fcsr` -/

@[simp] theorem State.fflags_setFcsr_append (s : State) (m : BitVec 3) (fl : FpFlags) :
    (s.setFcsr (m ++ fl)).fflags = fl := by
  simp only [State.fflags, State.fcsr_setFcsr]
  apply BitVec.eq_of_getLsbD_eq
  intro i hi
  rw [BitVec.getLsbD_extractLsb', BitVec.getLsbD_append]
  simp [hi]

@[simp] theorem State.frm_setFcsr_append (s : State) (m : BitVec 3) (fl : FpFlags) :
    (s.setFcsr (m ++ fl)).frm = m := by
  simp only [State.frm, State.fcsr_setFcsr]
  apply BitVec.eq_of_getLsbD_eq
  intro i hi
  rw [BitVec.getLsbD_extractLsb', BitVec.getLsbD_append]
  simp [hi]

/-- Accruing flags ORs them in (45_float_arith.md R315). -/
@[simp] theorem State.fflags_accrue (s : State) (fl : FpFlags) : (s.accrue fl).fflags = s.fflags ||| fl :=
  s.fflags_setFcsr_append _ _

@[simp] theorem State.frm_accrue (s : State) (fl : FpFlags) : (s.accrue fl).frm = s.frm :=
  s.frm_setFcsr_append _ _

/-- `fcsr` is its two fields (10_state.md R42). -/
theorem State.fcsr_eq_append (s : State) : s.fcsr = s.frm ++ s.fflags := by
  apply BitVec.eq_of_getLsbD_eq
  intro i hi
  simp only [State.frm, State.fflags]
  rw [BitVec.getLsbD_append]
  split
  · simp [*]
  · rw [BitVec.getLsbD_extractLsb', decide_eq_true (by omega), Bool.true_and]
    congr 1; omega

end Sys2Proof.Machine
end

