-- ==== Sys2Proof/Laws/Ops.lean ====
section
/-! SUPPORT. One lemma per shared operation that says all it can do, in the terms of Safety: how an instruction ends, loads and stores, transfers, CSR accesses, rounding, the fetch and the step. Later proofs cite these and do not unfold the operations. -/

namespace Sys2Proof.Machine

open Sys2Proof

/-! ## Frames that hold of nothing changed -/

theorem SameX.refl (s : State) : SameX s s := fun _ => rfl
theorem SameF.refl (s : State) : SameF s s := fun _ => rfl
theorem SameMem.refl (s : State) : SameMem s s := ⟨fun _ => rfl, fun _ => Iff.rfl⟩
theorem SameRun.refl (s : State) : SameRun s s := ⟨rfl, rfl⟩

theorem SameMem.of_eq {s t : State} (hm : t.mem = s.mem) (hw : t.written = s.written) : SameMem s t :=
  ⟨fun _ => by rw [hm], fun _ => by rw [hw]⟩

theorem XBecomes.of_eq {s t : State} {rd : XReg} {v : Word} (h : t.x = (s.setX rd v).x) : XBecomes s t rd v := by
  intro i
  rw [← State.getX_setX]
  unfold State.getX
  simp only [h]

theorem FBecomes.of_eq {s t : State} {rd : FReg} {v : Word} (h : t.f = (s.setF rd v).f) : FBecomes s t rd v := by
  intro i
  rw [← State.getF_setF]
  unfold State.getF
  simp only [h]

theorem SameX.of_eq {s t : State} (h : t.x = s.x) : SameX s t := by
  intro i; unfold State.getX; simp only [h]

theorem SameF.of_eq {s t : State} (h : t.f = s.f) : SameF s t := by
  intro i; unfold State.getF; simp only [h]

/-! ## How an instruction ends -/

theorem WritesX.setX_setPc (s : State) (rd : XReg) (v target : Word) :
    WritesX s ((s.setX rd v).setPc target) rd v target :=
  ⟨.of_eq (by simp), .of_eq (by simp), by simp, .of_eq (by simp) (by simp), ⟨by simp, by simp⟩, by simp⟩

theorem WritesX.setX_advance (s : State) (rd : XReg) (v : Word) :
    WritesX s (s.setX rd v).advance rd v (s.pc + 4#32) :=
  ⟨.of_eq (by simp), .of_eq (by simp), by simp, .of_eq (by simp) (by simp), ⟨by simp, by simp⟩, by simp⟩

theorem WritesF.setF_advance (s : State) (rd : FReg) (v : Word) : WritesF s (s.setF rd v).advance rd v :=
  ⟨.of_eq (by simp), .of_eq (by simp), by simp, .of_eq (by simp) (by simp), ⟨by simp, by simp⟩, by simp⟩

theorem WritesPc.setPc (s : State) (target : Word) : WritesPc s (s.setPc target) target :=
  ⟨.of_eq (by simp), .of_eq (by simp), by simp, .of_eq (by simp) (by simp), ⟨by simp, by simp⟩, by simp⟩

theorem WritesPc.advance (s : State) : WritesPc s s.advance (s.pc + 4#32) := .setPc s _

theorem WritesFAndFlags.finishF (s : State) (rd : FReg) (r : Word × FpFlags) :
    WritesFAndFlags s (s.finishF rd r) rd r := by
  unfold State.finishF
  exact ⟨.of_eq (by simp), .of_eq (by simp), ⟨by simp, by simp⟩, .of_eq (by simp) (by simp), ⟨by simp, by simp⟩, by simp⟩

theorem WritesXAndFlags.finishX (s : State) (rd : XReg) (r : Word × FpFlags) :
    WritesXAndFlags s (s.finishX rd r) rd r := by
  unfold State.finishX
  exact ⟨.of_eq (by simp), .of_eq (by simp), ⟨by simp, by simp⟩, .of_eq (by simp) (by simp), ⟨by simp, by simp⟩, by simp⟩

/-- `writeXNext` always answers a next state, in which `x[rd]` and `pc` alone have changed. -/
theorem writeXNext_spec (rd : XReg) (v : Word) (s : State) :
    ∃ t, writeXNext rd v s = .next t ∧ WritesX s t rd v (s.pc + 4#32) :=
  ⟨_, rfl, .setX_advance s rd v⟩

/-- Taking an exception changes the outcome alone. -/
theorem raiseNext_spec (cause : Cause) (info : Word) (s : State) : Raises (raiseNext cause info s) s cause info := rfl

/-! ## Transfers -/

theorem targetAligned_iff (target : Word) : targetAligned target = true ↔ target.toNat % 4 = 0 := by
  unfold targetAligned
  rw [beq_iff_eq, ← BitVec.toNat_inj]
  simp [BitVec.extractLsb'_toNat]

/-- `transferNext` goes to an aligned target after the link, and raises for any other. -/
theorem transferNext_spec (target : Word) (link : State → State) (s : State) :
    (target.toNat % 4 = 0 → transferNext target link s = .next ((link s).setPc target)) ∧
      (target.toNat % 4 ≠ 0 → Raises (transferNext target link s) s .instructionAddressMisaligned target) := by
  unfold transferNext
  constructor
  · intro h; rw [if_pos ((targetAligned_iff target).mpr h)]
  · intro h; rw [if_neg (fun ha => h ((targetAligned_iff target).mp ha))]; rfl

/-- `branchNext` is a conditional branch to `pc + offset`. -/
theorem branchNext_spec (taken : Bool) (offset : BitVec 13) (s : State) :
    Branches (branchNext taken offset s) s (taken = true) (s.pc + offset.signExtend 32) := by
  have h := transferNext_spec (s.branchTarget offset) id s
  unfold branchNext
  refine ⟨?_, ?_, ?_⟩
  · intro ht
    exact ⟨_, by rw [if_neg ht], .advance s⟩
  · intro ht ha
    rw [if_pos ht]
    exact ⟨_, h.1 ha, .setPc s _⟩
  · intro ht ha
    rw [if_pos ht]
    exact h.2 ha

/-! ## Loads and stores -/

theorem alignmentFails_iff (s : State) (addr : Word) (w : Width) :
    alignmentFails s.params addr w = true ↔ ¬AlignmentOk s addr (bytesIn w) := by
  unfold alignmentFails AlignmentOk aligned
  cases s.params.misaligned <;> simp

/-- `loadThen` continues with the value read, or raises for the alignment first and the map second. -/
theorem loadThen_spec (addr : Word) (w : Width) (s : State) (k : Word → State) :
    (AlignmentOk s addr (bytesIn w) → MapOk s .load addr (bytesIn w) →
        loadThen addr w s k = .next (k (s.mem.readValue addr w))) ∧
      (¬AlignmentOk s addr (bytesIn w) → Raises (loadThen addr w s k) s .loadAddressMisaligned addr) ∧
      (AlignmentOk s addr (bytesIn w) → ¬MapOk s .load addr (bytesIn w) →
        Raises (loadThen addr w s k) s .loadAccessFault addr) := by
  have ha := alignmentFails_iff s addr w
  have hm : accessPermitted s.params .load addr (bytesIn w) = true ↔ MapOk s .load addr (bytesIn w) :=
    accessPermitted_iff
  unfold loadThen
  refine ⟨fun h1 h2 => ?_, fun h1 => ?_, fun h1 h2 => ?_⟩
  · rw [if_neg (fun h => ha.mp h h1), if_pos (hm.mpr h2)]
  · rw [if_pos (ha.mpr h1)]; rfl
  · rw [if_neg (fun h => ha.mp h h1), if_neg (fun h => h2 (hm.mp h))]; rfl

theorem bytesIn_le (w : Width) : bytesIn w ≤ 4 := by cases w <;> decide

/-- Writing the bytes of a store and advancing is the whole effect of a store. -/
theorem StoresBytes.storeBytes_advance (s : State) (addr : Word) {n : Nat} (hn : n ≤ 4) (v : Word) :
    StoresBytes s (s.storeBytes addr n v).advance addr n v := by
  refine ⟨?_, ?_, ?_, .of_eq (by simp), .of_eq (by simp), by simp, ⟨by simp, by simp⟩, by simp⟩
  · intro k hk
    simpa [byteOfWord] using Memory.read_writeValue_byte s.mem addr v hn hk
  · intro a ha
    simpa using Memory.read_writeValue_of_ne s.mem addr v hn ha
  · intro a
    simp only [State.written_advance, State.written_storeBytes, mem_foldl_insertAddress, mem_accessAddresses]

/-- `storeNext` stores the bytes, or raises for the alignment first and the map second. -/
theorem storeNext_spec (addr : Word) (w : Width) (v : Word) (s : State) :
    (AlignmentOk s addr (bytesIn w) → MapOk s .store addr (bytesIn w) →
        ∃ t, storeNext addr w v s = .next t ∧ StoresBytes s t addr (bytesIn w) v) ∧
      (¬AlignmentOk s addr (bytesIn w) → Raises (storeNext addr w v s) s .storeAddressMisaligned addr) ∧
      (AlignmentOk s addr (bytesIn w) → ¬MapOk s .store addr (bytesIn w) →
        Raises (storeNext addr w v s) s .storeAccessFault addr) := by
  have ha := alignmentFails_iff s addr w
  have hm : accessPermitted s.params .store addr (bytesIn w) = true ↔ MapOk s .store addr (bytesIn w) :=
    accessPermitted_iff
  unfold storeNext
  refine ⟨fun h1 h2 => ?_, fun h1 => ?_, fun h1 h2 => ?_⟩
  · rw [if_neg (fun h => ha.mp h h1), if_pos (hm.mpr h2)]
    exact ⟨_, rfl, .storeBytes_advance s addr (bytesIn_le w) v⟩
  · rw [if_pos (ha.mpr h1)]; rfl
  · rw [if_neg (fun h => ha.mp h h1), if_neg (fun h => h2 (hm.mp h))]; rfl

/-! ## Control and status registers -/

theorem csrLookup_spec (csr : CsrAddr) :
    (∀ name, (csr, name) ∈ csrPlaces → ∃ e, csrLookup csr = some e ∧ e.name = name ∧ e.readOnly = false) ∧
      (csr ∉ [0x001#12, 0x002#12, 0x003#12] → csrLookup csr = none) := by
  constructor
  · intro name h
    simp only [csrPlaces, List.mem_cons, Prod.mk.injEq, List.mem_nil_iff, or_false] at h
    rcases h with ⟨rfl, rfl⟩ | ⟨rfl, rfl⟩ | ⟨rfl, rfl⟩
    · exact ⟨_, rfl, rfl, rfl⟩
    · exact ⟨_, rfl, rfl, rfl⟩
    · exact ⟨_, rfl, rfl, rfl⟩
  · intro h
    simp only [List.mem_cons, List.mem_nil_iff, or_false, not_or] at h
    unfold csrLookup
    rw [List.find?_eq_none]
    intro e he
    simp only [csrMap, List.mem_cons, List.mem_nil_iff, or_false] at he
    rcases he with rfl | rfl | rfl
    · simpa using Ne.symm h.1
    · simpa using Ne.symm h.2.1
    · simpa using Ne.symm h.2.2

theorem csrRead_eq (s : State) (name : CsrName) : s.csrRead name = csrValue s name := by cases name <;> rfl

theorem CsrBecomes.csrWrite (s : State) (name : CsrName) (v : Word) : CsrBecomes s (s.csrWrite name v) name v := by
  cases name
  · exact ⟨s.fflags_setFcsr_append _ _, s.frm_setFcsr_append _ _⟩
  · exact ⟨s.frm_setFcsr_append _ _, s.fflags_setFcsr_append _ _⟩
  · rfl

theorem CsrBecomes.same (s : State) (name : CsrName) : CsrBecomes s s name (csrValue s name) := by
  have low : ∀ {w : Nat} (b : BitVec w), w ≤ 32 → (b.setWidth 32).extractLsb' 0 w = b := by
    intro w b hw
    apply BitVec.eq_of_getLsbD_eq
    intro i hi
    rw [BitVec.getLsbD_extractLsb', BitVec.getLsbD_setWidth]
    simp [hi, show i < 32 by omega]
  cases name
  · exact ⟨(low s.fflags (by decide)).symm, rfl⟩
  · exact ⟨(low s.frm (by decide)).symm, rfl⟩
  · exact (low s.fcsr (by decide)).symm

/-- `csrNext` at an address of the default map: the register takes the new value, which is the old one again if the
instruction does not write. -/
theorem csrNext_spec (i : Instr) (rd : XReg) (csr : CsrAddr) (name : CsrName) (writes : Bool) (new : Word → Word)
    (s : State) (h : (csr, name) ∈ csrPlaces) (v : Word)
    (hv : if writes then v = new (csrValue s name) else v = csrValue s name) :
    ∃ t, csrNext i rd csr writes new s = .next t ∧ CsrEffect s t rd name v := by
  obtain ⟨e, he, hn, hro⟩ := (csrLookup_spec csr).1 name h
  subst hn
  unfold csrNext
  simp only [he, hro, Bool.and_false, Bool.false_eq_true, if_false, csrRead_eq]
  refine ⟨_, rfl, ?_⟩
  cases writes
  · subst hv
    have hb := CsrBecomes.same s e.name
    refine ⟨.of_eq (by simp), ?_, .of_eq (by simp), .of_eq (by simp) (by simp), ⟨by simp, by simp⟩, by simp⟩
    unfold CsrBecomes at hb ⊢
    simpa using hb
  · simp only [if_true] at hv ⊢
    subst hv
    have hb := CsrBecomes.csrWrite s e.name (new (csrValue s e.name))
    refine ⟨.of_eq ?_, ?_, .of_eq (by simp), .of_eq (by simp) (by simp), ⟨by simp, by simp⟩, by simp⟩
    · simp only [State.x_advance]
      unfold State.setX
      split <;> simp
    · unfold CsrBecomes at hb ⊢
      simpa using hb

/-- `csrNext` at any other address raises. -/
theorem csrNext_unimplemented (i : Instr) (rd : XReg) (csr : CsrAddr) (writes : Bool) (new : Word → Word) (s : State)
    (h : csr ∉ [0x001#12, 0x002#12, 0x003#12]) :
    Raises (csrNext i rd csr writes new s) s .illegalInstruction (encode i) := by
  unfold csrNext
  rw [(csrLookup_spec csr).2 h]
  rfl

/-! ## Rounding modes -/

theorem modeOfCode_modeCode (mode : RoundingMode) : modeOfCode (modeCode mode) = some mode := by cases mode <;> rfl

theorem roundingMode_of_selected {s : State} {rm : BitVec 3} {mode : RoundingMode} (h : ModeSelected s rm mode) :
    s.roundingMode rm = some mode := by
  unfold ModeSelected at h
  unfold State.roundingMode
  split at h
  · rw [if_pos ‹_›, ← h, modeOfCode_modeCode]
  · rw [if_neg ‹_›, ← h, modeOfCode_modeCode]

theorem modeOfCode_reserved {c : BitVec 3} (h : c = 0b101#3 ∨ c = 0b110#3 ∨ c = 0b111#3) : modeOfCode c = none := by
  rcases h with rfl | rfl | rfl <;> rfl

theorem roundingMode_of_reserved {s : State} {rm : BitVec 3} (h : ModeReserved s rm) : s.roundingMode rm = none := by
  unfold State.roundingMode
  rcases h with rfl | rfl | ⟨rfl, h⟩
  · rfl
  · rfl
  · rw [if_pos rfl, modeOfCode_reserved h]

/-- Every `rm` either is reserved or selects a mode. -/
theorem modeReserved_or_selected (s : State) (rm : BitVec 3) : ModeReserved s rm ∨ ∃ mode, ModeSelected s rm mode := by
  have key : ∀ c : BitVec 3, (c = 0b101#3 ∨ c = 0b110#3 ∨ c = 0b111#3) ∨ ∃ mode, modeCode mode = c := by
    intro c
    match c with
    | 0b000#3 => exact .inr ⟨.rne, rfl⟩
    | 0b001#3 => exact .inr ⟨.rtz, rfl⟩
    | 0b010#3 => exact .inr ⟨.rdn, rfl⟩
    | 0b011#3 => exact .inr ⟨.rup, rfl⟩
    | 0b100#3 => exact .inr ⟨.rmm, rfl⟩
    | 0b101#3 => exact .inl (.inl rfl)
    | 0b110#3 => exact .inl (.inr (.inl rfl))
    | 0b111#3 => exact .inl (.inr (.inr rfl))
  unfold ModeReserved ModeSelected
  by_cases h : rm = 0b111#3
  · rcases key s.frm with hf | ⟨m, hm⟩
    · exact .inl (.inr (.inr ⟨h, hf⟩))
    · exact .inr ⟨m, by rw [if_pos h, hm]⟩
  · rcases key rm with (h5 | h6 | h7) | ⟨m, hm⟩
    · exact .inl (.inl h5)
    · exact .inl (.inr (.inl h6))
    · exact absurd h7 h
    · exact .inr ⟨m, by rw [if_neg h, hm]⟩

/-- `roundedNext` runs in the selected mode, and raises for a reserved one. -/
theorem roundedNext_spec (i : Instr) (rm : BitVec 3) (run : RoundingMode → State) (s : State) :
    (∀ mode, ModeSelected s rm mode → roundedNext i rm run s = .next (run mode)) ∧
      (ModeReserved s rm → Raises (roundedNext i rm run s) s .illegalInstruction (encode i)) := by
  unfold roundedNext
  constructor
  · intro mode h; rw [roundingMode_of_selected h]
  · intro h; rw [roundingMode_of_reserved h]; rfl

/-! ## The fetch and the step -/

theorem find?_written_none {s : State} :
    (accessAddresses s.pc 4).find? (s.written.contains ·) = none ↔ ∀ k < 4, byteAddress s.pc k ∉ s.written := by
  simp [accessAddresses, List.find?_eq_none]

/-- The four bytes of a word make the word (20_memory.md R71). -/
theorem wordOfBytes_byteOfWord (w : Word) :
    wordOfBytes (byteOfWord w 0) (byteOfWord w 1) (byteOfWord w 2) (byteOfWord w 3) = w := by
  apply BitVec.eq_of_getLsbD_eq
  intro i hi
  change BitVec.getLsbD (w := 8 + 8 + 8 + 8)
    (byteOfWord w 3 ++ byteOfWord w 2 ++ byteOfWord w 1 ++ byteOfWord w 0) i = _
  simp only [BitVec.getLsbD_append, byteOfWord, BitVec.getLsbD_extractLsb']
  repeat' split
  all_goals
    rw [decide_eq_true (by omega), Bool.true_and]
    congr 1; omega

/-- A step that fetches a word runs what the word's bytes decode to. -/
theorem step_of_fetches {s : State} {w : Word} (h : Fetches s w) :
    step s = match decodeWord w with
      | .ok i => exec i s
      | .error _ => raiseNext .illegalInstruction w s := by
  have h0 := h.bytes 0 (by decide)
  have h1 := h.bytes 1 (by decide)
  have h2 := h.bytes 2 (by decide)
  have h3 := h.bytes 3 (by decide)
  have hf : s.fetch = .bytes (byteOfWord w 0) (byteOfWord w 1) (byteOfWord w 2) (byteOfWord w 3) := by
    unfold State.fetch
    rw [if_pos (accessPermitted_iff.mpr h.mapped), find?_written_none.mpr h.unwritten, h0, h1, h2, h3]
    rfl
  unfold step cycle
  rw [h.running]
  show runCycle s = _
  unfold runCycle
  rw [hf]
  show runBytes _ _ _ _ s = _
  have hd : decode [byteOfWord w 0, byteOfWord w 1, byteOfWord w 2, byteOfWord w 3] = decodeWord w := by
    show decodeWord (wordOfBytes _ _ _ _) = _
    rw [wordOfBytes_byteOfWord]
  unfold runBytes
  cases hw : decodeWord w <;> simp only [hd, hw, wordOfBytes_byteOfWord]

/-- Every state that is running with four mapped and unwritten bytes at `pc` fetches some word. -/
theorem fetches_exists {s : State} (hr : s.outcome = .running) (hm : MapOk s .fetch s.pc 4)
    (hw : ∀ k < 4, byteAddress s.pc k ∉ s.written) : ∃ w, Fetches s w := by
  refine ⟨wordOfBytes (s.mem.read (byteAddress s.pc 0)) (s.mem.read (byteAddress s.pc 1))
    (s.mem.read (byteAddress s.pc 2)) (s.mem.read (byteAddress s.pc 3)), hr, hm, hw, ?_⟩
  have key : ∀ (b0 b1 b2 b3 : Byte) (k : Nat), k < 4 →
      (wordOfBytes b0 b1 b2 b3).extractLsb' (8 * k) 8 = if k = 0 then b0 else if k = 1 then b1
        else if k = 2 then b2 else b3 := by
    intro b0 b1 b2 b3 k hk
    apply BitVec.eq_of_getLsbD_eq
    intro i hi
    rw [BitVec.getLsbD_extractLsb', decide_eq_true hi, Bool.true_and]
    change BitVec.getLsbD (w := 8 + 8 + 8 + 8) (b3 ++ b2 ++ b1 ++ b0) (8 * k + i) = _
    simp only [BitVec.getLsbD_append]
    interval_cases k <;> simp only [Nat.reduceMul, Nat.zero_add] <;> repeat' split
    all_goals first | omega | contradiction | rfl | (congr 1; omega)
  intro k hk
  rw [key _ _ _ _ k hk]
  interval_cases k <;> rfl

end Sys2Proof.Machine
end

