-- ==== Sys2Proof/Laws/PerInstr.lean ====
section
/-! SUPPORT. Families of statements about every instruction, one lemma per constructor: `FieldsRoundTrip`, the fields that the encoder writes decode to the instruction (30_encoding.md R135, R137). -/

namespace Sys2Proof

/-- The decoder gives back a well-formed instruction from the fields that the encoder writes. -/
def Laws.FieldsRoundTrip.Statement (i : Instr) : Prop :=
  i.wellFormed = true → decodeFields (encodeFields i) = .ok i

theorem Laws.FieldsRoundTrip.add (rd rs1 rs2 : XReg) :
    Laws.FieldsRoundTrip.Statement (.add rd rs1 rs2) := fun _ => rfl

theorem Laws.FieldsRoundTrip.addi (rd rs1 : XReg) (imm : BitVec 12) :
    Laws.FieldsRoundTrip.Statement (.addi rd rs1 imm) := by
  intro _
  show Except.ok (Instr.addi rd rs1 (fieldsI imm rs1 _ rd _).immI) = _
  rw [immI_fieldsI]

theorem Laws.FieldsRoundTrip.and (rd rs1 rs2 : XReg) :
    Laws.FieldsRoundTrip.Statement (.and rd rs1 rs2) := fun _ => rfl

theorem Laws.FieldsRoundTrip.andi (rd rs1 : XReg) (imm : BitVec 12) :
    Laws.FieldsRoundTrip.Statement (.andi rd rs1 imm) := by
  intro _
  show Except.ok (Instr.andi rd rs1 (fieldsI imm rs1 _ rd _).immI) = _
  rw [immI_fieldsI]

theorem Laws.FieldsRoundTrip.auipc (rd : XReg) (imm : BitVec 20) :
    Laws.FieldsRoundTrip.Statement (.auipc rd imm) := by
  intro _
  show Except.ok (Instr.auipc rd (fieldsU imm rd _).immU) = _
  rw [immU_fieldsU]

theorem Laws.FieldsRoundTrip.lui (rd : XReg) (imm : BitVec 20) :
    Laws.FieldsRoundTrip.Statement (.lui rd imm) := by
  intro _
  show Except.ok (Instr.lui rd (fieldsU imm rd _).immU) = _
  rw [immU_fieldsU]

theorem Laws.FieldsRoundTrip.or (rd rs1 rs2 : XReg) :
    Laws.FieldsRoundTrip.Statement (.or rd rs1 rs2) := fun _ => rfl

theorem Laws.FieldsRoundTrip.ori (rd rs1 : XReg) (imm : BitVec 12) :
    Laws.FieldsRoundTrip.Statement (.ori rd rs1 imm) := by
  intro _
  show Except.ok (Instr.ori rd rs1 (fieldsI imm rs1 _ rd _).immI) = _
  rw [immI_fieldsI]

theorem Laws.FieldsRoundTrip.sll (rd rs1 rs2 : XReg) :
    Laws.FieldsRoundTrip.Statement (.sll rd rs1 rs2) := fun _ => rfl

theorem Laws.FieldsRoundTrip.slli (rd rs1 : XReg) (shamt : BitVec 5) :
    Laws.FieldsRoundTrip.Statement (.slli rd rs1 shamt) := fun _ => rfl

theorem Laws.FieldsRoundTrip.slt (rd rs1 rs2 : XReg) :
    Laws.FieldsRoundTrip.Statement (.slt rd rs1 rs2) := fun _ => rfl

theorem Laws.FieldsRoundTrip.slti (rd rs1 : XReg) (imm : BitVec 12) :
    Laws.FieldsRoundTrip.Statement (.slti rd rs1 imm) := by
  intro _
  show Except.ok (Instr.slti rd rs1 (fieldsI imm rs1 _ rd _).immI) = _
  rw [immI_fieldsI]

theorem Laws.FieldsRoundTrip.sltiu (rd rs1 : XReg) (imm : BitVec 12) :
    Laws.FieldsRoundTrip.Statement (.sltiu rd rs1 imm) := by
  intro _
  show Except.ok (Instr.sltiu rd rs1 (fieldsI imm rs1 _ rd _).immI) = _
  rw [immI_fieldsI]

theorem Laws.FieldsRoundTrip.sltu (rd rs1 rs2 : XReg) :
    Laws.FieldsRoundTrip.Statement (.sltu rd rs1 rs2) := fun _ => rfl

theorem Laws.FieldsRoundTrip.sra (rd rs1 rs2 : XReg) :
    Laws.FieldsRoundTrip.Statement (.sra rd rs1 rs2) := fun _ => rfl

theorem Laws.FieldsRoundTrip.srai (rd rs1 : XReg) (shamt : BitVec 5) :
    Laws.FieldsRoundTrip.Statement (.srai rd rs1 shamt) := fun _ => rfl

theorem Laws.FieldsRoundTrip.srl (rd rs1 rs2 : XReg) :
    Laws.FieldsRoundTrip.Statement (.srl rd rs1 rs2) := fun _ => rfl

theorem Laws.FieldsRoundTrip.srli (rd rs1 : XReg) (shamt : BitVec 5) :
    Laws.FieldsRoundTrip.Statement (.srli rd rs1 shamt) := fun _ => rfl

theorem Laws.FieldsRoundTrip.sub (rd rs1 rs2 : XReg) :
    Laws.FieldsRoundTrip.Statement (.sub rd rs1 rs2) := fun _ => rfl

theorem Laws.FieldsRoundTrip.xor (rd rs1 rs2 : XReg) :
    Laws.FieldsRoundTrip.Statement (.xor rd rs1 rs2) := fun _ => rfl

theorem Laws.FieldsRoundTrip.xori (rd rs1 : XReg) (imm : BitVec 12) :
    Laws.FieldsRoundTrip.Statement (.xori rd rs1 imm) := by
  intro _
  show Except.ok (Instr.xori rd rs1 (fieldsI imm rs1 _ rd _).immI) = _
  rw [immI_fieldsI]

theorem Laws.FieldsRoundTrip.beq (rs1 rs2 : XReg) (offset : BitVec 13) :
    Laws.FieldsRoundTrip.Statement (.beq rs1 rs2 offset) := by
  intro h
  have h : offset.getLsbD 0 = false := by simpa [Instr.wellFormed, branchOffsetOk] using h
  show Except.ok (Instr.beq rs1 rs2 (fieldsB offset rs2 rs1 _).immB) = _
  rw [immB_fieldsB _ _ _ _ h]

theorem Laws.FieldsRoundTrip.bge (rs1 rs2 : XReg) (offset : BitVec 13) :
    Laws.FieldsRoundTrip.Statement (.bge rs1 rs2 offset) := by
  intro h
  have h : offset.getLsbD 0 = false := by simpa [Instr.wellFormed, branchOffsetOk] using h
  show Except.ok (Instr.bge rs1 rs2 (fieldsB offset rs2 rs1 _).immB) = _
  rw [immB_fieldsB _ _ _ _ h]

theorem Laws.FieldsRoundTrip.bgeu (rs1 rs2 : XReg) (offset : BitVec 13) :
    Laws.FieldsRoundTrip.Statement (.bgeu rs1 rs2 offset) := by
  intro h
  have h : offset.getLsbD 0 = false := by simpa [Instr.wellFormed, branchOffsetOk] using h
  show Except.ok (Instr.bgeu rs1 rs2 (fieldsB offset rs2 rs1 _).immB) = _
  rw [immB_fieldsB _ _ _ _ h]

theorem Laws.FieldsRoundTrip.blt (rs1 rs2 : XReg) (offset : BitVec 13) :
    Laws.FieldsRoundTrip.Statement (.blt rs1 rs2 offset) := by
  intro h
  have h : offset.getLsbD 0 = false := by simpa [Instr.wellFormed, branchOffsetOk] using h
  show Except.ok (Instr.blt rs1 rs2 (fieldsB offset rs2 rs1 _).immB) = _
  rw [immB_fieldsB _ _ _ _ h]

theorem Laws.FieldsRoundTrip.bltu (rs1 rs2 : XReg) (offset : BitVec 13) :
    Laws.FieldsRoundTrip.Statement (.bltu rs1 rs2 offset) := by
  intro h
  have h : offset.getLsbD 0 = false := by simpa [Instr.wellFormed, branchOffsetOk] using h
  show Except.ok (Instr.bltu rs1 rs2 (fieldsB offset rs2 rs1 _).immB) = _
  rw [immB_fieldsB _ _ _ _ h]

theorem Laws.FieldsRoundTrip.bne (rs1 rs2 : XReg) (offset : BitVec 13) :
    Laws.FieldsRoundTrip.Statement (.bne rs1 rs2 offset) := by
  intro h
  have h : offset.getLsbD 0 = false := by simpa [Instr.wellFormed, branchOffsetOk] using h
  show Except.ok (Instr.bne rs1 rs2 (fieldsB offset rs2 rs1 _).immB) = _
  rw [immB_fieldsB _ _ _ _ h]

theorem Laws.FieldsRoundTrip.jal (rd : XReg) (offset : BitVec 21) :
    Laws.FieldsRoundTrip.Statement (.jal rd offset) := by
  intro h
  have h : offset.getLsbD 0 = false := by simpa [Instr.wellFormed, jumpOffsetOk] using h
  show Except.ok (Instr.jal rd (fieldsJ offset rd).immJ) = _
  rw [immJ_fieldsJ _ _ h]

theorem Laws.FieldsRoundTrip.jalr (rd rs1 : XReg) (offset : BitVec 12) :
    Laws.FieldsRoundTrip.Statement (.jalr rd rs1 offset) := by
  intro _
  show Except.ok (Instr.jalr rd rs1 (fieldsI offset rs1 _ rd _).immI) = _
  rw [immI_fieldsI]

theorem Laws.FieldsRoundTrip.lb (rd rs1 : XReg) (offset : BitVec 12) :
    Laws.FieldsRoundTrip.Statement (.lb rd rs1 offset) := by
  intro _
  show Except.ok (Instr.lb rd rs1 (fieldsI offset rs1 _ rd _).immI) = _
  rw [immI_fieldsI]

theorem Laws.FieldsRoundTrip.lbu (rd rs1 : XReg) (offset : BitVec 12) :
    Laws.FieldsRoundTrip.Statement (.lbu rd rs1 offset) := by
  intro _
  show Except.ok (Instr.lbu rd rs1 (fieldsI offset rs1 _ rd _).immI) = _
  rw [immI_fieldsI]

theorem Laws.FieldsRoundTrip.lh (rd rs1 : XReg) (offset : BitVec 12) :
    Laws.FieldsRoundTrip.Statement (.lh rd rs1 offset) := by
  intro _
  show Except.ok (Instr.lh rd rs1 (fieldsI offset rs1 _ rd _).immI) = _
  rw [immI_fieldsI]

theorem Laws.FieldsRoundTrip.lhu (rd rs1 : XReg) (offset : BitVec 12) :
    Laws.FieldsRoundTrip.Statement (.lhu rd rs1 offset) := by
  intro _
  show Except.ok (Instr.lhu rd rs1 (fieldsI offset rs1 _ rd _).immI) = _
  rw [immI_fieldsI]

theorem Laws.FieldsRoundTrip.lw (rd rs1 : XReg) (offset : BitVec 12) :
    Laws.FieldsRoundTrip.Statement (.lw rd rs1 offset) := by
  intro _
  show Except.ok (Instr.lw rd rs1 (fieldsI offset rs1 _ rd _).immI) = _
  rw [immI_fieldsI]

theorem Laws.FieldsRoundTrip.sb (rs2 rs1 : XReg) (offset : BitVec 12) :
    Laws.FieldsRoundTrip.Statement (.sb rs2 rs1 offset) := by
  intro _
  show Except.ok (Instr.sb rs2 rs1 (fieldsS offset rs2 rs1 _ _).immS) = _
  rw [immS_fieldsS]

theorem Laws.FieldsRoundTrip.sh (rs2 rs1 : XReg) (offset : BitVec 12) :
    Laws.FieldsRoundTrip.Statement (.sh rs2 rs1 offset) := by
  intro _
  show Except.ok (Instr.sh rs2 rs1 (fieldsS offset rs2 rs1 _ _).immS) = _
  rw [immS_fieldsS]

theorem Laws.FieldsRoundTrip.sw (rs2 rs1 : XReg) (offset : BitVec 12) :
    Laws.FieldsRoundTrip.Statement (.sw rs2 rs1 offset) := by
  intro _
  show Except.ok (Instr.sw rs2 rs1 (fieldsS offset rs2 rs1 _ _).immS) = _
  rw [immS_fieldsS]

theorem Laws.FieldsRoundTrip.div (rd rs1 rs2 : XReg) :
    Laws.FieldsRoundTrip.Statement (.div rd rs1 rs2) := fun _ => rfl

theorem Laws.FieldsRoundTrip.divu (rd rs1 rs2 : XReg) :
    Laws.FieldsRoundTrip.Statement (.divu rd rs1 rs2) := fun _ => rfl

theorem Laws.FieldsRoundTrip.mul (rd rs1 rs2 : XReg) :
    Laws.FieldsRoundTrip.Statement (.mul rd rs1 rs2) := fun _ => rfl

theorem Laws.FieldsRoundTrip.mulh (rd rs1 rs2 : XReg) :
    Laws.FieldsRoundTrip.Statement (.mulh rd rs1 rs2) := fun _ => rfl

theorem Laws.FieldsRoundTrip.mulhsu (rd rs1 rs2 : XReg) :
    Laws.FieldsRoundTrip.Statement (.mulhsu rd rs1 rs2) := fun _ => rfl

theorem Laws.FieldsRoundTrip.mulhu (rd rs1 rs2 : XReg) :
    Laws.FieldsRoundTrip.Statement (.mulhu rd rs1 rs2) := fun _ => rfl

theorem Laws.FieldsRoundTrip.rem (rd rs1 rs2 : XReg) :
    Laws.FieldsRoundTrip.Statement (.rem rd rs1 rs2) := fun _ => rfl

theorem Laws.FieldsRoundTrip.remu (rd rs1 rs2 : XReg) :
    Laws.FieldsRoundTrip.Statement (.remu rd rs1 rs2) := fun _ => rfl

theorem Laws.FieldsRoundTrip.csrrc (rd : XReg) (csr : CsrAddr) (rs1 : XReg) :
    Laws.FieldsRoundTrip.Statement (.csrrc rd csr rs1) := by
  intro _
  show Except.ok (Instr.csrrc rd (fieldsI csr rs1 _ rd _).immI rs1) = _
  rw [immI_fieldsI]

theorem Laws.FieldsRoundTrip.csrrci (rd : XReg) (csr : CsrAddr) (zimm : BitVec 5) :
    Laws.FieldsRoundTrip.Statement (.csrrci rd csr zimm) := by
  intro _
  show Except.ok (Instr.csrrci rd (fieldsI csr zimm _ rd _).immI zimm) = _
  rw [immI_fieldsI]

theorem Laws.FieldsRoundTrip.csrrs (rd : XReg) (csr : CsrAddr) (rs1 : XReg) :
    Laws.FieldsRoundTrip.Statement (.csrrs rd csr rs1) := by
  intro _
  show Except.ok (Instr.csrrs rd (fieldsI csr rs1 _ rd _).immI rs1) = _
  rw [immI_fieldsI]

theorem Laws.FieldsRoundTrip.csrrsi (rd : XReg) (csr : CsrAddr) (zimm : BitVec 5) :
    Laws.FieldsRoundTrip.Statement (.csrrsi rd csr zimm) := by
  intro _
  show Except.ok (Instr.csrrsi rd (fieldsI csr zimm _ rd _).immI zimm) = _
  rw [immI_fieldsI]

theorem Laws.FieldsRoundTrip.csrrw (rd : XReg) (csr : CsrAddr) (rs1 : XReg) :
    Laws.FieldsRoundTrip.Statement (.csrrw rd csr rs1) := by
  intro _
  show Except.ok (Instr.csrrw rd (fieldsI csr rs1 _ rd _).immI rs1) = _
  rw [immI_fieldsI]

theorem Laws.FieldsRoundTrip.csrrwi (rd : XReg) (csr : CsrAddr) (zimm : BitVec 5) :
    Laws.FieldsRoundTrip.Statement (.csrrwi rd csr zimm) := by
  intro _
  show Except.ok (Instr.csrrwi rd (fieldsI csr zimm _ rd _).immI zimm) = _
  rw [immI_fieldsI]

theorem Laws.FieldsRoundTrip.ebreak :
    Laws.FieldsRoundTrip.Statement (.ebreak) := fun _ => by decide

theorem Laws.FieldsRoundTrip.ecall :
    Laws.FieldsRoundTrip.Statement (.ecall) := fun _ => by decide

theorem Laws.FieldsRoundTrip.fence (fm pred succ : BitVec 4) (rs1 rd : XReg) :
    Laws.FieldsRoundTrip.Statement (.fence fm pred succ rs1 rd) := by
  intro _
  have h := fence_fields fm pred succ rs1 0b000#3 rd 0b0001111#7
  show Except.ok (Instr.fence (fieldsI (fm ++ pred ++ succ) rs1 _ rd _).fenceFm
    (fieldsI (fm ++ pred ++ succ) rs1 _ rd _).fencePred (fieldsI (fm ++ pred ++ succ) rs1 _ rd _).fenceSucc rs1 rd) = _
  rw [h.1, h.2.1, h.2.2]

theorem Laws.FieldsRoundTrip.faddS (rd rs1 rs2 : FReg) (rm : BitVec 3) :
    Laws.FieldsRoundTrip.Statement (.faddS rd rs1 rs2 rm) := fun _ => rfl

theorem Laws.FieldsRoundTrip.fdivS (rd rs1 rs2 : FReg) (rm : BitVec 3) :
    Laws.FieldsRoundTrip.Statement (.fdivS rd rs1 rs2 rm) := fun _ => rfl

theorem Laws.FieldsRoundTrip.fmaddS (rd rs1 rs2 rs3 : FReg) (rm : BitVec 3) :
    Laws.FieldsRoundTrip.Statement (.fmaddS rd rs1 rs2 rs3 rm) := by
  intro _
  show (if (fieldsR4 rs3 rs2 rs1 rm rd _).fmt = _ then
    Except.ok (Instr.fmaddS rd rs1 rs2 (fieldsR4 rs3 rs2 rs1 rm rd _).rs3 rm) else _) = _
  rw [fmt_fieldsR4, if_pos rfl, rs3_fieldsR4]

theorem Laws.FieldsRoundTrip.fmaxS (rd rs1 rs2 : FReg) :
    Laws.FieldsRoundTrip.Statement (.fmaxS rd rs1 rs2) := fun _ => rfl

theorem Laws.FieldsRoundTrip.fminS (rd rs1 rs2 : FReg) :
    Laws.FieldsRoundTrip.Statement (.fminS rd rs1 rs2) := fun _ => rfl

theorem Laws.FieldsRoundTrip.fmsubS (rd rs1 rs2 rs3 : FReg) (rm : BitVec 3) :
    Laws.FieldsRoundTrip.Statement (.fmsubS rd rs1 rs2 rs3 rm) := by
  intro _
  show (if (fieldsR4 rs3 rs2 rs1 rm rd _).fmt = _ then
    Except.ok (Instr.fmsubS rd rs1 rs2 (fieldsR4 rs3 rs2 rs1 rm rd _).rs3 rm) else _) = _
  rw [fmt_fieldsR4, if_pos rfl, rs3_fieldsR4]

theorem Laws.FieldsRoundTrip.fmulS (rd rs1 rs2 : FReg) (rm : BitVec 3) :
    Laws.FieldsRoundTrip.Statement (.fmulS rd rs1 rs2 rm) := fun _ => rfl

theorem Laws.FieldsRoundTrip.fnmaddS (rd rs1 rs2 rs3 : FReg) (rm : BitVec 3) :
    Laws.FieldsRoundTrip.Statement (.fnmaddS rd rs1 rs2 rs3 rm) := by
  intro _
  show (if (fieldsR4 rs3 rs2 rs1 rm rd _).fmt = _ then
    Except.ok (Instr.fnmaddS rd rs1 rs2 (fieldsR4 rs3 rs2 rs1 rm rd _).rs3 rm) else _) = _
  rw [fmt_fieldsR4, if_pos rfl, rs3_fieldsR4]

theorem Laws.FieldsRoundTrip.fnmsubS (rd rs1 rs2 rs3 : FReg) (rm : BitVec 3) :
    Laws.FieldsRoundTrip.Statement (.fnmsubS rd rs1 rs2 rs3 rm) := by
  intro _
  show (if (fieldsR4 rs3 rs2 rs1 rm rd _).fmt = _ then
    Except.ok (Instr.fnmsubS rd rs1 rs2 (fieldsR4 rs3 rs2 rs1 rm rd _).rs3 rm) else _) = _
  rw [fmt_fieldsR4, if_pos rfl, rs3_fieldsR4]

theorem Laws.FieldsRoundTrip.fsqrtS (rd rs1 : FReg) (rm : BitVec 3) :
    Laws.FieldsRoundTrip.Statement (.fsqrtS rd rs1 rm) := fun _ => rfl

theorem Laws.FieldsRoundTrip.fsubS (rd rs1 rs2 : FReg) (rm : BitVec 3) :
    Laws.FieldsRoundTrip.Statement (.fsubS rd rs1 rs2 rm) := fun _ => rfl

theorem Laws.FieldsRoundTrip.fclassS (rd : XReg) (rs1 : FReg) :
    Laws.FieldsRoundTrip.Statement (.fclassS rd rs1) := fun _ => rfl

theorem Laws.FieldsRoundTrip.fcvtSW (rd : FReg) (rs1 : XReg) (rm : BitVec 3) :
    Laws.FieldsRoundTrip.Statement (.fcvtSW rd rs1 rm) := fun _ => rfl

theorem Laws.FieldsRoundTrip.fcvtSWU (rd : FReg) (rs1 : XReg) (rm : BitVec 3) :
    Laws.FieldsRoundTrip.Statement (.fcvtSWU rd rs1 rm) := fun _ => rfl

theorem Laws.FieldsRoundTrip.fcvtWS (rd : XReg) (rs1 : FReg) (rm : BitVec 3) :
    Laws.FieldsRoundTrip.Statement (.fcvtWS rd rs1 rm) := fun _ => rfl

theorem Laws.FieldsRoundTrip.fcvtWUS (rd : XReg) (rs1 : FReg) (rm : BitVec 3) :
    Laws.FieldsRoundTrip.Statement (.fcvtWUS rd rs1 rm) := fun _ => rfl

theorem Laws.FieldsRoundTrip.feqS (rd : XReg) (rs1 rs2 : FReg) :
    Laws.FieldsRoundTrip.Statement (.feqS rd rs1 rs2) := fun _ => rfl

theorem Laws.FieldsRoundTrip.fleS (rd : XReg) (rs1 rs2 : FReg) :
    Laws.FieldsRoundTrip.Statement (.fleS rd rs1 rs2) := fun _ => rfl

theorem Laws.FieldsRoundTrip.fltS (rd : XReg) (rs1 rs2 : FReg) :
    Laws.FieldsRoundTrip.Statement (.fltS rd rs1 rs2) := fun _ => rfl

theorem Laws.FieldsRoundTrip.flw (rd : FReg) (rs1 : XReg) (offset : BitVec 12) :
    Laws.FieldsRoundTrip.Statement (.flw rd rs1 offset) := by
  intro _
  show Except.ok (Instr.flw rd rs1 (fieldsI offset rs1 _ rd _).immI) = _
  rw [immI_fieldsI]

theorem Laws.FieldsRoundTrip.fmvWX (rd : FReg) (rs1 : XReg) :
    Laws.FieldsRoundTrip.Statement (.fmvWX rd rs1) := fun _ => rfl

theorem Laws.FieldsRoundTrip.fmvXW (rd : XReg) (rs1 : FReg) :
    Laws.FieldsRoundTrip.Statement (.fmvXW rd rs1) := fun _ => rfl

theorem Laws.FieldsRoundTrip.fsgnjS (rd rs1 rs2 : FReg) :
    Laws.FieldsRoundTrip.Statement (.fsgnjS rd rs1 rs2) := fun _ => rfl

theorem Laws.FieldsRoundTrip.fsgnjnS (rd rs1 rs2 : FReg) :
    Laws.FieldsRoundTrip.Statement (.fsgnjnS rd rs1 rs2) := fun _ => rfl

theorem Laws.FieldsRoundTrip.fsgnjxS (rd rs1 rs2 : FReg) :
    Laws.FieldsRoundTrip.Statement (.fsgnjxS rd rs1 rs2) := fun _ => rfl

theorem Laws.FieldsRoundTrip.fsw (rs2 : FReg) (rs1 : XReg) (offset : BitVec 12) :
    Laws.FieldsRoundTrip.Statement (.fsw rs2 rs1 offset) := by
  intro _
  show Except.ok (Instr.fsw rs2 rs1 (fieldsS offset rs2 rs1 _ _).immS) = _
  rw [immS_fieldsS]

end Sys2Proof
end

