-- ==== Sys2Proof/Tests/Slice0.lean ====
section
/-! SUPPORT. The model's own tests: ill-formed terms are refused, every constructor's word written out from the encoding of 30_encoding.md R137 decodes to it, one or two steps of every instruction from the spec's test vectors (95_test_vectors.md, 96_test_vectors_float.md), and a witness for the hypotheses of every statement. -/

namespace Sys2Proof.Tests

open Sys2Proof Sys2Proof.Machine

/-! ## Well-formedness: an odd offset has no encoding (30_encoding.md R122, R124) -/

theorem test_illformed_beq : (Instr.beq 1#5 2#5 9#13).wellFormed = false := by decide

theorem test_illformed_bge : (Instr.bge 1#5 2#5 9#13).wellFormed = false := by decide

theorem test_illformed_bgeu : (Instr.bgeu 1#5 2#5 9#13).wellFormed = false := by decide

theorem test_illformed_blt : (Instr.blt 1#5 2#5 9#13).wellFormed = false := by decide

theorem test_illformed_bltu : (Instr.bltu 1#5 2#5 9#13).wellFormed = false := by decide

theorem test_illformed_bne : (Instr.bne 1#5 2#5 9#13).wellFormed = false := by decide

theorem test_illformed_jal : (Instr.jal 1#5 1048575#21).wellFormed = false := by decide

/-! ## Decoding: the bits of each word are the row of 30_encoding.md R137, with the fields filled in -/

theorem test_decode_add :
    decodeWord 0b00000000101000101000000110110011#32 = .ok (.add 3#5 5#5 10#5) := by decide

theorem test_decode_addi :
    decodeWord 0b10110011101000101000000110010011#32 = .ok (.addi 3#5 5#5 0xB3A#12) := by decide

theorem test_decode_and :
    decodeWord 0b00000000101000101111000110110011#32 = .ok (.and 3#5 5#5 10#5) := by decide

theorem test_decode_andi :
    decodeWord 0b10110011101000101111000110010011#32 = .ok (.andi 3#5 5#5 0xB3A#12) := by decide

theorem test_decode_auipc :
    decodeWord 0b10101011110011011110000110010111#32 = .ok (.auipc 3#5 0xABCDE#20) := by decide

theorem test_decode_lui :
    decodeWord 0b10101011110011011110000110110111#32 = .ok (.lui 3#5 0xABCDE#20) := by decide

theorem test_decode_or :
    decodeWord 0b00000000101000101110000110110011#32 = .ok (.or 3#5 5#5 10#5) := by decide

theorem test_decode_ori :
    decodeWord 0b10110011101000101110000110010011#32 = .ok (.ori 3#5 5#5 0xB3A#12) := by decide

theorem test_decode_sll :
    decodeWord 0b00000000101000101001000110110011#32 = .ok (.sll 3#5 5#5 10#5) := by decide

theorem test_decode_slli :
    decodeWord 0b00000001001100101001000110010011#32 = .ok (.slli 3#5 5#5 19#5) := by decide

theorem test_decode_slt :
    decodeWord 0b00000000101000101010000110110011#32 = .ok (.slt 3#5 5#5 10#5) := by decide

theorem test_decode_slti :
    decodeWord 0b10110011101000101010000110010011#32 = .ok (.slti 3#5 5#5 0xB3A#12) := by decide

theorem test_decode_sltiu :
    decodeWord 0b10110011101000101011000110010011#32 = .ok (.sltiu 3#5 5#5 0xB3A#12) := by decide

theorem test_decode_sltu :
    decodeWord 0b00000000101000101011000110110011#32 = .ok (.sltu 3#5 5#5 10#5) := by decide

theorem test_decode_sra :
    decodeWord 0b01000000101000101101000110110011#32 = .ok (.sra 3#5 5#5 10#5) := by decide

theorem test_decode_srai :
    decodeWord 0b01000001001100101101000110010011#32 = .ok (.srai 3#5 5#5 19#5) := by decide

theorem test_decode_srl :
    decodeWord 0b00000000101000101101000110110011#32 = .ok (.srl 3#5 5#5 10#5) := by decide

theorem test_decode_srli :
    decodeWord 0b00000001001100101101000110010011#32 = .ok (.srli 3#5 5#5 19#5) := by decide

theorem test_decode_sub :
    decodeWord 0b01000000101000101000000110110011#32 = .ok (.sub 3#5 5#5 10#5) := by decide

theorem test_decode_xor :
    decodeWord 0b00000000101000101100000110110011#32 = .ok (.xor 3#5 5#5 10#5) := by decide

theorem test_decode_xori :
    decodeWord 0b10110011101000101100000110010011#32 = .ok (.xori 3#5 5#5 0xB3A#12) := by decide

theorem test_decode_beq :
    decodeWord 0b11011010101000101000100101100011#32 = .ok (.beq 5#5 10#5 0x15B2#13) := by decide

theorem test_decode_bge :
    decodeWord 0b11011010101000101101100101100011#32 = .ok (.bge 5#5 10#5 0x15B2#13) := by decide

theorem test_decode_bgeu :
    decodeWord 0b11011010101000101111100101100011#32 = .ok (.bgeu 5#5 10#5 0x15B2#13) := by decide

theorem test_decode_blt :
    decodeWord 0b11011010101000101100100101100011#32 = .ok (.blt 5#5 10#5 0x15B2#13) := by decide

theorem test_decode_bltu :
    decodeWord 0b11011010101000101110100101100011#32 = .ok (.bltu 5#5 10#5 0x15B2#13) := by decide

theorem test_decode_bne :
    decodeWord 0b11011010101000101001100101100011#32 = .ok (.bne 5#5 10#5 0x15B2#13) := by decide

theorem test_decode_jal :
    decodeWord 0b10100111001101101110000111101111#32 = .ok (.jal 3#5 0x16EA72#21) := by decide

theorem test_decode_jalr :
    decodeWord 0b10110011101000101000000111100111#32 = .ok (.jalr 3#5 5#5 0xB3A#12) := by decide

theorem test_decode_lb :
    decodeWord 0b10110011101000101000000110000011#32 = .ok (.lb 3#5 5#5 0xB3A#12) := by decide

theorem test_decode_lbu :
    decodeWord 0b10110011101000101100000110000011#32 = .ok (.lbu 3#5 5#5 0xB3A#12) := by decide

theorem test_decode_lh :
    decodeWord 0b10110011101000101001000110000011#32 = .ok (.lh 3#5 5#5 0xB3A#12) := by decide

theorem test_decode_lhu :
    decodeWord 0b10110011101000101101000110000011#32 = .ok (.lhu 3#5 5#5 0xB3A#12) := by decide

theorem test_decode_lw :
    decodeWord 0b10110011101000101010000110000011#32 = .ok (.lw 3#5 5#5 0xB3A#12) := by decide

theorem test_decode_sb :
    decodeWord 0b10110010101000101000110100100011#32 = .ok (.sb 10#5 5#5 0xB3A#12) := by decide

theorem test_decode_sh :
    decodeWord 0b10110010101000101001110100100011#32 = .ok (.sh 10#5 5#5 0xB3A#12) := by decide

theorem test_decode_sw :
    decodeWord 0b10110010101000101010110100100011#32 = .ok (.sw 10#5 5#5 0xB3A#12) := by decide

theorem test_decode_div :
    decodeWord 0b00000010101000101100000110110011#32 = .ok (.div 3#5 5#5 10#5) := by decide

theorem test_decode_divu :
    decodeWord 0b00000010101000101101000110110011#32 = .ok (.divu 3#5 5#5 10#5) := by decide

theorem test_decode_mul :
    decodeWord 0b00000010101000101000000110110011#32 = .ok (.mul 3#5 5#5 10#5) := by decide

theorem test_decode_mulh :
    decodeWord 0b00000010101000101001000110110011#32 = .ok (.mulh 3#5 5#5 10#5) := by decide

theorem test_decode_mulhsu :
    decodeWord 0b00000010101000101010000110110011#32 = .ok (.mulhsu 3#5 5#5 10#5) := by decide

theorem test_decode_mulhu :
    decodeWord 0b00000010101000101011000110110011#32 = .ok (.mulhu 3#5 5#5 10#5) := by decide

theorem test_decode_rem :
    decodeWord 0b00000010101000101110000110110011#32 = .ok (.rem 3#5 5#5 10#5) := by decide

theorem test_decode_remu :
    decodeWord 0b00000010101000101111000110110011#32 = .ok (.remu 3#5 5#5 10#5) := by decide

theorem test_decode_csrrc :
    decodeWord 0b00000000001100101011000111110011#32 = .ok (.csrrc 3#5 3#12 5#5) := by decide

theorem test_decode_csrrci :
    decodeWord 0b00000000001111001111000111110011#32 = .ok (.csrrci 3#5 3#12 25#5) := by decide

theorem test_decode_csrrs :
    decodeWord 0b00000000001100101010000111110011#32 = .ok (.csrrs 3#5 3#12 5#5) := by decide

theorem test_decode_csrrsi :
    decodeWord 0b00000000001111001110000111110011#32 = .ok (.csrrsi 3#5 3#12 25#5) := by decide

theorem test_decode_csrrw :
    decodeWord 0b00000000001100101001000111110011#32 = .ok (.csrrw 3#5 3#12 5#5) := by decide

theorem test_decode_csrrwi :
    decodeWord 0b00000000001111001101000111110011#32 = .ok (.csrrwi 3#5 3#12 25#5) := by decide

theorem test_decode_ebreak :
    decodeWord 0b00000000000100000000000001110011#32 = .ok .ebreak := by decide

theorem test_decode_ecall :
    decodeWord 0b00000000000000000000000001110011#32 = .ok .ecall := by decide

theorem test_decode_fence :
    decodeWord 0b10000010001100101000000110001111#32 = .ok (.fence 8#4 2#4 3#4 5#5 3#5) := by decide

theorem test_decode_faddS :
    decodeWord 0b00000000101000101011000111010011#32 = .ok (.faddS 3#5 5#5 10#5 3#3) := by decide

theorem test_decode_fdivS :
    decodeWord 0b00011000101000101011000111010011#32 = .ok (.fdivS 3#5 5#5 10#5 3#3) := by decide

theorem test_decode_fmaddS :
    decodeWord 0b10110000101000101011000111000011#32 = .ok (.fmaddS 3#5 5#5 10#5 22#5 3#3) := by decide

theorem test_decode_fmaxS :
    decodeWord 0b00101000101000101001000111010011#32 = .ok (.fmaxS 3#5 5#5 10#5) := by decide

theorem test_decode_fminS :
    decodeWord 0b00101000101000101000000111010011#32 = .ok (.fminS 3#5 5#5 10#5) := by decide

theorem test_decode_fmsubS :
    decodeWord 0b10110000101000101011000111000111#32 = .ok (.fmsubS 3#5 5#5 10#5 22#5 3#3) := by decide

theorem test_decode_fmulS :
    decodeWord 0b00010000101000101011000111010011#32 = .ok (.fmulS 3#5 5#5 10#5 3#3) := by decide

theorem test_decode_fnmaddS :
    decodeWord 0b10110000101000101011000111001111#32 = .ok (.fnmaddS 3#5 5#5 10#5 22#5 3#3) := by decide

theorem test_decode_fnmsubS :
    decodeWord 0b10110000101000101011000111001011#32 = .ok (.fnmsubS 3#5 5#5 10#5 22#5 3#3) := by decide

theorem test_decode_fsqrtS :
    decodeWord 0b01011000000000101011000111010011#32 = .ok (.fsqrtS 3#5 5#5 3#3) := by decide

theorem test_decode_fsubS :
    decodeWord 0b00001000101000101011000111010011#32 = .ok (.fsubS 3#5 5#5 10#5 3#3) := by decide

theorem test_decode_fclassS :
    decodeWord 0b11100000000000101001000111010011#32 = .ok (.fclassS 3#5 5#5) := by decide

theorem test_decode_fcvtSW :
    decodeWord 0b11010000000000101011000111010011#32 = .ok (.fcvtSW 3#5 5#5 3#3) := by decide

theorem test_decode_fcvtSWU :
    decodeWord 0b11010000000100101011000111010011#32 = .ok (.fcvtSWU 3#5 5#5 3#3) := by decide

theorem test_decode_fcvtWS :
    decodeWord 0b11000000000000101011000111010011#32 = .ok (.fcvtWS 3#5 5#5 3#3) := by decide

theorem test_decode_fcvtWUS :
    decodeWord 0b11000000000100101011000111010011#32 = .ok (.fcvtWUS 3#5 5#5 3#3) := by decide

theorem test_decode_feqS :
    decodeWord 0b10100000101000101010000111010011#32 = .ok (.feqS 3#5 5#5 10#5) := by decide

theorem test_decode_fleS :
    decodeWord 0b10100000101000101000000111010011#32 = .ok (.fleS 3#5 5#5 10#5) := by decide

theorem test_decode_fltS :
    decodeWord 0b10100000101000101001000111010011#32 = .ok (.fltS 3#5 5#5 10#5) := by decide

theorem test_decode_flw :
    decodeWord 0b10110011101000101010000110000111#32 = .ok (.flw 3#5 5#5 0xB3A#12) := by decide

theorem test_decode_fmvWX :
    decodeWord 0b11110000000000101000000111010011#32 = .ok (.fmvWX 3#5 5#5) := by decide

theorem test_decode_fmvXW :
    decodeWord 0b11100000000000101000000111010011#32 = .ok (.fmvXW 3#5 5#5) := by decide

theorem test_decode_fsgnjS :
    decodeWord 0b00100000101000101000000111010011#32 = .ok (.fsgnjS 3#5 5#5 10#5) := by decide

theorem test_decode_fsgnjnS :
    decodeWord 0b00100000101000101001000111010011#32 = .ok (.fsgnjnS 3#5 5#5 10#5) := by decide

theorem test_decode_fsgnjxS :
    decodeWord 0b00100000101000101010000111010011#32 = .ok (.fsgnjxS 3#5 5#5 10#5) := by decide

theorem test_decode_fsw :
    decodeWord 0b10110010101000101010110100100111#32 = .ok (.fsw 10#5 5#5 0xB3A#12) := by decide

theorem test_reject_zeros : decodeWord 0x00000000#32 = .error .lowBits := by decide

theorem test_reject_ones : decodeWord 0xFFFFFFFF#32 = .error .majorOpcode := by decide

theorem test_reject_shiftBit25 : decodeWord 0x02109193#32 = .error .selector := by decide

theorem test_reject_fenceI : decodeWord 0x0000100F#32 = .error .selector := by decide

theorem test_reject_mret : decodeWord 0x30200073#32 = .error .selector := by decide

theorem test_reject_atomic : decodeWord 0x1005202F#32 = .error .majorOpcode := by decide

theorem test_reject_doubleAdd : decodeWord 0x0220F1D3#32 = .error .selector := by decide

theorem test_reject_sqrtRs2 : decodeWord 0x5810F1D3#32 = .error .selector := by decide

theorem test_reject_compressed : decodeWord 0x00004501#32 = .error .lowBits := by decide

/-! ## Steps -/

/-- Running at 0x100, with the first 64 KiB mapped R, W and X: the start of the spec's vectors. -/
def base : State :=
  { State.reset with pc := 0x100#32, params := ⟨[⟨0, 0x10000, true, true, true⟩], .trap⟩ }

/-- The next state of a word placed at `pc`, seen through `view`. -/
def runs {α : Type} (s : State) (w : Word) (view : State → α) : Option α :=
  match step (s.placeWord w) with
  | .next t => some (view t)
  | _ => none

/-- A byte that the environment placed. -/
def withByte (s : State) (a : Nat) (b : Byte) : State := { s with mem := s.mem.write a b }

/-- T1 of 95_test_vectors.md: add x3, x1, x2. -/
theorem test_add_vector1 :
    runs ((base.setX 1#5 0x7FFFFFFF#32).setX 2#5 0x00000001#32) 0x002081B3#32 (fun t => (t.getX 3#5, t.pc)) =
      some (0x80000000#32, 0x00000104#32) := by decide

/-- T4 of 95_test_vectors.md: addi x5, x0, -1. -/
theorem test_addi_vector4 :
    runs base 0xFFF00293#32 (fun t => (t.getX 5#5, t.pc)) =
      some (0xFFFFFFFF#32, 0x00000104#32) := by decide

/-- T7 of 95_test_vectors.md: sub x3, x1, x2. -/
theorem test_sub_vector7 :
    runs ((base.setX 1#5 0x00000000#32).setX 2#5 0x00000001#32) 0x402081B3#32 (fun t => (t.getX 3#5, t.pc)) =
      some (0xFFFFFFFF#32, 0x00000104#32) := by decide

/-- T9 of 95_test_vectors.md: and x3, x1, x2. -/
theorem test_and_vector9 :
    runs ((base.setX 1#5 0xF0F0FF00#32).setX 2#5 0x0FF0F0F0#32) 0x0020F1B3#32 (fun t => (t.getX 3#5, t.pc)) =
      some (0x00F0F000#32, 0x00000104#32) := by decide

/-- T10 of 95_test_vectors.md: or x3, x1, x2. -/
theorem test_or_vector10 :
    runs ((base.setX 1#5 0xF0F0FF00#32).setX 2#5 0x0FF0F0F0#32) 0x0020E1B3#32 (fun t => (t.getX 3#5, t.pc)) =
      some (0xFFF0FFF0#32, 0x00000104#32) := by decide

/-- T11 of 95_test_vectors.md: xor x3, x1, x2. -/
theorem test_xor_vector11 :
    runs ((base.setX 1#5 0xF0F0FF00#32).setX 2#5 0x0FF0F0F0#32) 0x0020C1B3#32 (fun t => (t.getX 3#5, t.pc)) =
      some (0xFF000FF0#32, 0x00000104#32) := by decide

/-- T12 of 95_test_vectors.md: andi x3, x1, -16. -/
theorem test_andi_vector12 :
    runs (base.setX 1#5 0x12345678#32) 0xFF00F193#32 (fun t => (t.getX 3#5, t.pc)) =
      some (0x12345670#32, 0x00000104#32) := by decide

/-- T13 of 95_test_vectors.md: ori x3, x1, -2048. -/
theorem test_ori_vector13 :
    runs (base.setX 1#5 0x00000123#32) 0x8000E193#32 (fun t => (t.getX 3#5, t.pc)) =
      some (0xFFFFF923#32, 0x00000104#32) := by decide

/-- T14 of 95_test_vectors.md: xori x3, x1, -1. -/
theorem test_xori_vector14 :
    runs (base.setX 1#5 0x12345678#32) 0xFFF0C193#32 (fun t => (t.getX 3#5, t.pc)) =
      some (0xEDCBA987#32, 0x00000104#32) := by decide

/-- T15 of 95_test_vectors.md: slt x3, x1, x2. -/
theorem test_slt_vector15 :
    runs ((base.setX 1#5 0xFFFFFFFF#32).setX 2#5 0x00000001#32) 0x0020A1B3#32 (fun t => (t.getX 3#5, t.pc)) =
      some (0x00000001#32, 0x00000104#32) := by decide

/-- T16 of 95_test_vectors.md: sltu x3, x1, x2. -/
theorem test_sltu_vector16 :
    runs (((base.setX 1#5 0xFFFFFFFF#32).setX 2#5 0x00000001#32).setX 3#5 0x00000007#32) 0x0020B1B3#32 (fun t => (t.getX 3#5, t.pc)) =
      some (0x00000000#32, 0x00000104#32) := by decide

/-- T18 of 95_test_vectors.md: slti x3, x1, -1. -/
theorem test_slti_vector18 :
    runs (base.setX 1#5 0x80000000#32) 0xFFF0A193#32 (fun t => (t.getX 3#5, t.pc)) =
      some (0x00000001#32, 0x00000104#32) := by decide

/-- T19 of 95_test_vectors.md: sltiu x3, x1, -1. -/
theorem test_sltiu_vector19 :
    runs (base.setX 1#5 0xFFFFFFFE#32) 0xFFF0B193#32 (fun t => (t.getX 3#5, t.pc)) =
      some (0x00000001#32, 0x00000104#32) := by decide

/-- T21 of 95_test_vectors.md: sll x3, x1, x2. -/
theorem test_sll_vector21 :
    runs ((base.setX 1#5 0x80000001#32).setX 2#5 0x00000021#32) 0x002091B3#32 (fun t => (t.getX 3#5, t.pc)) =
      some (0x00000002#32, 0x00000104#32) := by decide

/-- T22 of 95_test_vectors.md: srl x3, x1, x2. -/
theorem test_srl_vector22 :
    runs ((base.setX 1#5 0x80000000#32).setX 2#5 0xFFFFFFFF#32) 0x0020D1B3#32 (fun t => (t.getX 3#5, t.pc)) =
      some (0x00000001#32, 0x00000104#32) := by decide

/-- T23 of 95_test_vectors.md: sra x3, x1, x2. -/
theorem test_sra_vector23 :
    runs ((base.setX 1#5 0x80000000#32).setX 2#5 0xFFFFFFFF#32) 0x4020D1B3#32 (fun t => (t.getX 3#5, t.pc)) =
      some (0xFFFFFFFF#32, 0x00000104#32) := by decide

/-- T25 of 95_test_vectors.md: slli x3, x1, 31. -/
theorem test_slli_vector25 :
    runs (base.setX 1#5 0x00000003#32) 0x01F09193#32 (fun t => (t.getX 3#5, t.pc)) =
      some (0x80000000#32, 0x00000104#32) := by decide

/-- T26 of 95_test_vectors.md: srli x3, x1, 4. -/
theorem test_srli_vector26 :
    runs (base.setX 1#5 0xF0000000#32) 0x0040D193#32 (fun t => (t.getX 3#5, t.pc)) =
      some (0x0F000000#32, 0x00000104#32) := by decide

/-- T27 of 95_test_vectors.md: srai x3, x1, 4. -/
theorem test_srai_vector27 :
    runs (base.setX 1#5 0xF0000000#32) 0x4040D193#32 (fun t => (t.getX 3#5, t.pc)) =
      some (0xFF000000#32, 0x00000104#32) := by decide

/-- T30 of 95_test_vectors.md: lui x5, 0xFFFFF. -/
theorem test_lui_vector30 :
    runs base 0xFFFFF2B7#32 (fun t => (t.getX 5#5, t.pc)) =
      some (0xFFFFF000#32, 0x00000104#32) := by decide

/-- T32 of 95_test_vectors.md: auipc x5, 0x1. -/
theorem test_auipc_vector32 :
    runs base 0x00001297#32 (fun t => (t.getX 5#5, t.pc)) =
      some (0x00001100#32, 0x00000104#32) := by decide

/-- T35 of 95_test_vectors.md: beq x1, x2, 8. -/
theorem test_beq_vector35 :
    runs ((base.setX 1#5 0x00000005#32).setX 2#5 0x00000005#32) 0x00208463#32 (fun t => (t.pc)) =
      some (0x00000108#32) := by decide

/-- T37 of 95_test_vectors.md: bne x1, x2, -8. -/
theorem test_bne_vector37 :
    runs ((base.setX 1#5 0x00000005#32).setX 2#5 0x00000006#32) 0xFE209CE3#32 (fun t => (t.pc)) =
      some (0x000000F8#32) := by decide

/-- T38 of 95_test_vectors.md: blt x1, x2, 16. -/
theorem test_blt_vector38 :
    runs ((base.setX 1#5 0xFFFFFFFF#32).setX 2#5 0x00000001#32) 0x0020C863#32 (fun t => (t.pc)) =
      some (0x00000110#32) := by decide

/-- T39 of 95_test_vectors.md: bltu x1, x2, 16. -/
theorem test_bltu_vector39 :
    runs ((base.setX 1#5 0xFFFFFFFF#32).setX 2#5 0x00000001#32) 0x0020E863#32 (fun t => (t.pc)) =
      some (0x00000104#32) := by decide

/-- T40 of 95_test_vectors.md: bge x1, x2, 16. -/
theorem test_bge_vector40 :
    runs ((base.setX 1#5 0x00000007#32).setX 2#5 0x00000007#32) 0x0020D863#32 (fun t => (t.pc)) =
      some (0x00000110#32) := by decide

/-- T42 of 95_test_vectors.md: bgeu x1, x2, 16. -/
theorem test_bgeu_vector42 :
    runs ((base.setX 1#5 0x80000000#32).setX 2#5 0x00000000#32) 0x0020F863#32 (fun t => (t.pc)) =
      some (0x00000110#32) := by decide

/-- T48 of 95_test_vectors.md: jal x1, 16. -/
theorem test_jal_vector48 :
    runs base 0x010000EF#32 (fun t => (t.getX 1#5, t.pc)) =
      some (0x00000104#32, 0x00000110#32) := by decide

/-- T50 of 95_test_vectors.md: jal x1, 2. -/
theorem test_jal_vector50 :
    runs (base.setX 1#5 0x00000077#32) 0x002000EF#32 (fun t => (t.outcome, t.pc)) =
      some (.trapped ⟨.instructionAddressMisaligned, 0x00000100#32, 0x00000102#32⟩, 0x00000100#32) := by decide

/-- T52 of 95_test_vectors.md: jalr x1, 0(x5). -/
theorem test_jalr_vector52 :
    runs (base.setX 5#5 0x00000201#32) 0x000280E7#32 (fun t => (t.getX 1#5, t.pc)) =
      some (0x00000104#32, 0x00000200#32) := by decide

/-- T55 of 95_test_vectors.md: jalr x1, -3(x5). -/
theorem test_jalr_vector55 :
    runs ((base.setX 5#5 0x00000206#32).setX 1#5 0x00000077#32) 0xFFD280E7#32 (fun t => (t.outcome, t.pc)) =
      some (.trapped ⟨.instructionAddressMisaligned, 0x00000100#32, 0x00000202#32⟩, 0x00000100#32) := by decide

/-- T57 of 95_test_vectors.md: lw x5, 0(x2). -/
theorem test_lw_vector57 :
    runs (withByte (withByte (withByte (withByte (base.setX 2#5 0x00002000#32) 0x2000 0x80#8) 0x2001 0x91#8) 0x2002 0xA2#8) 0x2003 0xF3#8) 0x00012283#32 (fun t => (t.getX 5#5, t.pc)) =
      some (0xF3A29180#32, 0x00000104#32) := by decide

/-- T58 of 95_test_vectors.md: lb x5, 0(x2). -/
theorem test_lb_vector58 :
    runs (withByte (withByte (withByte (withByte (base.setX 2#5 0x00002000#32) 0x2000 0x80#8) 0x2001 0x91#8) 0x2002 0xA2#8) 0x2003 0xF3#8) 0x00010283#32 (fun t => (t.getX 5#5, t.pc)) =
      some (0xFFFFFF80#32, 0x00000104#32) := by decide

/-- T59 of 95_test_vectors.md: lbu x5, 0(x2). -/
theorem test_lbu_vector59 :
    runs (withByte (withByte (withByte (withByte (base.setX 2#5 0x00002000#32) 0x2000 0x80#8) 0x2001 0x91#8) 0x2002 0xA2#8) 0x2003 0xF3#8) 0x00014283#32 (fun t => (t.getX 5#5, t.pc)) =
      some (0x00000080#32, 0x00000104#32) := by decide

/-- T61 of 95_test_vectors.md: lh x5, 2(x2). -/
theorem test_lh_vector61 :
    runs (withByte (withByte (withByte (withByte (base.setX 2#5 0x00002000#32) 0x2000 0x80#8) 0x2001 0x91#8) 0x2002 0xA2#8) 0x2003 0xF3#8) 0x00211283#32 (fun t => (t.getX 5#5, t.pc)) =
      some (0xFFFFF3A2#32, 0x00000104#32) := by decide

/-- T62 of 95_test_vectors.md: lhu x5, 2(x2). -/
theorem test_lhu_vector62 :
    runs (withByte (withByte (withByte (withByte (base.setX 2#5 0x00002000#32) 0x2000 0x80#8) 0x2001 0x91#8) 0x2002 0xA2#8) 0x2003 0xF3#8) 0x00215283#32 (fun t => (t.getX 5#5, t.pc)) =
      some (0x0000F3A2#32, 0x00000104#32) := by decide

/-- T66 of 95_test_vectors.md: lw x5, 1(x2). -/
theorem test_lw_vector66 :
    runs (withByte (withByte (withByte (withByte ((base.setX 2#5 0x00002000#32).setX 5#5 0x00000077#32) 0x2000 0x80#8) 0x2001 0x91#8) 0x2002 0xA2#8) 0x2003 0xF3#8) 0x00112283#32 (fun t => (t.outcome, t.pc)) =
      some (.trapped ⟨.loadAddressMisaligned, 0x00000100#32, 0x00002001#32⟩, 0x00000100#32) := by decide

/-- T67 of 95_test_vectors.md: lh x5, 1(x2). -/
theorem test_lh_vector67 :
    runs (withByte (withByte (withByte (withByte ((base.setX 2#5 0x00002000#32).setX 5#5 0x00000077#32) 0x2000 0x80#8) 0x2001 0x91#8) 0x2002 0xA2#8) 0x2003 0xF3#8) 0x00111283#32 (fun t => (t.outcome, t.pc)) =
      some (.trapped ⟨.loadAddressMisaligned, 0x00000100#32, 0x00002001#32⟩, 0x00000100#32) := by decide

/-- T68 of 95_test_vectors.md: lhu x5, 3(x2). -/
theorem test_lhu_vector68 :
    runs (withByte (withByte (withByte (withByte ((base.setX 2#5 0x00002000#32).setX 5#5 0x00000077#32) 0x2000 0x80#8) 0x2001 0x91#8) 0x2002 0xA2#8) 0x2003 0xF3#8) 0x00315283#32 (fun t => (t.outcome, t.pc)) =
      some (.trapped ⟨.loadAddressMisaligned, 0x00000100#32, 0x00002003#32⟩, 0x00000100#32) := by decide

/-- T71 of 95_test_vectors.md: lb x5, -1(x0). -/
theorem test_lb_vector71 :
    runs (base.setX 5#5 0x00000077#32) 0xFFF00283#32 (fun t => (t.outcome, t.pc)) =
      some (.trapped ⟨.loadAccessFault, 0x00000100#32, 0xFFFFFFFF#32⟩, 0x00000100#32) := by decide

/-- T73 of 95_test_vectors.md: sw x5, 8(x2). -/
theorem test_sw_vector73 :
    runs ((base.setX 2#5 0x00002000#32).setX 5#5 0x11223344#32) 0x00512423#32 (fun t => (t.mem.read 0x2008, t.mem.read 0x2009, t.mem.read 0x200A, t.mem.read 0x200B, t.pc)) =
      some (0x44#8, 0x33#8, 0x22#8, 0x11#8, 0x00000104#32) := by decide

/-- T74 of 95_test_vectors.md: sh x5, 2(x2). -/
theorem test_sh_vector74 :
    runs ((base.setX 2#5 0x00002000#32).setX 5#5 0x11223344#32) 0x00511123#32 (fun t => (t.mem.read 0x2002, t.mem.read 0x2003, t.pc)) =
      some (0x44#8, 0x33#8, 0x00000104#32) := by decide

/-- T75 of 95_test_vectors.md: sb x5, 3(x2). -/
theorem test_sb_vector75 :
    runs ((base.setX 2#5 0x00002000#32).setX 5#5 0x11223344#32) 0x005101A3#32 (fun t => (t.mem.read 0x2003, t.pc)) =
      some (0x44#8, 0x00000104#32) := by decide

/-- T78 of 95_test_vectors.md: sw x5, 2(x2). -/
theorem test_sw_vector78 :
    runs ((base.setX 2#5 0x00002000#32).setX 5#5 0x11223344#32) 0x00512123#32 (fun t => (t.outcome, t.pc)) =
      some (.trapped ⟨.storeAddressMisaligned, 0x00000100#32, 0x00002002#32⟩, 0x00000100#32) := by decide

/-- T79 of 95_test_vectors.md: sh x5, 1(x2). -/
theorem test_sh_vector79 :
    runs ((base.setX 2#5 0x00002000#32).setX 5#5 0x11223344#32) 0x005110A3#32 (fun t => (t.outcome, t.pc)) =
      some (.trapped ⟨.storeAddressMisaligned, 0x00000100#32, 0x00002001#32⟩, 0x00000100#32) := by decide

/-- T83 of 95_test_vectors.md: mul x3, x1, x2. -/
theorem test_mul_vector83 :
    runs ((base.setX 1#5 0x12345678#32).setX 2#5 0x9ABCDEF0#32) 0x022081B3#32 (fun t => (t.getX 3#5, t.pc)) =
      some (0x242D2080#32, 0x00000104#32) := by decide

/-- T84 of 95_test_vectors.md: mulh x3, x1, x2. -/
theorem test_mulh_vector84 :
    runs ((base.setX 1#5 0x12345678#32).setX 2#5 0x9ABCDEF0#32) 0x022091B3#32 (fun t => (t.getX 3#5, t.pc)) =
      some (0xF8CC93D6#32, 0x00000104#32) := by decide

/-- T85 of 95_test_vectors.md: mulhsu x3, x1, x2. -/
theorem test_mulhsu_vector85 :
    runs ((base.setX 1#5 0x12345678#32).setX 2#5 0x9ABCDEF0#32) 0x0220A1B3#32 (fun t => (t.getX 3#5, t.pc)) =
      some (0x0B00EA4E#32, 0x00000104#32) := by decide

/-- T86 of 95_test_vectors.md: mulhu x3, x1, x2. -/
theorem test_mulhu_vector86 :
    runs ((base.setX 1#5 0x12345678#32).setX 2#5 0x9ABCDEF0#32) 0x0220B1B3#32 (fun t => (t.getX 3#5, t.pc)) =
      some (0x0B00EA4E#32, 0x00000104#32) := by decide

/-- T93 of 95_test_vectors.md: div x3, x1, x2. -/
theorem test_div_vector93 :
    runs ((base.setX 1#5 0xFFFFFFF9#32).setX 2#5 0x00000002#32) 0x0220C1B3#32 (fun t => (t.getX 3#5, t.pc)) =
      some (0xFFFFFFFD#32, 0x00000104#32) := by decide

/-- T94 of 95_test_vectors.md: rem x3, x1, x2. -/
theorem test_rem_vector94 :
    runs ((base.setX 1#5 0xFFFFFFF9#32).setX 2#5 0x00000002#32) 0x0220E1B3#32 (fun t => (t.getX 3#5, t.pc)) =
      some (0xFFFFFFFF#32, 0x00000104#32) := by decide

/-- T97 of 95_test_vectors.md: divu x3, x1, x2. -/
theorem test_divu_vector97 :
    runs ((base.setX 1#5 0xFFFFFFF9#32).setX 2#5 0x00000002#32) 0x0220D1B3#32 (fun t => (t.getX 3#5, t.pc)) =
      some (0x7FFFFFFC#32, 0x00000104#32) := by decide

/-- T98 of 95_test_vectors.md: remu x3, x1, x2. -/
theorem test_remu_vector98 :
    runs ((base.setX 1#5 0xFFFFFFF9#32).setX 2#5 0x00000002#32) 0x0220F1B3#32 (fun t => (t.getX 3#5, t.pc)) =
      some (0x00000001#32, 0x00000104#32) := by decide

/-- T107 of 95_test_vectors.md: csrrw x5, 0x003, x6. -/
theorem test_csrrw_vector107 :
    runs ((base.setX 6#5 0xFFFFFFFF#32).setFcsr 0x21#8) 0x003312F3#32 (fun t => (t.getX 5#5, t.fcsr, t.pc)) =
      some (0x00000021#32, 0xFF#8, 0x00000104#32) := by decide

/-- T110 of 95_test_vectors.md: csrrs x5, 0x003, x0. -/
theorem test_csrrs_vector110 :
    runs (base.setFcsr 0x81#8) 0x003022F3#32 (fun t => (t.getX 5#5, t.pc)) =
      some (0x00000081#32, 0x00000104#32) := by decide

/-- T113 of 95_test_vectors.md: csrrc x5, 0x001, x6. -/
theorem test_csrrc_vector113 :
    runs ((base.setX 6#5 0x0000001F#32).setFcsr 0x7F#8) 0x001332F3#32 (fun t => (t.getX 5#5, t.fcsr, t.pc)) =
      some (0x0000001F#32, 0x60#8, 0x00000104#32) := by decide

/-- T115 of 95_test_vectors.md: csrrwi x0, 0x003, 0. -/
theorem test_csrrwi_vector115 :
    runs (base.setFcsr 0xFF#8) 0x00305073#32 (fun t => (t.fcsr, t.pc)) =
      some (0x00#8, 0x00000104#32) := by decide

/-- T118 of 95_test_vectors.md: csrrsi x5, 0x001, 5. -/
theorem test_csrrsi_vector118 :
    runs (base.setFcsr 0x02#8) 0x0012E2F3#32 (fun t => (t.getX 5#5, t.fcsr, t.pc)) =
      some (0x00000002#32, 0x07#8, 0x00000104#32) := by decide

/-- T120 of 95_test_vectors.md: csrrci x5, 0x002, 7. -/
theorem test_csrrci_vector120 :
    runs (base.setFcsr 0xE3#8) 0x0023F2F3#32 (fun t => (t.getX 5#5, t.fcsr, t.pc)) =
      some (0x00000007#32, 0x03#8, 0x00000104#32) := by decide

/-- T121 of 95_test_vectors.md: csrrs x5, 0xC00, x0. -/
theorem test_csrrs_vector121 :
    runs (base.setX 5#5 0x00000077#32) 0xC00022F3#32 (fun t => (t.outcome, t.pc)) =
      some (.trapped ⟨.illegalInstruction, 0x00000100#32, 0xC00022F3#32⟩, 0x00000100#32) := by decide

/-- T122 of 95_test_vectors.md: csrrw x0, 0x300, x6. -/
theorem test_csrrw_vector122 :
    runs (base.setX 6#5 0x00000008#32) 0x30031073#32 (fun t => (t.outcome, t.pc)) =
      some (.trapped ⟨.illegalInstruction, 0x00000100#32, 0x30031073#32⟩, 0x00000100#32) := by decide

/-- T123 of 95_test_vectors.md: csrrwi x0, 0x000, 0. -/
theorem test_csrrwi_vector123 :
    runs base 0x00005073#32 (fun t => (t.outcome, t.pc)) =
      some (.trapped ⟨.illegalInstruction, 0x00000100#32, 0x00005073#32⟩, 0x00000100#32) := by decide

/-- T124 of 95_test_vectors.md: ecall. -/
theorem test_ecall_vector124 :
    runs ((base.setX 10#5 0x00000001#32).setX 17#5 0x0000005D#32) 0x00000073#32 (fun t => (t.outcome, t.pc)) =
      some (.trapped ⟨.environmentCall, 0x00000100#32, 0x00000000#32⟩, 0x00000100#32) := by decide

/-- T125 of 95_test_vectors.md: ebreak. -/
theorem test_ebreak_vector125 :
    runs base 0x00100073#32 (fun t => (t.outcome, t.pc)) =
      some (.trapped ⟨.breakpoint, 0x00000100#32, 0x00000100#32⟩, 0x00000100#32) := by decide

/-- T129 of 95_test_vectors.md: fence r, rw. -/
theorem test_fence_vector129 :
    runs base 0x0230000F#32 (fun t => (t.pc)) =
      some (0x00000104#32) := by decide

/-- T139 of 96_test_vectors_float.md: fadd.s f3, f1, f2. -/
theorem test_faddS_vector139 :
    runs (((base.setF 1#5 0x3FC00000#32).setF 2#5 0x40100000#32).setFcsr 0x00#8) 0x0020F1D3#32 (fun t => (t.getF 3#5, t.pc)) =
      some (0x40700000#32, 0x00000104#32) := by decide +kernel

/-- T154 of 96_test_vectors_float.md: fadd.s f3, f1, f2 (rm = 101). -/
theorem test_faddS_vector154 :
    runs ((((base.setF 1#5 0x3F800000#32).setF 2#5 0x3F800000#32).setF 3#5 0x00000077#32).setFcsr 0x00#8) 0x0020D1D3#32 (fun t => (t.outcome, t.pc)) =
      some (.trapped ⟨.illegalInstruction, 0x00000100#32, 0x0020D1D3#32⟩, 0x00000100#32) := by decide +kernel

/-- T159 of 96_test_vectors_float.md: fsub.s f3, f1, f2. -/
theorem test_fsubS_vector159 :
    runs (((base.setF 1#5 0x3F800000#32).setF 2#5 0x3F800000#32).setFcsr 0x00#8) 0x0820F1D3#32 (fun t => (t.pc)) =
      some (0x00000104#32) := by decide +kernel

/-- T162 of 96_test_vectors_float.md: fmul.s f3, f1, f2. -/
theorem test_fmulS_vector162 :
    runs (((base.setF 1#5 0x00800000#32).setF 2#5 0x3F000000#32).setFcsr 0x00#8) 0x1020F1D3#32 (fun t => (t.getF 3#5, t.pc)) =
      some (0x00400000#32, 0x00000104#32) := by decide +kernel

/-- T171 of 96_test_vectors_float.md: fdiv.s f3, f1, f2. -/
theorem test_fdivS_vector171 :
    runs (((base.setF 1#5 0x3F800000#32).setF 2#5 0x40400000#32).setFcsr 0x00#8) 0x1820F1D3#32 (fun t => (t.getF 3#5, t.fcsr, t.pc)) =
      some (0x3EAAAAAB#32, 0x01#8, 0x00000104#32) := by decide +kernel

/-- T178 of 96_test_vectors_float.md: fsqrt.s f3, f1. -/
theorem test_fsqrtS_vector178 :
    runs ((base.setF 1#5 0x40000000#32).setFcsr 0x00#8) 0x5800F1D3#32 (fun t => (t.getF 3#5, t.fcsr, t.pc)) =
      some (0x3FB504F3#32, 0x01#8, 0x00000104#32) := by decide +kernel

/-- T184 of 96_test_vectors_float.md: fsqrt.s f3, f1 (rs2 field = 1). -/
theorem test_fsqrtS_vector184 :
    runs ((base.setF 1#5 0x40800000#32).setFcsr 0x00#8) 0x5810F1D3#32 (fun t => (t.outcome, t.pc)) =
      some (.trapped ⟨.illegalInstruction, 0x00000100#32, 0x5810F1D3#32⟩, 0x00000100#32) := by decide +kernel

/-- T185 of 96_test_vectors_float.md: fmadd.s f4, f1, f2, f3. -/
theorem test_fmaddS_vector185 :
    runs ((((base.setF 1#5 0x40000000#32).setF 2#5 0x40400000#32).setF 3#5 0x40800000#32).setFcsr 0x00#8) 0x1820F243#32 (fun t => (t.getF 4#5, t.pc)) =
      some (0x41200000#32, 0x00000104#32) := by decide +kernel

/-- T186 of 96_test_vectors_float.md: fmsub.s f4, f1, f2, f3. -/
theorem test_fmsubS_vector186 :
    runs ((((base.setF 1#5 0x40000000#32).setF 2#5 0x40400000#32).setF 3#5 0x40800000#32).setFcsr 0x00#8) 0x1820F247#32 (fun t => (t.getF 4#5, t.pc)) =
      some (0x40000000#32, 0x00000104#32) := by decide +kernel

/-- T187 of 96_test_vectors_float.md: fnmsub.s f4, f1, f2, f3. -/
theorem test_fnmsubS_vector187 :
    runs ((((base.setF 1#5 0x40000000#32).setF 2#5 0x40400000#32).setF 3#5 0x40800000#32).setFcsr 0x00#8) 0x1820F24B#32 (fun t => (t.getF 4#5, t.pc)) =
      some (0xC0000000#32, 0x00000104#32) := by decide +kernel

/-- T188 of 96_test_vectors_float.md: fnmadd.s f4, f1, f2, f3. -/
theorem test_fnmaddS_vector188 :
    runs ((((base.setF 1#5 0x40000000#32).setF 2#5 0x40400000#32).setF 3#5 0x40800000#32).setFcsr 0x00#8) 0x1820F24F#32 (fun t => (t.getF 4#5, t.pc)) =
      some (0xC1200000#32, 0x00000104#32) := by decide +kernel

/-- T198 of 96_test_vectors_float.md: fmin.s f3, f1, f2. -/
theorem test_fminS_vector198 :
    runs (((base.setF 1#5 0x80000000#32).setF 2#5 0x00000000#32).setFcsr 0x00#8) 0x282081D3#32 (fun t => (t.getF 3#5, t.pc)) =
      some (0x80000000#32, 0x00000104#32) := by decide

/-- T199 of 96_test_vectors_float.md: fmax.s f3, f1, f2. -/
theorem test_fmaxS_vector199 :
    runs ((((base.setF 1#5 0x80000000#32).setF 2#5 0x00000000#32).setF 3#5 0x00000001#32).setFcsr 0x00#8) 0x282091D3#32 (fun t => (t.getF 3#5, t.pc)) =
      some (0x00000000#32, 0x00000104#32) := by decide

/-- T207 of 96_test_vectors_float.md: fclass.s x5, f1. -/
theorem test_fclassS_vector207 :
    runs ((base.setF 1#5 0xFF800000#32).setFcsr 0x00#8) 0xE00092D3#32 (fun t => (t.getX 5#5, t.pc)) =
      some (0x00000001#32, 0x00000104#32) := by decide

/-- T220 of 96_test_vectors_float.md: fcvt.s.w f2, x1. -/
theorem test_fcvtSW_vector220 :
    runs ((base.setX 1#5 0x00000000#32).setFcsr 0x00#8) 0xD000F153#32 (fun t => (t.pc)) =
      some (0x00000104#32) := by decide +kernel

/-- T222 of 96_test_vectors_float.md: fcvt.s.wu f2, x1. -/
theorem test_fcvtSWU_vector222 :
    runs ((base.setX 1#5 0xFFFFFFFF#32).setFcsr 0x00#8) 0xD010F153#32 (fun t => (t.getF 2#5, t.fcsr, t.pc)) =
      some (0x4F800000#32, 0x01#8, 0x00000104#32) := by decide +kernel

/-- T230 of 96_test_vectors_float.md: fcvt.s.w f2, x1 (rm = 101). -/
theorem test_fcvtSW_vector230 :
    runs ((base.setX 1#5 0x00000005#32).setFcsr 0x00#8) 0xD000D153#32 (fun t => (t.outcome, t.pc)) =
      some (.trapped ⟨.illegalInstruction, 0x00000100#32, 0xD000D153#32⟩, 0x00000100#32) := by decide +kernel

/-- T231 of 96_test_vectors_float.md: fcvt.w.s x5, f1. -/
theorem test_fcvtWS_vector231 :
    runs ((base.setF 1#5 0x3FC00000#32).setFcsr 0x00#8) 0xC000F2D3#32 (fun t => (t.getX 5#5, t.fcsr, t.pc)) =
      some (0x00000002#32, 0x01#8, 0x00000104#32) := by decide +kernel

/-- T246 of 96_test_vectors_float.md: fcvt.wu.s x5, f1. -/
theorem test_fcvtWUS_vector246 :
    runs ((base.setF 1#5 0x4F800000#32).setFcsr 0x00#8) 0xC010F2D3#32 (fun t => (t.getX 5#5, t.fcsr, t.pc)) =
      some (0xFFFFFFFF#32, 0x10#8, 0x00000104#32) := by decide +kernel

/-- T255 of 96_test_vectors_float.md: fcvt.w.s x5, f1. -/
theorem test_fcvtWS_vector255 :
    runs ((base.setF 1#5 0x3FC00000#32).setFcsr 0xA0#8) 0xC000F2D3#32 (fun t => (t.outcome, t.pc)) =
      some (.trapped ⟨.illegalInstruction, 0x00000100#32, 0xC000F2D3#32⟩, 0x00000100#32) := by decide +kernel

/-- T257 of 96_test_vectors_float.md: feq.s x5, f1, f2. -/
theorem test_feqS_vector257 :
    runs ((((base.setX 5#5 0xFFFFFFFF#32).setF 1#5 0x3F800000#32).setF 2#5 0x3F800000#32).setFcsr 0x00#8) 0xA020A2D3#32 (fun t => (t.getX 5#5, t.pc)) =
      some (0x00000001#32, 0x00000104#32) := by decide

/-- T261 of 96_test_vectors_float.md: flt.s x5, f1, f2. -/
theorem test_fltS_vector261 :
    runs ((((base.setX 5#5 0xFFFFFFFF#32).setF 1#5 0xBF800000#32).setF 2#5 0x3F800000#32).setFcsr 0x00#8) 0xA02092D3#32 (fun t => (t.getX 5#5, t.pc)) =
      some (0x00000001#32, 0x00000104#32) := by decide

/-- T265 of 96_test_vectors_float.md: fle.s x5, f1, f2. -/
theorem test_fleS_vector265 :
    runs ((((base.setX 5#5 0xFFFFFFFF#32).setF 1#5 0x80000000#32).setF 2#5 0x00000000#32).setFcsr 0x00#8) 0xA02082D3#32 (fun t => (t.getX 5#5, t.pc)) =
      some (0x00000001#32, 0x00000104#32) := by decide

/-- T269 of 96_test_vectors_float.md: fsgnj.s f3, f1, f2. -/
theorem test_fsgnjS_vector269 :
    runs (((base.setF 1#5 0x3F800000#32).setF 2#5 0x80000000#32).setFcsr 0x00#8) 0x202081D3#32 (fun t => (t.getF 3#5, t.pc)) =
      some (0xBF800000#32, 0x00000104#32) := by decide

/-- T271 of 96_test_vectors_float.md: fsgnjn.s f3, f1, f2. -/
theorem test_fsgnjnS_vector271 :
    runs (((base.setF 1#5 0x3F800000#32).setF 2#5 0x3F800000#32).setFcsr 0x00#8) 0x202091D3#32 (fun t => (t.getF 3#5, t.pc)) =
      some (0xBF800000#32, 0x00000104#32) := by decide

/-- T273 of 96_test_vectors_float.md: fsgnjx.s f3, f1, f2. -/
theorem test_fsgnjxS_vector273 :
    runs (((base.setF 1#5 0xBF800000#32).setF 2#5 0x80000000#32).setFcsr 0x00#8) 0x2020A1D3#32 (fun t => (t.getF 3#5, t.pc)) =
      some (0x3F800000#32, 0x00000104#32) := by decide

/-- T278 of 96_test_vectors_float.md: fmv.x.w x5, f1. -/
theorem test_fmvXW_vector278 :
    runs ((base.setF 1#5 0xFFC12345#32).setFcsr 0x00#8) 0xE00082D3#32 (fun t => (t.getX 5#5, t.pc)) =
      some (0xFFC12345#32, 0x00000104#32) := by decide

/-- T279 of 96_test_vectors_float.md: fmv.w.x f2, x1. -/
theorem test_fmvWX_vector279 :
    runs ((base.setX 1#5 0x7F800001#32).setFcsr 0x00#8) 0xF0008153#32 (fun t => (t.getF 2#5, t.pc)) =
      some (0x7F800001#32, 0x00000104#32) := by decide

/-- T283 of 96_test_vectors_float.md: flw f2, 4(x1). -/
theorem test_flw_vector283 :
    runs (withByte (withByte (withByte (withByte ((base.setX 1#5 0x00002000#32).setFcsr 0x00#8) 0x2004 0x01#8) 0x2005 0x00#8) 0x2006 0x80#8) 0x2007 0x7F#8) 0x0040A107#32 (fun t => (t.getF 2#5, t.pc)) =
      some (0x7F800001#32, 0x00000104#32) := by decide

/-- T285 of 96_test_vectors_float.md: flw f2, 2(x1). -/
theorem test_flw_vector285 :
    runs ((base.setX 1#5 0x00002000#32).setF 2#5 0x11111111#32) 0x0020A107#32 (fun t => (t.outcome, t.pc)) =
      some (.trapped ⟨.loadAddressMisaligned, 0x00000100#32, 0x00002002#32⟩, 0x00000100#32) := by decide

/-- T287 of 96_test_vectors_float.md: fsw f2, 8(x1). -/
theorem test_fsw_vector287 :
    runs ((base.setX 1#5 0x00002000#32).setF 2#5 0xC0490FDB#32) 0x0020A427#32 (fun t => (t.mem.read 0x2008, t.mem.read 0x2009, t.mem.read 0x200A, t.mem.read 0x200B, t.pc)) =
      some (0xDB#8, 0x0F#8, 0x49#8, 0xC0#8, 0x00000104#32) := by decide

/-- T288 of 96_test_vectors_float.md: fsw f2, 1(x1). -/
theorem test_fsw_vector288 :
    runs ((base.setX 1#5 0x00002000#32).setF 2#5 0xC0490FDB#32) 0x0020A0A7#32 (fun t => (t.outcome, t.pc)) =
      some (.trapped ⟨.storeAddressMisaligned, 0x00000100#32, 0x00002001#32⟩, 0x00000100#32) := by decide

/-! ## Witnesses: concrete states and operands that meet the hypotheses of the statements -/

/-- `base` with the word at its `pc`. -/
def fetching (w : Word) : State := base.placeWord w

/-- `base` with `x1` and `x2`. -/
def withX (a b : Word) : State := (base.setX 1#5 a).setX 2#5 b

/-- `base` with `f1` and `f2`. -/
def withF (a b : Word) : State := (base.setF 1#5 a).setF 2#5 b

/-- A map of code at 0 (R and X) and data at 0x1000 (R and W). -/
def separated : State :=
  { base with params := ⟨[⟨0, 0x1000, true, false, true⟩, ⟨0x1000, 0x1000, true, true, false⟩], .trap⟩ }

/-- `base` under the policy `support`. -/
def supporting : State := { base with params := { base.params with misaligned := .support } }

theorem fetches_add : Fetches (fetching 0x002081B3#32) 0x002081B3#32 :=
  ⟨by decide, by unfold MapOk; decide, by decide, by decide⟩

theorem witness_DecodeOfEncodeGivesBack : (Instr.beq 1#5 2#5 0x1FFE#13).wellFormed = true := by decide

theorem witness_EncodeOfDecodeGivesBack : decodeWord 0xFE000FE3#32 = .ok (.beq 0#5 0#5 0x1FFE#13) := by decide

theorem witness_DecodeFollowsOpcodeTable :
    (⟨"add", 0x00000033#32, 0xfe00707f#32⟩ : OpcodeRow) ∈ opcodeTable ∧
      0x002081B3#32 &&& 0xfe00707f#32 = 0x00000033#32 ∧ decodeWord 0x002081B3#32 = .ok (.add 3#5 1#5 2#5) := by decide

theorem witness_IllegalWordsRaise_noRow :
    Fetches (fetching 0x00000000#32) 0x00000000#32 ∧ ∀ row ∈ opcodeTable, 0x00000000#32 &&& row.mask ≠ row.pattern :=
  ⟨⟨by decide, by unfold MapOk; decide, by decide, by decide⟩, by decide⟩

theorem witness_IllegalWordsRaise_roundingMode :
    Fetches (fetching 0x0020D1D3#32) 0x0020D1D3#32 ∧ (⟨"fadd.s", 0x00000053#32, 0xfe00007f#32⟩ : OpcodeRow) ∈ opcodeTable ∧
      0x0020D1D3#32 &&& 0xfe00007f#32 = 0x00000053#32 ∧
      ConditionFails (fetching 0x0020D1D3#32) "fadd.s" 0x0020D1D3#32 :=
  ⟨⟨by decide, by unfold MapOk; decide, by decide, by decide⟩, by decide, by decide,
    by unfold ConditionFails ModeReserved; decide⟩

theorem witness_IllegalWordsRaise_csr :
    Fetches (fetching 0x004012F3#32) 0x004012F3#32 ∧ (⟨"csrrw", 0x00001073#32, 0x0000707f#32⟩ : OpcodeRow) ∈ opcodeTable ∧
      0x004012F3#32 &&& 0x0000707f#32 = 0x00001073#32 ∧ ConditionFails (fetching 0x004012F3#32) "csrrw" 0x004012F3#32 :=
  ⟨⟨by decide, by unfold MapOk; decide, by decide, by decide⟩, by decide, by decide,
    by unfold ConditionFails ModeReserved; decide⟩

theorem witness_ShiftImmediateBit25Raises :
    Fetches (fetching 0x02109193#32) 0x02109193#32 ∧ (0x02109193#32).extractLsb' 0 7 = 0b0010011#7 ∧
      (0x02109193#32).extractLsb' 12 3 = 0b001#3 ∧ (0x02109193#32).getLsbD 25 = true :=
  ⟨⟨by decide, by unfold MapOk; decide, by decide, by decide⟩, by decide, by decide, by decide⟩

theorem witness_StepRunsDecodedInstruction :
    Fetches (fetching 0x002081B3#32) 0x002081B3#32 ∧ decodeWord 0x002081B3#32 = .ok (.add 3#5 1#5 2#5) :=
  ⟨fetches_add, by decide⟩

/-- Also where a store had written one of the bytes. -/
theorem witness_PlacedInstructionRuns :
    let s : State := { base with written := [0x103] }
    s.outcome = .running ∧ MapOk s .fetch s.pc 4 ∧ (Instr.jal 1#5 16#21).wellFormed = true :=
  ⟨by decide, by unfold MapOk; decide, by decide⟩

/-- Three bytes are mapped and the fourth is not. -/
theorem witness_FetchOutsideMapRaises :
    (base.setPc 0xFFFD#32).outcome = .running ∧ ¬MapOk (base.setPc 0xFFFD#32) .fetch (base.setPc 0xFFFD#32).pc 4 :=
  ⟨by decide, by unfold MapOk; decide⟩

theorem witness_FetchOfStoredByteIsRefused :
    let s : State := { base with written := [0x103] }
    s.outcome = .running ∧ MapOk s .fetch s.pc 4 ∧ ∃ k < 4, byteAddress s.pc k ∈ s.written :=
  ⟨by decide, by unfold MapOk; decide, 3, by decide, by decide⟩

theorem witness_StepTakenWhileRunning :
    base.outcome = .running ∧ (base.raise .breakpoint 0x100#32).outcome = .trapped ⟨.breakpoint, 0x100#32, 0x100#32⟩ := by
  decide

theorem witness_EndedRunIsFinal :
    ∃ f, runFor 1 (fetching 0x00000073#32) = .ended ⟨.environmentCall, 0x100#32, 0#32⟩ f ∧ 1 ≤ 5 := ⟨_, rfl, by decide⟩

theorem witness_TrapsArePrecise :
    ∃ t, step (fetching 0x00100073#32) = .next t ∧ t.outcome = .trapped ⟨.breakpoint, 0x100#32, 0x100#32⟩ :=
  ⟨_, rfl, rfl⟩

theorem witness_TrapCauseBelongsToInstruction :
    base.outcome = .running ∧ ∃ t, exec .ecall base = .next t ∧ t.outcome = .trapped ⟨.environmentCall, 0x100#32, 0#32⟩ :=
  ⟨rfl, _, rfl, rfl⟩

theorem witness_ProgramCounterAdvances :
    base.outcome = .running ∧
      (∃ t, exec (.add 3#5 1#5 2#5) base = .next t ∧ t.outcome = .running ∧
        (Instr.add 3#5 1#5 2#5).mnemonic ∉ transferMnemonics) ∧
      ∃ t, exec .ebreak base = .next t ∧ t.outcome = .trapped ⟨.breakpoint, 0x100#32, 0x100#32⟩ :=
  ⟨rfl, ⟨_, rfl, rfl, by decide⟩, _, rfl, rfl⟩

theorem witness_StepKeepsInvariant :
    (fetching 0x00512423#32).Inv ∧ ∃ t, step (fetching 0x00512423#32) = .next t :=
  ⟨by unfold State.Inv; decide, _, rfl⟩

theorem witness_EffectsStayAtDestination :
    (∃ t, exec (.add 3#5 1#5 2#5) base = .next t) ∧ destinationOf (.add 3#5 1#5 2#5) ≠ .xReg 4#5 ∧
      destinationOf (.add 3#5 1#5 2#5) ≠ .fReg 3#5 ∧ destinationOf (.add 3#5 1#5 2#5) ≠ .memory :=
  ⟨⟨_, rfl⟩, by decide, by decide, by decide⟩

theorem witness_OnlyCsrWritesClearFlags :
    (∃ t, exec (.fminS 3#5 1#5 2#5) base = .next t) ∧ (Instr.fminS 3#5 1#5 2#5).mnemonic ∉ csrMnemonics ∧
      (∃ t, exec (.add 3#5 1#5 2#5) base = .next t) ∧ (Instr.add 3#5 1#5 2#5).mnemonic ∉ csrMnemonics ∧
      (Instr.add 3#5 1#5 2#5).mnemonic ∉ flagMnemonics :=
  ⟨⟨_, rfl⟩, by decide, ⟨_, rfl⟩, by decide, by decide⟩

theorem witness_WriteXorExecuteRunIsNeverRefused : separated.Inv ∧ WriteXorExecute separated.params := by
  refine ⟨by unfold State.Inv; decide, ?_⟩
  intro a h
  by_cases h1 : a < 0x1000 <;> by_cases h2 : a < 0x2000 <;>
    simp_all [separated, mapPermits, List.find?, regionContains, regionPermits]

theorem witness_RegisterReadsLastWrite : (31#5 : BitVec 5) ≠ 0#5 ∧ (1#5 : BitVec 5) ≠ 31#5 := by decide

/-- At the top of the address space the bytes of an access wrap round to 0 and 1. -/
theorem witness_MemoryReadsLastWrite :
    (∀ k < bytesIn .word, 2 ≠ byteAddress 0xFFFFFFFE#32 k) ∧ byteAddress 0xFFFFFFFE#32 3 = 1 := by decide

/-- The same two bytes written in either order. -/
theorem witness_CanonicalMemoriesAreEqual :
    let m := Memory.write (Memory.write [] 5 1#8) 9 2#8
    let m' := Memory.write (Memory.write [] 9 2#8) 5 1#8
    m.wf ∧ m'.wf ∧ ∀ a, m.read a = m'.read a := by
  refine ⟨by decide, by decide, fun a => ?_⟩
  rw [show Memory.write (Memory.write [] 5 1#8) 9 2#8 = Memory.write (Memory.write [] 9 2#8) 5 1#8 by decide]

theorem witness_DivideResults_corners :
    (withX 7#32 0#32).getX 2#5 = 0#32 ∧ (withX 0x80000000#32 0xFFFFFFFF#32).getX 1#5 = 0x80000000#32 ∧
      (withX 0x80000000#32 0xFFFFFFFF#32).getX 2#5 = 0xFFFFFFFF#32 ∧
      (withX 0x80000000#32 1#32).getX 2#5 ≠ 0#32 ∧
      ¬((withX 0x80000000#32 1#32).getX 1#5 = 0x80000000#32 ∧ (withX 0x80000000#32 1#32).getX 2#5 = 0xFFFFFFFF#32) := by
  decide

/-- Taken, not taken, and taken to a target that is no multiple of 4, for each of the six comparisons. -/
theorem witness_BranchResults :
    let s := withX 0x80000000#32 0x7FFFFFFF#32
    let e := withX 5#32 5#32
    (e.getX 1#5 = e.getX 2#5 ∧ s.getX 1#5 ≠ s.getX 2#5) ∧
      ((s.getX 1#5).toInt < (s.getX 2#5).toInt ∧ ¬(e.getX 1#5).toInt < (e.getX 2#5).toInt) ∧
      ((e.getX 2#5).toInt ≤ (e.getX 1#5).toInt ∧ ¬(s.getX 2#5).toInt ≤ (s.getX 1#5).toInt) ∧
      ((s.getX 2#5).toNat < (s.getX 1#5).toNat ∧ ¬(s.getX 1#5).toNat < (s.getX 2#5).toNat) ∧
      (s.pc + (0x1FFC#13).signExtend 32).toNat % 4 = 0 ∧ (s.pc + (0x1FFE#13).signExtend 32).toNat % 4 ≠ 0 := by decide

theorem witness_JumpResults :
    let s := withX 0x105#32 0x107#32
    (s.pc + (16#21).signExtend 32).toNat % 4 = 0 ∧ (s.pc + (2#21).signExtend 32).toNat % 4 ≠ 0 ∧
      ((s.getX 1#5 + (0#12).signExtend 32) &&& 0xFFFFFFFE#32).toNat % 4 = 0 ∧
      ((s.getX 2#5 + (0#12).signExtend 32) &&& 0xFFFFFFFE#32).toNat % 4 ≠ 0 := by decide

/-- The last word of the region, and a misaligned one under `support`. -/
theorem witness_LoadResults :
    let s := withX 0x10000#32 0#32
    let addr := s.getX 1#5 + (0xFFC#12).signExtend 32
    MapOk s .load addr 1 ∧ AlignmentOk s addr 2 ∧ MapOk s .load addr 2 ∧ AlignmentOk s addr 4 ∧ MapOk s .load addr 4 ∧
      AlignmentOk supporting 0x101#32 4 ∧ MapOk supporting .load 0x101#32 4 := by
  unfold MapOk AlignmentOk; decide

theorem witness_StoreResults :
    let s := withX 0x10000#32 0#32
    let addr := s.effectiveAddress 1#5 0xFFC#12
    MapOk s .store addr 1 ∧ AlignmentOk s addr 2 ∧ MapOk s .store addr 2 ∧ AlignmentOk s addr 4 ∧ MapOk s .store addr 4 ∧
      AlignmentOk supporting 0x101#32 4 ∧ MapOk supporting .store 0x101#32 4 := by
  unfold MapOk AlignmentOk; decide

/-- Misaligned, and aligned just above the last mapped word. -/
theorem witness_LoadAndStoreTraps :
    let s := withX 0x10000#32 0x101#32
    ¬AlignmentOk s (s.getX 2#5 + (0#12).signExtend 32) 2 ∧ ¬AlignmentOk s (s.getX 2#5 + (0#12).signExtend 32) 4 ∧
      AlignmentOk s (s.getX 1#5 + (0#12).signExtend 32) 2 ∧ AlignmentOk s (s.getX 1#5 + (0#12).signExtend 32) 4 ∧
      ¬MapOk s .load (s.getX 1#5 + (0#12).signExtend 32) 1 ∧ ¬MapOk s .load (s.getX 1#5 + (0#12).signExtend 32) 2 ∧
      ¬MapOk s .load (s.getX 1#5 + (0#12).signExtend 32) 4 ∧ ¬MapOk s .store (s.getX 1#5 + (0#12).signExtend 32) 1 ∧
      ¬MapOk s .store (s.getX 1#5 + (0#12).signExtend 32) 2 ∧ ¬MapOk s .store (s.getX 1#5 + (0#12).signExtend 32) 4 := by
  unfold MapOk AlignmentOk; decide

theorem witness_StoreThenLoadGivesValue :
    let s := withX 0x2000#32 0x11223344#32
    let addr := s.getX 1#5 + (8#12).signExtend 32
    AlignmentOk s addr 4 ∧ MapOk s .load addr 4 ∧ MapOk s .store addr 4 ∧ ∃ t, exec (.sw 2#5 1#5 8#12) s = .next t :=
  ⟨by unfold AlignmentOk; decide, by unfold MapOk; decide, by unfold MapOk; decide, _, rfl⟩

theorem witness_CsrResults :
    (0x001#12, CsrName.fflags) ∈ csrPlaces ∧ (0x002#12, CsrName.frm) ∈ csrPlaces ∧ (0x003#12, CsrName.fcsr) ∈ csrPlaces := by
  decide

theorem witness_UnimplementedCsrRaises :
    (0x000#12 : CsrAddr) ∉ [0x001#12, 0x002#12, 0x003#12] ∧ (0x004#12 : CsrAddr) ∉ [0x001#12, 0x002#12, 0x003#12] ∧
      (0xFFF#12 : CsrAddr) ∉ [0x001#12, 0x002#12, 0x003#12] := by decide

theorem witness_ReservedRoundingModeRaises :
    ModeReserved base 0b101#3 ∧ ModeReserved base 0b110#3 ∧ ModeReserved (base.setFcsr 0xA0#8) 0b111#3 ∧
      ModeReserved (base.setFcsr 0xE0#8) 0b111#3 ∧ ¬ModeReserved base 0b111#3 ∧ ¬ModeReserved (base.setFcsr 0xA0#8) 0b100#3 := by
  unfold ModeReserved; decide

/-- A static mode, whatever `frm` holds, and the dynamic one. -/
theorem witness_ModeSelected :
    ModeSelected (base.setFcsr 0xE0#8) 0b100#3 .rmm ∧ ModeSelected (base.setFcsr 0x60#8) 0b111#3 .rup := by
  unfold ModeSelected; decide

theorem witness_FloatArithmeticResults : ModeSelected base 0b111#3 .rne := by unfold ModeSelected; decide

theorem witness_FusedResults : ModeSelected base 0b001#3 .rtz := by unfold ModeSelected; decide

theorem witness_MinimumAndMaximumResults :
    isNaN ((withF 0x7FC00000#32 0x7F800001#32).getF 1#5) ∧ isNaN ((withF 0x7FC00000#32 0x7F800001#32).getF 2#5) ∧
      ¬isNaN ((withF 0x7FC00000#32 0x80000000#32).getF 2#5) ∧ isSNaN ((withF 0x7FC00000#32 0x7F800001#32).getF 2#5) := by
  decide

theorem witness_ConversionsFromInteger :
    ModeSelected (withX 0#32 0x80000000#32) 0b010#3 .rdn ∧ (withX 0#32 0x80000000#32).getX 1#5 = 0#32 ∧
      (withX 0#32 0x80000000#32).getX 2#5 ≠ 0#32 :=
  ⟨by unfold ModeSelected; decide, by decide, by decide⟩

theorem witness_ConversionsToInteger :
    ModeSelected base 0b000#3 .rne ∧ isNaN 0xFFC00000#32 ∧ (withF 0x7F800000#32 0xFF800000#32).getF 1#5 = 0x7F800000#32 ∧
      (withF 0x7F800000#32 0xFF800000#32).getF 2#5 = 0xFF800000#32 ∧ isFinite ((withF 0x4F32D05E#32 0#32).getF 1#5) :=
  ⟨by unfold ModeSelected; decide, by decide, by decide, by decide, by decide⟩

/-- A NaN of each kind, the two zeros, the two infinities, and the least subnormal above zero. -/
theorem witness_FloatComparisonResults :
    (isNaN 0x7FC00000#32 ∧ ¬isSNaN 0x7FC00000#32 ∧ isSNaN 0x7F800001#32) ∧
      (¬isNaN 0x80000000#32 ∧ ¬isNaN 0x00000000#32 ∧ FpEqual 0x80000000#32 0x00000000#32) ∧
      FpLess 0xFF800000#32 0x7F800000#32 ∧ FpEqual 0x7F800000#32 0x7F800000#32 ∧ FpLess 0x00000000#32 0x00000001#32 := by
  unfold FpLess FpEqual; decide +kernel

theorem witness_RoundingFollowsItsRule : 0 < 1 ∧ 0 < 3 := by decide

/-- A tie: `1 + 2^-24` lies half way between 1 and `1 + 2^-23`. -/
theorem witness_NearestRoundingIsNearest :
    let even := (roundExact .rne false (.ratio (2 ^ 24 + 1) (2 ^ 24))).1
    let away := (roundExact .rmm false (.ratio (2 ^ 24 + 1) (2 ^ 24))).1
    isFinite 0x3F800001#32 ∧ isFinite 0x3F800000#32 ∧ isFinite even ∧ isFinite away ∧
      |fpValue even - (1 + 1 / 2 ^ 24)| = |fpValue 0x3F800001#32 - (1 + 1 / 2 ^ 24)| ∧ fpValue even ≠ fpValue 0x3F800001#32 ∧
      |fpValue away - (1 + 1 / 2 ^ 24)| = |fpValue 0x3F800000#32 - (1 + 1 / 2 ^ 24)| := by decide +kernel

/-- Between two numbers, and beyond the largest in both directions. -/
theorem witness_DirectedRoundingIsTightest :
    isFinite (roundExact .rdn true (.ratio 1 3)).1 ∧ isFinite (roundExact .rup true (.ratio 1 3)).1 ∧
      ¬isFinite (roundExact .rdn true (.ratio (2 ^ 200) 1)).1 ∧ ¬isFinite (roundExact .rup false (.ratio (2 ^ 200) 1)).1 ∧
      isFinite 0x7F7FFFFF#32 ∧ fpValue 0xBF800000#32 ≤ -(1 / 3) ∧ -(1 / 3) ≤ fpValue 0x80000000#32 := by decide +kernel

theorem witness_AdditionFollowsItsRule :
    isNaN 0x7FC00000#32 ∧ (isInf 0x7F800000#32 ∧ isInf 0xFF800000#32 ∧ fpSign 0x7F800000#32 ≠ fpSign 0xFF800000#32) ∧
      (¬isNaN 0x3F800000#32 ∧ ¬isInf 0x3F800000#32) ∧
      (isFinite 0x3F800000#32 ∧ isFinite 0xBF800000#32 ∧ fpValue 0x3F800000#32 + fpValue 0xBF800000#32 = 0) ∧
      fpValue 0x3F800000#32 + fpValue 0x00000001#32 ≠ 0 := by decide +kernel

theorem witness_MultiplicationFollowsItsRule :
    (isZero 0x80000000#32 ∧ isInf 0x7F800000#32) ∧ isNaN 0x7F800001#32 ∧ (¬isZero 0xBF800000#32 ∧ ¬isNaN 0xBF800000#32) ∧
      isFinite 0x80000000#32 ∧ isFinite 0xBF800000#32 := by decide

theorem witness_DivisionFollowsItsRule :
    isNaN 0x7F800001#32 ∧ isZero 0x80000000#32 ∧ isInf 0xFF800000#32 ∧ isFinite 0x00000001#32 ∧ ¬isZero 0x00000001#32 ∧
      isFinite 0x80000000#32 := by decide

theorem witness_SquareRootFollowsItsRule :
    isNaN 0x7FC00000#32 ∧ isZero 0x80000000#32 ∧ (fpSign 0xBF800000#32 ∧ ¬isNaN 0xBF800000#32 ∧ ¬isZero 0xBF800000#32) ∧
      (isFinite 0x00000001#32 ∧ 0 < fpValue 0x00000001#32) := by decide +kernel

theorem witness_FusedMultiplyAddFollowsItsRule :
    (isZero 0x00000000#32 ∧ isInf 0x7F800000#32) ∧ isNaN 0x7FC00000#32 ∧
      (¬isZero 0x3F800000#32 ∧ ¬isInf 0x3F800000#32 ∧ ¬isNaN 0x3F800000#32 ∧ isFinite 0x3F800000#32) ∧
      fpValue 0x3F800000#32 * fpValue 0x3F800000#32 + fpValue 0xBF800000#32 = 0 ∧
      fpValue 0x3F800000#32 * fpValue 0x3F800000#32 + fpValue 0x00000001#32 ≠ 0 := by decide +kernel

theorem witness_ArithmeticNaNIsCanonical : isNaN (fadd 0x7F800000#32 0xFF800000#32 .rne).1 := by decide

end Sys2Proof.Tests
end

/-! Proofs of the statements from 00_scope.md: registers (R11, R12), one step of the machine (R17) and precise traps
(R16). -/

namespace Sys2Proof.Machine

open Sys2Proof

/-! ## Registers -/

@[simp] theorem State.setX_zero (s : State) (v : Word) : s.setX 0#5 v = s := if_pos rfl

theorem State.getX_setX_same (s : State) {i : XReg} (v : Word) (hi : i ≠ 0#5) : (s.setX i v).getX i = v := by
  rw [State.getX_setX, if_neg hi, if_pos rfl]

theorem State.getX_setX_of_ne (s : State) {i j : XReg} (v : Word) (hj : j ≠ i) :
    (s.setX i v).getX j = s.getX j := by
  rw [State.getX_setX]
  by_cases h0 : j = 0#5
  · rw [if_pos h0, h0, State.getX_zero]
  · rw [if_neg h0, if_neg hj]

theorem State.getF_setF_same (s : State) (i : FReg) (v : Word) : (s.setF i v).getF i = v := by
  rw [State.getF_setF, if_pos rfl]

theorem State.getF_setF_of_ne (s : State) {i j : FReg} (v : Word) (hj : j ≠ i) :
    (s.setF i v).getF j = s.getF j := by
  rw [State.getF_setF, if_neg hj]

/-- Settles O23, from what a read gives after a write in either register file. -/
theorem registerReadsLastWrite : Obligations.RegisterReadsLastWrite := fun s i v =>
  ⟨s.getX_zero, s.setX_zero v, s.getX_setX_same v, fun _ => s.getX_setX_of_ne v, s.getF_setF_same i v,
    fun _ => s.getF_setF_of_ne v⟩

/-! ## One step -/

/-- Settles O7: the step runs what the fetched word decodes to. -/
theorem stepRunsDecodedInstruction : Obligations.StepRunsDecodedInstruction := by
  intro s w i hfetch hdecode
  rw [step_of_fetches hfetch, hdecode]

theorem step_of_trapped {s : State} {record : TrapRecord} (h : s.outcome = .trapped record) :
    step s = .fault (.runEnded record) := by
  unfold step cycle
  rw [h]

theorem step_of_running {s : State} (h : s.outcome = .running) : step s = runCycle s := by
  unfold step cycle
  rw [h]

theorem runBytes_cases (b0 b1 b2 b3 : Byte) (s : State) :
    (∃ i, runBytes b0 b1 b2 b3 s = exec i s) ∨
      Raises (runBytes b0 b1 b2 b3 s) s .illegalInstruction (wordOfBytes b0 b1 b2 b3) := by
  unfold runBytes
  cases decode [b0, b1, b2, b3] with
  | ok i => exact .inl ⟨i, rfl⟩
  | error _ => exact .inr rfl

/-- What a running hart does in one step (00_scope.md R17): an exception of fetch or decode, the refusal of a stored
byte, or one instruction. -/
theorem runCycle_cases (s : State) :
    (∃ cause info, Raises (runCycle s) s cause info) ∨ (∃ a, runCycle s = .refused (.fetchOfStoredByte a)) ∨
      ∃ i, runCycle s = exec i s := by
  unfold runCycle
  cases s.fetch with
  | accessFault => exact .inl ⟨_, _, rfl⟩
  | storedByte a => exact .inr (.inl ⟨a, rfl⟩)
  | bytes b0 b1 b2 b3 =>
    obtain ⟨i, hi⟩ | hraise := runBytes_cases b0 b1 b2 b3 s
    · exact .inr (.inr ⟨i, hi⟩)
    · exact .inl ⟨_, _, hraise⟩

/-- A next state is the taking of an exception, or the answer of one instruction executed by a running hart. -/
theorem step_next_cases {s t : State} (h : step s = .next t) :
    s.outcome = .running ∧ ((∃ cause info, t = s.raise cause info) ∨ ∃ i, exec i s = .next t) := by
  cases hout : s.outcome with
  | trapped record =>
    rw [step_of_trapped hout] at h
    cases h
  | running =>
    rw [step_of_running hout] at h
    refine ⟨rfl, ?_⟩
    obtain ⟨cause, info, hraise⟩ | ⟨a, hrefused⟩ | ⟨i, hexec⟩ := runCycle_cases s
    · exact .inl ⟨cause, info, Host.Outcome.next.inj (h.symm.trans hraise)⟩
    · cases h.symm.trans hrefused
    · exact .inr ⟨i, hexec.symm.trans h⟩

/-! ## How an instruction can end

Every instruction answers a next state, and its only way to change the run's outcome is to take an exception. -/

/-- The outcome of an instruction at `s`: it takes an exception, or completes with the run's outcome and the parameters
as they were (00_scope.md R16). -/
def RaisesOrCompletes (o : Host.Outcome State Fault Refusal) (s : State) : Prop :=
  (∃ cause info, Raises o s cause info) ∨ ∃ t, o = .next t ∧ SameRun s t

theorem RaisesOrCompletes.of_raises {o : Host.Outcome State Fault Refusal} {s : State} {cause : Cause} {info : Word}
    (h : Raises o s cause info) : RaisesOrCompletes o s := .inl ⟨cause, info, h⟩

theorem RaisesOrCompletes.of_next {s t : State} (h : SameRun s t) : RaisesOrCompletes (.next t) s := .inr ⟨t, rfl, h⟩

theorem writeXNext_raisesOrCompletes (rd : XReg) (v : Word) (s : State) : RaisesOrCompletes (writeXNext rd v s) s :=
  .of_next (WritesX.setX_advance s rd v).run

theorem transferNext_raisesOrCompletes (target : Word) {link : State → State} (s : State)
    (hlink : SameRun s (link s)) : RaisesOrCompletes (transferNext target link s) s := by
  obtain ⟨haligned, hmisaligned⟩ := transferNext_spec target link s
  by_cases h : target.toNat % 4 = 0
  · rw [haligned h]
    exact .of_next hlink
  · exact .of_raises (hmisaligned h)

theorem jumpAndLink_raisesOrCompletes (target : Word) (rd : XReg) (s : State) :
    RaisesOrCompletes (transferNext target (fun s => s.setX rd (s.pc + 4#32)) s) s :=
  transferNext_raisesOrCompletes target s (WritesX.setX_advance s rd _).run

theorem branchNext_raisesOrCompletes (taken : Bool) (offset : BitVec 13) (s : State) :
    RaisesOrCompletes (branchNext taken offset s) s := by
  cases taken with
  | false => exact .of_next (WritesPc.advance s).run
  | true => exact transferNext_raisesOrCompletes _ s (.refl s)

theorem loadThen_raisesOrCompletes (addr : Word) (w : Width) (s : State) {k : Word → State}
    (hk : ∀ v, SameRun s (k v)) : RaisesOrCompletes (loadThen addr w s k) s := by
  obtain ⟨hload, hmisaligned, hfault⟩ := loadThen_spec addr w s k
  by_cases halign : AlignmentOk s addr (bytesIn w)
  · by_cases hmap : MapOk s .load addr (bytesIn w)
    · rw [hload halign hmap]
      exact .of_next (hk _)
    · exact .of_raises (hfault halign hmap)
  · exact .of_raises (hmisaligned halign)

theorem loadXNext_raisesOrCompletes (rd rs1 : XReg) (offset : BitVec 12) (w : Width) (ext : Word → Word) (s : State) :
    RaisesOrCompletes (loadXNext rd rs1 offset w ext s) s :=
  loadThen_raisesOrCompletes _ w s fun v => (WritesX.setX_advance s rd (ext v)).run

theorem storeNext_raisesOrCompletes (addr : Word) (w : Width) (v : Word) (s : State) :
    RaisesOrCompletes (storeNext addr w v s) s := by
  obtain ⟨hstore, hmisaligned, hfault⟩ := storeNext_spec addr w v s
  by_cases halign : AlignmentOk s addr (bytesIn w)
  · by_cases hmap : MapOk s .store addr (bytesIn w)
    · obtain ⟨t, ht, hbytes⟩ := hstore halign hmap
      exact .inr ⟨t, ht, hbytes.run⟩
    · exact .of_raises (hfault halign hmap)
  · exact .of_raises (hmisaligned halign)

theorem csrNext_raisesOrCompletes (i : Instr) (rd : XReg) (csr : CsrAddr) (writes : Bool) (new : Word → Word)
    (s : State) : RaisesOrCompletes (csrNext i rd csr writes new s) s := by
  by_cases hcsr : ∃ name, (csr, name) ∈ csrPlaces
  · obtain ⟨name, hname⟩ := hcsr
    obtain ⟨t, ht, heffect⟩ := csrNext_spec i rd csr name writes new s hname
      (if writes then new (csrValue s name) else csrValue s name) (by cases writes <;> rfl)
    exact .inr ⟨t, ht, heffect.run⟩
  · have hother : csr ∉ [0x001#12, 0x002#12, 0x003#12] := by simpa [csrPlaces, exists_or] using hcsr
    exact .of_raises (csrNext_unimplemented i rd csr writes new s hother)

theorem roundedNext_raisesOrCompletes (i : Instr) (rm : BitVec 3) {run : RoundingMode → State} (s : State)
    (hrun : ∀ mode, SameRun s (run mode)) : RaisesOrCompletes (roundedNext i rm run s) s := by
  obtain ⟨hselected, hreserved⟩ := roundedNext_spec i rm run s
  obtain hr | ⟨mode, hmode⟩ := modeReserved_or_selected s rm
  · exact .of_raises (hreserved hr)
  · rw [hselected mode hmode]
    exact .of_next (hrun mode)

/-- No instruction stops the machine or changes the run's outcome but by an exception: each constructor ends in one of
the shared operations. -/
theorem exec_raisesOrCompletes (i : Instr) (s : State) : RaisesOrCompletes (exec i s) s := by
  cases i with
  | add | addi | and | andi | auipc | lui | or | ori | sll | slli | slt | slti | sltiu | sltu | sra | srai | srl | srli
  | sub | xor | xori | div | divu | mul | mulh | mulhsu | mulhu | rem | remu =>
    exact writeXNext_raisesOrCompletes _ _ s
  | beq | bge | bgeu | blt | bltu | bne => exact branchNext_raisesOrCompletes _ _ s
  | jal | jalr => exact jumpAndLink_raisesOrCompletes _ _ s
  | lb | lbu | lh | lhu | lw =>
    dsimp only [exec, execLb, execLbu, execLh, execLhu, execLw]
    exact loadXNext_raisesOrCompletes _ _ _ _ _ s
  | flw rd => exact loadThen_raisesOrCompletes _ _ s fun v => (WritesF.setF_advance s rd v).run
  | sb | sh | sw | fsw => exact storeNext_raisesOrCompletes _ _ _ s
  | csrrc | csrrci | csrrs | csrrsi | csrrw | csrrwi =>
    dsimp only [exec, execCsrrc, execCsrrci, execCsrrs, execCsrrsi, execCsrrw, execCsrrwi]
    exact csrNext_raisesOrCompletes _ _ _ _ _ s
  | ebreak | ecall => exact .of_raises (raiseNext_spec _ _ s)
  | fence => exact .of_next (WritesPc.advance s).run
  | faddS rd | fdivS rd | fmaddS rd | fmsubS rd | fmulS rd | fnmaddS rd | fnmsubS rd | fsqrtS rd | fsubS rd | fcvtSW rd
  | fcvtSWU rd => exact roundedNext_raisesOrCompletes _ _ s fun _ => (WritesFAndFlags.finishF s rd _).run
  | fcvtWS rd | fcvtWUS rd => exact roundedNext_raisesOrCompletes _ _ s fun _ => (WritesXAndFlags.finishX s rd _).run
  | fmaxS rd | fminS rd => exact .of_next (WritesFAndFlags.finishF s rd _).run
  | feqS rd | fleS rd | fltS rd => exact .of_next (WritesXAndFlags.finishX s rd _).run
  | fclassS rd | fmvXW rd => exact .of_next (WritesX.setX_advance s rd _).run
  | fmvWX rd | fsgnjS rd | fsgnjnS rd | fsgnjxS rd => exact .of_next (WritesF.setF_advance s rd _).run

/-! ## Precise traps -/

/-- A step that answers a next state takes an exception or keeps the run's outcome and the parameters. -/
theorem step_next_raise_or_sameRun {s t : State} (h : step s = .next t) :
    (∃ cause info, t = s.raise cause info) ∨ SameRun s t := by
  obtain ⟨-, hraise | ⟨i, hexec⟩⟩ := step_next_cases h
  · exact .inl hraise
  · obtain ⟨cause, info, hraise⟩ | ⟨t', ht', hsame⟩ := exec_raisesOrCompletes i s
    · exact .inl ⟨cause, info, Host.Outcome.next.inj (hexec.symm.trans hraise)⟩
    · cases hexec.symm.trans ht'
      exact .inr hsame

/-- Settles O13: a step that does not take an exception leaves the outcome running, so a trapped next state is the old
state with the exception taken. -/
theorem trapsArePrecise : Obligations.TrapsArePrecise := by
  intro s t record hstep htrapped
  obtain ⟨cause, info, rfl⟩ | hsame := step_next_raise_or_sameRun hstep
  · cases htrapped
    exact ⟨rfl, rfl⟩
  · obtain ⟨hrunning, -⟩ := step_next_cases hstep
    obtain ⟨houtcome, -⟩ := hsame
    have hstays : t.outcome = .running := houtcome.trans hrunning
    cases htrapped.symm.trans hstays

end Sys2Proof.Machine

/-! Proofs of the statements from 10_state.md: memory as data (R52), how `pc` advances (R35, R36), which instructions
write what (R33, R51, R53), the sticky flags (R42) and the invariant that every step keeps. -/

namespace Sys2Proof.Machine

open Sys2Proof

/-! ## Canonical memory

A canonical memory lists exactly the addresses that do not read as an unlisted one, so what it reads fixes its cells, and
their rising order fixes the list. -/

theorem Memory.read_cons (c : Host.Cell) (m : Memory) (a : Nat) :
    Memory.read (c :: m) a = if c.1 = a then c.2 else Memory.read m a := rfl

/-- An address that no cell has reads as an unlisted one. -/
theorem Memory.read_eq_unlistedByte {m : Memory} {a : Nat} (h : ∀ c ∈ m, c.1 ≠ a) : m.read a = unlistedByte := by
  induction m with
  | nil => rfl
  | cons d rest ih =>
    rw [Memory.read_cons, if_neg (h d List.mem_cons_self)]
    exact ih fun c hc => h c (List.mem_cons_of_mem d hc)

/-- At the address of a cell, a memory with rising addresses reads the cell's byte. -/
theorem Memory.read_of_mem {m : Memory} (h : m.Pairwise (fun c d => c.1 < d.1)) {c : Host.Cell} (hc : c ∈ m) :
    m.read c.1 = c.2 := by
  induction m with
  | nil => cases hc
  | cons d rest ih =>
    obtain ⟨hd, hrest⟩ := List.pairwise_cons.mp h
    rw [Memory.read_cons]
    obtain rfl | hc := List.mem_cons.mp hc
    · exact if_pos rfl
    · rw [if_neg (hd c hc).ne, ih hrest hc]

theorem Memory.mem_iff_read {m : Memory} (h : m.wf) (c : Host.Cell) :
    c ∈ m ↔ m.read c.1 = c.2 ∧ c.2 ≠ unlistedByte := by
  obtain ⟨hrising, hcells⟩ := h
  constructor
  · intro hc
    exact ⟨Memory.read_of_mem hrising hc, (hcells c hc).2⟩
  · rintro ⟨hread, hlisted⟩
    by_contra hc
    refine hlisted (hread.symm.trans (Memory.read_eq_unlistedByte fun d hd haddr => hc ?_))
    have hbyte : d.2 = c.2 := by rw [← Memory.read_of_mem hrising hd, haddr, hread]
    rwa [← Prod.ext haddr hbyte]

/-- Settles O25: the two lists have the same cells, and strictly rising lists with the same members are equal. -/
theorem canonicalMemoriesAreEqual : Obligations.CanonicalMemoriesAreEqual := by
  intro m m' hm hm' hread
  have hcells : ∀ c, c ∈ m ↔ c ∈ m' := fun c => by rw [Memory.mem_iff_read hm, Memory.mem_iff_read hm', hread]
  exact List.Pairwise.eq_of_mem_iff (r := InvImage (· < ·) Prod.fst) hm.1 hm'.1 hcells

/-! ## What an instruction can do to the state

Every instruction writes at most its destination and the flags it accrues, or takes an exception. The statements below
about single instructions are all read off this one case distinction. -/

/-- The state `u` is `s` after the writes of the instruction `i`, before `pc` moves (10_state.md R33, R42, R51, R53). -/
inductive DestinationWrite (i : Instr) (s : State) : State → Prop
  /-- No write: a branch or `fence`. -/
  | nothing : DestinationWrite i s s
  | xReg (rd : XReg) (v : Word) (dest : destinationOf i = .xReg rd) : DestinationWrite i s (s.setX rd v)
  | fReg (rd : FReg) (v : Word) (dest : destinationOf i = .fReg rd) : DestinationWrite i s (s.setF rd v)
  /-- An `x` result with its flags (46_float_move_convert_compare.md R340). -/
  | xRegFlags (rd : XReg) (v : Word) (fl : FpFlags) (dest : destinationOf i = .xReg rd)
      (accrues : i.mnemonic ∈ flagMnemonics) : DestinationWrite i s ((s.setX rd v).accrue fl)
  /-- An `f` result with its flags (45_float_arith.md R315). -/
  | fRegFlags (rd : FReg) (v : Word) (fl : FpFlags) (dest : destinationOf i = .fReg rd)
      (accrues : i.mnemonic ∈ flagMnemonics) : DestinationWrite i s ((s.setF rd v).accrue fl)
  /-- A CSR and the `x` register that takes its old value (44_csr_system.md R290). -/
  | csr (rd : XReg) (v : Word) (fcsr : BitVec 8) (dest : destinationOf i = .xReg rd)
      (isCsr : i.mnemonic ∈ csrMnemonics) : DestinationWrite i s ((s.setFcsr fcsr).setX rd v)
  /-- The bytes of a store, all mapped with W (20_memory.md R76). -/
  | memory (addr : Word) (n : Nat) (v : Word) (dest : destinationOf i = .memory) (mapped : MapOk s .store addr n) :
      DestinationWrite i s (s.storeBytes addr n v)

/-- The state `t` is one that the instruction `i` can answer at `s`. -/
inductive InstrEffect (i : Instr) (s : State) : State → Prop
  /-- It takes an exception and writes nothing (00_scope.md R16). -/
  | raise (cause : Cause) (info : Word) : InstrEffect i s (s.raise cause info)
  /-- It writes and goes on to the next instruction (10_state.md R35). -/
  | advance {u : State} (write : DestinationWrite i s u) : InstrEffect i s u.advance
  /-- It is a control transfer to an aligned target (41_control_transfer.md R230). -/
  | transfer {u : State} (write : DestinationWrite i s u) (target : Word) (isTransfer : i.mnemonic ∈ transferMnemonics)
      (isAligned : target.toNat % 4 = 0) : InstrEffect i s (u.setPc target)

/-- The outcome is a next state that the instruction can answer. -/
def HasEffect (i : Instr) (s : State) (o : Host.Outcome State Fault Refusal) : Prop :=
  ∃ t, o = .next t ∧ InstrEffect i s t

theorem HasEffect.of_raises {i : Instr} {s : State} {o : Host.Outcome State Fault Refusal} {cause : Cause} {info : Word}
    (h : Raises o s cause info) : HasEffect i s o := ⟨_, h, .raise cause info⟩

theorem HasEffect.of_advance {i : Instr} {s u : State} (h : DestinationWrite i s u) : HasEffect i s (.next u.advance) :=
  ⟨_, rfl, .advance h⟩

/-! ## The effect of each shared operation -/

theorem writeXNext_hasEffect {i : Instr} {rd : XReg} (v : Word) (s : State) (hi : destinationOf i = .xReg rd) :
    HasEffect i s (writeXNext rd v s) := .of_advance (.xReg rd v hi)

theorem transferNext_hasEffect {i : Instr} (target : Word) {link : State → State} (s : State)
    (hlink : DestinationWrite i s (link s)) (hi : i.mnemonic ∈ transferMnemonics) :
    HasEffect i s (transferNext target link s) := by
  obtain ⟨haligned, hmisaligned⟩ := transferNext_spec target link s
  by_cases h : target.toNat % 4 = 0
  · exact ⟨_, haligned h, .transfer hlink target hi h⟩
  · exact .of_raises (hmisaligned h)

theorem jumpAndLink_hasEffect {i : Instr} {rd : XReg} (target : Word) (s : State) (hdest : destinationOf i = .xReg rd)
    (hi : i.mnemonic ∈ transferMnemonics) : HasEffect i s (transferNext target (fun s => s.setX rd (s.pc + 4#32)) s) :=
  transferNext_hasEffect target s (.xReg rd _ hdest) hi

theorem branchNext_hasEffect {i : Instr} (taken : Bool) (offset : BitVec 13) (s : State)
    (hi : i.mnemonic ∈ transferMnemonics) : HasEffect i s (branchNext taken offset s) := by
  cases taken with
  | false => exact .of_advance .nothing
  | true => exact transferNext_hasEffect _ s .nothing hi

theorem loadThen_hasEffect {i : Instr} (addr : Word) (w : Width) (s : State) {write : Word → State}
    (hwrite : ∀ v, DestinationWrite i s (write v)) : HasEffect i s (loadThen addr w s fun v => (write v).advance) := by
  obtain ⟨hload, hmisaligned, hfault⟩ := loadThen_spec addr w s fun v => (write v).advance
  by_cases halign : AlignmentOk s addr (bytesIn w)
  · by_cases hmap : MapOk s .load addr (bytesIn w)
    · exact ⟨_, hload halign hmap, .advance (hwrite _)⟩
    · exact .of_raises (hfault halign hmap)
  · exact .of_raises (hmisaligned halign)

theorem loadXNext_hasEffect {i : Instr} {rd : XReg} (rs1 : XReg) (offset : BitVec 12) (w : Width) (ext : Word → Word)
    (s : State) (hi : destinationOf i = .xReg rd) : HasEffect i s (loadXNext rd rs1 offset w ext s) :=
  loadThen_hasEffect _ w s fun v => .xReg rd (ext v) hi

/-- A store that does not raise is of mapped bytes, and its next state is the store itself, as data. -/
theorem storeNext_cases (addr : Word) (w : Width) (v : Word) (s : State) :
    (∃ cause, Raises (storeNext addr w v s) s cause addr) ∨
      MapOk s .store addr (bytesIn w) ∧ storeNext addr w v s = .next (s.storeBytes addr (bytesIn w) v).advance := by
  unfold storeNext
  split
  · exact .inl ⟨_, rfl⟩
  · split
    next hmap => exact .inr ⟨accessPermitted_iff.mp hmap, rfl⟩
    next => exact .inl ⟨_, rfl⟩

theorem storeNext_hasEffect {i : Instr} (addr : Word) (w : Width) (v : Word) (s : State)
    (hi : destinationOf i = .memory) : HasEffect i s (storeNext addr w v s) := by
  obtain ⟨cause, hraise⟩ | ⟨hmap, hnext⟩ := storeNext_cases addr w v s
  · exact .of_raises hraise
  · exact ⟨_, hnext, .advance (.memory addr _ v hi hmap)⟩

@[simp] theorem State.setFcsr_fcsr (s : State) : s.setFcsr s.fcsr = s := rfl

/-- Every CSR is a window on `fcsr` (10_state.md R42 to R44). -/
theorem State.csrWrite_eq_setFcsr (s : State) (name : CsrName) (v : Word) :
    ∃ fcsr, s.csrWrite name v = s.setFcsr fcsr := by
  cases name with
  | fflags | frm | fcsr => exact ⟨_, rfl⟩

theorem csrNext_hasEffect {i : Instr} {rd : XReg} (csr : CsrAddr) (writes : Bool) (new : Word → Word) (s : State)
    (hdest : destinationOf i = .xReg rd) (hi : i.mnemonic ∈ csrMnemonics) :
    HasEffect i s (csrNext i rd csr writes new s) := by
  unfold csrNext
  cases csrLookup csr with
  | none => exact .of_raises rfl
  | some entry =>
    dsimp only
    split
    · exact .of_raises rfl
    · cases writes with
      | false => exact .of_advance (s.setFcsr_fcsr ▸ .csr rd _ s.fcsr hdest hi)
      | true =>
        obtain ⟨fcsr, hwrite⟩ := s.csrWrite_eq_setFcsr entry.name (new (s.csrRead entry.name))
        rw [if_pos rfl, hwrite]
        exact .of_advance (.csr rd _ fcsr hdest hi)

theorem roundedNext_hasEffect {i : Instr} (rm : BitVec 3) {write : RoundingMode → State} (s : State)
    (hwrite : ∀ mode, DestinationWrite i s (write mode)) :
    HasEffect i s (roundedNext i rm (fun mode => (write mode).advance) s) := by
  obtain ⟨hselected, hreserved⟩ := roundedNext_spec i rm (fun mode => (write mode).advance) s
  obtain hr | ⟨mode, hmode⟩ := modeReserved_or_selected s rm
  · exact .of_raises (hreserved hr)
  · exact ⟨_, hselected mode hmode, .advance (hwrite mode)⟩

/-! ## The effect of each instruction -/

/-- Each constructor ends in one of the shared operations, which writes that instruction's own destination. -/
theorem exec_hasEffect (i : Instr) (s : State) : HasEffect i s (exec i s) := by
  cases i with
  | add | addi | and | andi | auipc | lui | or | ori | sll | slli | slt | slti | sltiu | sltu | sra | srai | srl | srli
  | sub | xor | xori | div | divu | mul | mulh | mulhsu | mulhu | rem | remu =>
    exact writeXNext_hasEffect _ s rfl
  | beq | bge | bgeu | blt | bltu | bne =>
    exact branchNext_hasEffect _ _ s (by simp [Instr.mnemonic, transferMnemonics])
  | jal | jalr => exact jumpAndLink_hasEffect _ s rfl (by simp [Instr.mnemonic, transferMnemonics])
  | lb | lbu | lh | lhu | lw =>
    dsimp only [exec, execLb, execLbu, execLh, execLhu, execLw]
    exact loadXNext_hasEffect _ _ _ _ s rfl
  | flw rd => exact loadThen_hasEffect _ _ s fun v => .fReg rd v rfl
  | sb | sh | sw | fsw => exact storeNext_hasEffect _ _ _ s rfl
  | csrrc | csrrci | csrrs | csrrsi | csrrw | csrrwi =>
    dsimp only [exec, execCsrrc, execCsrrci, execCsrrs, execCsrrsi, execCsrrw, execCsrrwi]
    exact csrNext_hasEffect _ _ _ s rfl (by simp [Instr.mnemonic, csrMnemonics])
  | ebreak | ecall => exact .of_raises (raiseNext_spec _ _ s)
  | fence => exact .of_advance .nothing
  | faddS rd | fdivS rd | fmaddS rd | fmsubS rd | fmulS rd | fnmaddS rd | fnmsubS rd | fsqrtS rd | fsubS rd | fcvtSW rd
  | fcvtSWU rd =>
    exact roundedNext_hasEffect _ s fun _ =>
      .fRegFlags rd _ _ rfl (by simp [Instr.mnemonic, flagMnemonics, roundingMnemonics])
  | fcvtWS rd | fcvtWUS rd =>
    exact roundedNext_hasEffect _ s fun _ =>
      .xRegFlags rd _ _ rfl (by simp [Instr.mnemonic, flagMnemonics, roundingMnemonics])
  | fmaxS rd | fminS rd => exact .of_advance (.fRegFlags rd _ _ rfl (by simp [Instr.mnemonic, flagMnemonics]))
  | feqS rd | fleS rd | fltS rd => exact .of_advance (.xRegFlags rd _ _ rfl (by simp [Instr.mnemonic, flagMnemonics]))
  | fclassS rd | fmvXW rd => exact .of_advance (.xReg rd _ rfl)
  | fmvWX rd | fsgnjS rd | fsgnjnS rd | fsgnjxS rd => exact .of_advance (.fReg rd _ rfl)

theorem exec_next_effect {i : Instr} {s t : State} (h : exec i s = .next t) : InstrEffect i s t := by
  obtain ⟨t', ht', heffect⟩ := exec_hasEffect i s
  cases h.symm.trans ht'
  exact heffect

/-! ## What the writes of an instruction leave unchanged -/

section
variable {i : Instr} {s u : State} (h : DestinationWrite i s u)
include h

theorem DestinationWrite.pc_eq : u.pc = s.pc := by cases h <;> simp

theorem DestinationWrite.sameRun : SameRun s u := by cases h <;> exact ⟨by simp, by simp⟩

theorem DestinationWrite.getX_eq {r : XReg} (hr : destinationOf i ≠ .xReg r) : u.getX r = s.getX r := by
  have hne : ∀ {rd}, destinationOf i = .xReg rd → r ≠ rd := fun hd hrd => hr (hrd ▸ hd)
  cases h with
  | nothing | fReg | fRegFlags | memory => simp
  | xReg _ _ dest => exact s.getX_setX_of_ne _ (hne dest)
  | xRegFlags _ _ _ dest => rw [State.getX_accrue, s.getX_setX_of_ne _ (hne dest)]
  | csr _ _ _ dest => rw [State.getX_setX_of_ne _ _ (hne dest), State.getX_setFcsr]

theorem DestinationWrite.getF_eq {r : FReg} (hr : destinationOf i ≠ .fReg r) : u.getF r = s.getF r := by
  have hne : ∀ {rd}, destinationOf i = .fReg rd → r ≠ rd := fun hd hrd => hr (hrd ▸ hd)
  cases h with
  | nothing | xReg | xRegFlags | csr | memory => simp
  | fReg _ _ dest => exact s.getF_setF_of_ne _ (hne dest)
  | fRegFlags _ _ _ dest => rw [State.getF_accrue, s.getF_setF_of_ne _ (hne dest)]

theorem DestinationWrite.sameMem (hi : destinationOf i ≠ .memory) : SameMem s u := by
  cases h with
  | nothing | xReg | fReg | xRegFlags | fRegFlags | csr => exact .of_eq (by simp) (by simp)
  | memory _ _ _ dest => exact absurd dest hi

theorem DestinationWrite.frm_eq (hi : i.mnemonic ∉ csrMnemonics) : u.frm = s.frm := by
  cases h with
  | nothing | xReg | fReg | xRegFlags | fRegFlags | memory => simp
  | csr _ _ _ _ isCsr => exact absurd isCsr hi

/-- The flags are ORed into the old ones (45_float_arith.md R315). -/
theorem DestinationWrite.fflags_eq_or (hi : i.mnemonic ∉ csrMnemonics) : ∃ fl, u.fflags = s.fflags ||| fl := by
  cases h with
  | nothing | xReg | fReg | memory => exact ⟨0, by simp⟩
  | xRegFlags _ _ fl | fRegFlags _ _ fl => exact ⟨fl, by simp⟩
  | csr _ _ _ _ isCsr => exact absurd isCsr hi

theorem DestinationWrite.fcsr_eq (hi : i.mnemonic ∉ csrMnemonics) (hflags : i.mnemonic ∉ flagMnemonics) :
    u.fcsr = s.fcsr := by
  cases h with
  | nothing | xReg | fReg | memory => simp
  | xRegFlags _ _ _ _ accrues | fRegFlags _ _ _ _ accrues => exact absurd accrues hflags
  | csr _ _ _ _ isCsr => exact absurd isCsr hi

end

/-! ## The statements about one instruction -/

/-- Settles O16: only an exception ends trapped, and it leaves `pc`; only a transfer goes elsewhere than to `pc + 4`. -/
theorem programCounterAdvances : Obligations.ProgramCounterAdvances := by
  intro i s t hrunning hexec
  cases exec_next_effect hexec with
  | raise => exact ⟨fun h => (nomatch h), fun _ _ => rfl⟩
  | @advance u write =>
    have hout : u.outcome = .running := write.sameRun.1.trans hrunning
    refine ⟨fun _ _ => ?_, fun record htrapped => nomatch hout.symm.trans htrapped⟩
    rw [State.pc_advance, write.pc_eq, BitVec.toNat_add]
    rfl
  | @transfer u write _ isTransfer =>
    have hout : u.outcome = .running := write.sameRun.1.trans hrunning
    exact ⟨fun _ hi => absurd isTransfer hi, fun record htrapped => nomatch hout.symm.trans htrapped⟩

/-- Settles O20: an exception writes nothing, and every other effect is the write at the destination and then `pc`. -/
theorem effectsStayAtDestination : Obligations.EffectsStayAtDestination := by
  intro i s t hexec
  cases exec_next_effect hexec with
  | raise => exact ⟨fun _ _ => rfl, fun _ _ => rfl, fun _ => .refl s, rfl⟩
  | advance write | transfer write =>
    exact ⟨fun _ => write.getX_eq, fun _ => write.getF_eq, write.sameMem, write.sameRun.2⟩

theorem and_or_absorb {w : Nat} (a b : BitVec w) : a &&& (a ||| b) = a := by
  ext i hi
  simpa using Or.inl

/-- Settles O21: what an instruction other than a CSR instruction does to `fcsr` is to OR its flags in. -/
theorem onlyCsrWritesClearFlags : Obligations.OnlyCsrWritesClearFlags := by
  intro i s t hexec hi
  cases exec_next_effect hexec with
  | raise => exact ⟨BitVec.and_self, rfl, fun _ => rfl⟩
  | advance write | transfer write =>
    obtain ⟨fl, hfl⟩ := write.fflags_eq_or hi
    refine ⟨?_, write.frm_eq hi, write.fcsr_eq hi⟩
    simp only [State.fflags_advance, State.fflags_setPc, hfl, and_or_absorb]

/-! ## The invariant -/

theorem State.Inv.of_eq {s t : State} (hs : s.Inv) (hpc : t.pc = s.pc) (hmem : t.mem = s.mem)
    (hwritten : t.written = s.written) (hparams : t.params = s.params) : t.Inv := by
  unfold State.Inv at hs ⊢
  rwa [hpc, hmem, hwritten, hparams]

theorem State.Inv.raise {s : State} (hs : s.Inv) (cause : Cause) (info : Word) : (s.raise cause info).Inv := hs

theorem State.Inv.setPc {s : State} (hs : s.Inv) {target : Word} (h : target.toNat % 4 = 0) : (s.setPc target).Inv :=
  ⟨h, hs.2⟩

/-- Adding 4 modulo 2^32 keeps a multiple of 4 (10_state.md R35, R36). -/
theorem State.Inv.advance {s : State} (hs : s.Inv) : s.advance.Inv := by
  have hpc : s.pc.toNat % 4 = 0 := hs.1
  refine hs.setPc ?_
  rw [BitVec.toNat_add, BitVec.toNat_ofNat]
  omega

/-- A store of bytes that are mapped with W keeps the invariant (20_memory.md R76, R90). -/
theorem State.Inv.storeBytes {s : State} (hs : s.Inv) {addr : Word} {n : Nat} (v : Word) (hmap : MapOk s .store addr n) :
    (s.storeBytes addr n v).Inv := by
  obtain ⟨hpc, hmem, hwritten, hmapped⟩ := hs
  refine ⟨hpc, Memory.wf_writeValue hmem addr n v, writtenWf_storeBytes hwritten addr n v, fun a ha => ?_⟩
  obtain hold | hnew := mem_foldl_insertAddress.mp ha
  · exact hmapped a hold
  · obtain ⟨k, hk, rfl⟩ := mem_accessAddresses.mp hnew
    exact hmap k hk

theorem DestinationWrite.inv {i : Instr} {s u : State} (h : DestinationWrite i s u) (hs : s.Inv) : u.Inv := by
  cases h with
  | nothing | xReg | fReg | xRegFlags | fRegFlags | csr =>
    exact hs.of_eq (by simp) (by simp) (by simp) (by simp)
  | memory _ _ v _ mapped => exact hs.storeBytes v mapped

theorem InstrEffect.inv {i : Instr} {s t : State} (h : InstrEffect i s t) (hs : s.Inv) : t.Inv := by
  cases h with
  | raise cause info => exact hs.raise cause info
  | advance write => exact (write.inv hs).advance
  | transfer write _ _ isAligned => exact (write.inv hs).setPc isAligned

/-- Settles O17: a next state comes from an exception of fetch or decode or from one instruction, and both keep the
invariant. -/
theorem stepKeepsInvariant : Obligations.StepKeepsInvariant := by
  intro s t hs hstep
  obtain ⟨-, ⟨cause, info, rfl⟩ | ⟨i, hexec⟩⟩ := step_next_cases hstep
  · exact hs.raise cause info
  · exact (exec_next_effect hexec).inv hs

end Sys2Proof.Machine

/-! Proofs of the statements from 20_memory.md: data in memory (R70), the checks of an access (R72, R76, R95), the next
load after a store (R80), and fetches outside the map and of stored bytes (R76, R90). -/

namespace Sys2Proof.Machine

open Sys2Proof

/-! ## The value of an access

Bits are counted as bit `j` of byte `k`. A value grows by appending bytes at its low end, which moves every byte of it
up by one. -/

theorem getLsbD_byte_beyond (b : Byte) (k j : Nat) : b.getLsbD (8 * (k + 1) + j) = false :=
  BitVec.getLsbD_of_ge _ _ (by omega)

theorem getLsbD_append_lowByte {n j : Nat} (hi : BitVec n) (lo : Byte) (hj : j < 8) :
    (hi ++ lo).getLsbD (8 * 0 + j) = lo.getLsbD j := by
  rw [BitVec.getLsbD_append, if_pos (by omega), Nat.mul_zero, Nat.zero_add]

theorem getLsbD_append_higherByte {n : Nat} (hi : BitVec n) (lo : Byte) (k j : Nat) :
    (hi ++ lo).getLsbD (8 * (k + 1) + j) = hi.getLsbD (8 * k + j) := by
  rw [BitVec.getLsbD_append, if_neg (by omega)]
  congr 1
  omega

/-- Byte `k` of the value read is byte `k` of the access, and zero above its bytes (20_memory.md R70). -/
theorem Memory.getLsbD_readValue (m : Memory) (addr : Word) (w : Width) (k : Nat) {j : Nat} (hj : j < 8) :
    (m.readValue addr w).getLsbD (8 * k + j) = (decide (k < bytesIn w) && (m.read (byteAddress addr k)).getLsbD j) := by
  cases w with
  | byte =>
    unfold Memory.readValue bytesIn
    rw [BitVec.getLsbD_setWidth]
    match k with
    | 0 => simp [show j < 32 by omega]
    | k + 1 => simp [getLsbD_byte_beyond]
  | half =>
    unfold Memory.readValue bytesIn
    rw [BitVec.getLsbD_setWidth]
    match k with
    | 0 =>
      rw [getLsbD_append_lowByte _ _ hj]
      simp [show j < 32 by omega]
    | 1 =>
      simp only [getLsbD_append_higherByte]
      simp [show 8 + j < 32 by omega]
    | k + 2 => simp [getLsbD_append_higherByte, getLsbD_byte_beyond]
  | word =>
    change BitVec.getLsbD (w := 8 + 8 + 8 + 8) (m.read (byteAddress addr 3) ++ m.read (byteAddress addr 2) ++
      m.read (byteAddress addr 1) ++ m.read (byteAddress addr 0)) (8 * k + j) = _
    unfold bytesIn
    match k with
    | 0 | 1 | 2 | 3 =>
      simp only [getLsbD_append_higherByte, getLsbD_append_lowByte _ _ hj]
      simp
    | k + 4 => simp [getLsbD_append_higherByte, getLsbD_byte_beyond]

theorem Memory.extractLsb'_readValue (m : Memory) (addr : Word) {w : Width} {k : Nat} (hk : k < bytesIn w) :
    (m.readValue addr w).extractLsb' (8 * k) 8 = m.read (byteAddress addr k) := by
  apply BitVec.eq_of_getLsbD_eq
  intro j hj
  rw [BitVec.getLsbD_extractLsb', m.getLsbD_readValue addr w k hj, decide_eq_true hj, decide_eq_true hk, Bool.true_and,
    Bool.true_and]

/-- An access whose bytes are those of `v` reads the low bytes of `v`. -/
theorem Memory.toNat_readValue {m : Memory} {addr v : Word} {w : Width}
    (h : ∀ k < bytesIn w, m.read (byteAddress addr k) = v.extractLsb' (8 * k) 8) :
    (m.readValue addr w).toNat = v.toNat % 2 ^ (8 * bytesIn w) := by
  apply Nat.eq_of_testBit_eq
  intro i
  obtain ⟨k, j, hj, rfl⟩ : ∃ k j, j < 8 ∧ i = 8 * k + j := ⟨i / 8, i % 8, by omega, by omega⟩
  rw [BitVec.testBit_toNat, m.getLsbD_readValue addr w k hj, Nat.testBit_mod_two_pow, BitVec.testBit_toNat]
  by_cases hk : k < bytesIn w
  · rw [h k hk, BitVec.getLsbD_extractLsb', decide_eq_true hk, decide_eq_true hj,
      decide_eq_true (by omega), Bool.true_and]
  · rw [decide_eq_false hk, decide_eq_false (by omega), Bool.false_and, Bool.false_and]

/-- Settles O24, from what each byte reads after the write and what value an access makes of its bytes. -/
theorem memoryReadsLastWrite : Obligations.MemoryReadsLastWrite := by
  intro m addr v w
  have hstored (k : Nat) (hk : k < bytesIn w) :
      (m.writeValue addr (bytesIn w) v).read (byteAddress addr k) = v.extractLsb' (8 * k) 8 :=
    m.read_writeValue_byte addr v (bytesIn_le w) hk
  exact ⟨hstored, fun k hk => m.extractLsb'_readValue addr hk, Memory.toNat_readValue hstored,
    fun a ha => m.read_writeValue_of_ne addr v (bytesIn_le w) ha⟩

/-! ## Loads and stores as accesses

What `exec` does for each load and store of 42_load_store.md R250 to R258 and 46_float_move_convert_compare.md R349,
R355. -/

section
variable (r rs1 : BitVec 5) (offset : BitVec 12) (s : State)

theorem exec_lb : exec (.lb r rs1 offset) s =
    loadXNext r rs1 offset .byte (fun v => (v.extractLsb' 0 8).signExtend 32) s := rfl

theorem exec_lbu : exec (.lbu r rs1 offset) s = loadXNext r rs1 offset .byte id s := rfl

theorem exec_lh : exec (.lh r rs1 offset) s =
    loadXNext r rs1 offset .half (fun v => (v.extractLsb' 0 16).signExtend 32) s := rfl

theorem exec_lhu : exec (.lhu r rs1 offset) s = loadXNext r rs1 offset .half id s := rfl

theorem exec_lw : exec (.lw r rs1 offset) s = loadXNext r rs1 offset .word id s := rfl

theorem exec_flw : exec (.flw r rs1 offset) s =
    loadThen (s.effectiveAddress rs1 offset) .word s (fun v => (s.setF r v).advance) := rfl

theorem exec_sb : exec (.sb r rs1 offset) s = storeNext (s.effectiveAddress rs1 offset) .byte (s.getX r) s := rfl

theorem exec_sh : exec (.sh r rs1 offset) s = storeNext (s.effectiveAddress rs1 offset) .half (s.getX r) s := rfl

theorem exec_sw : exec (.sw r rs1 offset) s = storeNext (s.effectiveAddress rs1 offset) .word (s.getX r) s := rfl

theorem exec_fsw : exec (.fsw r rs1 offset) s = storeNext (s.effectiveAddress rs1 offset) .word (s.getF r) s := rfl

end

/-! ## The checks of a load and of a store -/

/-- The outcome is that of an `n`-byte access at `addr`, whose alignment raises `misaligned` and whose map, only after
that, `fault` (20_memory.md R72, R76, R95). -/
def ChecksAccess (o : Host.Outcome State Fault Refusal) (s : State) (kind : Access) (addr : Word) (n : Nat)
    (misaligned fault : Cause) : Prop :=
  (¬AlignmentOk s addr n → Raises o s misaligned addr) ∧
    (AlignmentOk s addr n → ¬MapOk s kind addr n → Raises o s fault addr)

theorem loadThen_checks (addr : Word) (w : Width) (s : State) (k : Word → State) :
    ChecksAccess (loadThen addr w s k) s .load addr (bytesIn w) .loadAddressMisaligned .loadAccessFault :=
  (loadThen_spec addr w s k).2

theorem loadXNext_checks (rd rs1 : XReg) (offset : BitVec 12) (w : Width) (ext : Word → Word) (s : State) :
    ChecksAccess (loadXNext rd rs1 offset w ext s) s .load (s.effectiveAddress rs1 offset) (bytesIn w)
      .loadAddressMisaligned .loadAccessFault := loadThen_checks _ w s _

theorem storeNext_checks (addr : Word) (w : Width) (v : Word) (s : State) :
    ChecksAccess (storeNext addr w v s) s .store addr (bytesIn w) .storeAddressMisaligned .storeAccessFault :=
  (storeNext_spec addr w v s).2

/-- A byte access has no alignment to fail (20_memory.md R72). -/
theorem ChecksAccess.byte {o : Host.Outcome State Fault Refusal} {s : State} {kind : Access} {addr : Word}
    {misaligned fault : Cause} (h : ChecksAccess o s kind addr 1 misaligned fault) (hmap : ¬MapOk s kind addr 1) :
    Raises o s fault addr := h.2 (.inr (Nat.mod_one _)) hmap

/-- Settles O36: each load is a `loadThen` and each store a `storeNext` of its width at the effective address. -/
theorem loadAndStoreTraps : Obligations.LoadAndStoreTraps := by
  intro r rs1 offset s addr
  have load := loadXNext_checks r rs1 offset (s := s)
  have loadF := loadThen_checks addr .word s
  have store := storeNext_checks addr (s := s)
  simp only [List.forall_mem_cons, List.not_mem_nil, false_implies, implies_true, and_true, exec_lb, exec_lbu, exec_lh,
    exec_lhu, exec_lw, exec_flw, exec_sb, exec_sh, exec_sw, exec_fsw]
  exact ⟨⟨load .half _, load .half _, load .word _, loadF _⟩, ⟨store .half _, store .word _, store .word _⟩,
    fun hmap => ⟨(load .byte _).byte hmap, (load .byte _).byte hmap⟩, (store .byte _).byte⟩

/-! ## A load after a store -/

theorem AlignmentOk.of_sameRun {s t : State} (h : SameRun s t) {addr : Word} {n : Nat} (hs : AlignmentOk s addr n) :
    AlignmentOk t addr n := by
  obtain ⟨-, hparams⟩ := h
  unfold AlignmentOk at hs ⊢
  rwa [hparams]

theorem MapOk.of_sameRun {s t : State} (h : SameRun s t) {kind : Access} {addr : Word} {n : Nat}
    (hs : MapOk s kind addr n) : MapOk t kind addr n := by
  obtain ⟨-, hparams⟩ := h
  unfold MapOk at hs ⊢
  rwa [hparams]

theorem XBecomes.of_sameX {s t u : State} {rd : XReg} {v : Word} (hst : SameX s t) (h : XBecomes t u rd v) :
    XBecomes s u rd v := fun i => by rw [h i, hst i]

theorem FBecomes.of_sameF {s t u : State} {rd : FReg} {v : Word} (hst : SameF s t) (h : FBecomes t u rd v) :
    FBecomes s u rd v := fun i => by rw [h i, hst i]

theorem State.effectiveAddress_of_sameX {s t : State} (h : SameX s t) (rs1 : XReg) (offset : BitVec 12) :
    t.effectiveAddress rs1 offset = s.effectiveAddress rs1 offset := by
  unfold State.effectiveAddress
  rw [h rs1]

/-- After a word is stored, a load of its address continues with that word (20_memory.md R80). -/
theorem StoresBytes.loadThen_word {s t : State} {addr v : Word} (h : StoresBytes s t addr 4 v)
    (halign : AlignmentOk s addr 4) (hload : MapOk s .load addr 4) (k : Word → State) :
    loadThen addr .word t k = .next (k v) := by
  have hvalue : t.mem.readValue addr .word = v :=
    BitVec.eq_of_toNat_eq ((Memory.toNat_readValue (w := .word) h.stored).trans (Nat.mod_eq_of_lt v.isLt))
  rw [(loadThen_spec addr .word t k).1 (halign.of_sameRun h.run) (hload.of_sameRun h.run), hvalue]

/-- Settles O37: the store changes neither the address the load computes nor what the checks look at, and leaves the
word in memory. -/
theorem storeThenLoadGivesValue : Obligations.StoreThenLoadGivesValue := by
  intro rs2 rs1 rd fd offset s t addr halign hload hstore hexec
  obtain ⟨t', ht', hbytes⟩ := (storeNext_spec addr .word (s.getX rs2) s).1 halign hstore
  rw [exec_sw] at hexec
  obtain rfl : t' = t := Host.Outcome.next.inj (ht'.symm.trans hexec)
  have haddr : t'.effectiveAddress rs1 offset = addr := State.effectiveAddress_of_sameX hbytes.x rs1 offset
  have hread (k : Word → State) : loadThen (t'.effectiveAddress rs1 offset) .word t' k = .next (k (s.getX rs2)) := by
    rw [haddr]
    exact hbytes.loadThen_word halign hload k
  exact ⟨⟨_, (exec_lw rd rs1 offset t').trans (hread _), (WritesX.setX_advance t' rd _).x.of_sameX hbytes.x⟩,
    ⟨_, (exec_flw fd rs1 offset t').trans (hread _), (WritesF.setF_advance t' fd _).f.of_sameF hbytes.f⟩⟩

/-! ## Fetches outside the map and of stored bytes -/

theorem State.fetch_of_not_mapped {s : State} (h : ¬MapOk s .fetch s.pc 4) : s.fetch = .accessFault :=
  if_neg fun hp => h (accessPermitted_iff.mp hp)

/-- The fetch finds a stored byte of the four at `pc` if there is one (20_memory.md R90). -/
theorem State.fetch_of_stored {s : State} (hmap : MapOk s .fetch s.pc 4)
    (hstored : ∃ k < 4, byteAddress s.pc k ∈ s.written) :
    ∃ k < 4, byteAddress s.pc k ∈ s.written ∧ s.fetch = .storedByte (byteAddress s.pc k) := by
  unfold State.fetch
  rw [if_pos (accessPermitted_iff.mpr hmap)]
  cases hfind : (accessAddresses s.pc 4).find? (s.written.contains ·) with
  | none =>
    obtain ⟨k, hk, hmem⟩ := hstored
    exact absurd hmem (find?_written_none.mp hfind k hk)
  | some a =>
    obtain ⟨k, hk, rfl⟩ := mem_accessAddresses.mp (List.mem_of_find?_eq_some hfind)
    exact ⟨k, hk, by simpa using List.find?_some hfind, rfl⟩

/-- Settles O9: the map check comes first. -/
theorem fetchOutsideMapRaises : Obligations.FetchOutsideMapRaises := by
  intro s hrunning hmap
  rw [step_of_running hrunning, runCycle, State.fetch_of_not_mapped hmap]
  exact raiseNext_spec _ _ s

/-- Settles O10: the byte that the fetch names is the first of the four that a store has written. -/
theorem fetchOfStoredByteIsRefused : Obligations.FetchOfStoredByteIsRefused := by
  intro s hrunning hmap hstored
  obtain ⟨k, hk, hmem, hfetch⟩ := State.fetch_of_stored hmap hstored
  refine ⟨k, hk, hmem, ?_⟩
  rw [step_of_running hrunning, runCycle, hfetch]

/-! ## Runs under a map without writable code -/

/-- A step is refused only for a fetch, mapped with X, of a byte that a store has written. -/
theorem step_refused_cases {s : State} {reason : Refusal} (h : step s = .refused reason) :
    MapOk s .fetch s.pc 4 ∧ ∃ k < 4, byteAddress s.pc k ∈ s.written := by
  cases hout : s.outcome with
  | trapped record => cases h.symm.trans (step_of_trapped hout)
  | running =>
    by_cases hmap : MapOk s .fetch s.pc 4
    · refine ⟨hmap, ?_⟩
      by_contra hstored
      push Not at hstored
      obtain ⟨w, hw⟩ := fetches_exists hout hmap hstored
      rw [step_of_fetches hw] at h
      cases hdecode : decodeWord w with
      | ok i =>
        obtain ⟨t, ht, -⟩ := exec_hasEffect i s
        rw [hdecode] at h
        cases h.symm.trans ht
      | error _ =>
        rw [hdecode] at h
        cases h
    · cases h.symm.trans (fetchOutsideMapRaises s hout hmap)

/-- What keeps the hart from a byte it has stored: written bytes are mapped with W, and no such byte with X. -/
def State.CodeUnwritten (s : State) : Prop := s.Inv ∧ WriteXorExecute s.params

theorem State.CodeUnwritten.step_ne_refused {s : State} (hs : s.CodeUnwritten) (reason : Refusal) :
    step s ≠ .refused reason := by
  obtain ⟨⟨-, -, -, hwritable⟩, hwx⟩ := hs
  intro h
  obtain ⟨hmap, k, hk, hmem⟩ := step_refused_cases h
  have hnotX := hwx _ (hwritable _ hmem)
  rw [hmap k hk] at hnotX
  cases hnotX

theorem step_next_params {s t : State} (h : step s = .next t) : t.params = s.params := by
  obtain ⟨cause, info, rfl⟩ | hsame := step_next_raise_or_sameRun h
  · rfl
  · exact hsame.2

theorem State.CodeUnwritten.step {s t : State} (hs : s.CodeUnwritten) (h : step s = .next t) : t.CodeUnwritten :=
  ⟨stepKeepsInvariant s t hs.1 h, (step_next_params h).symm ▸ hs.2⟩

/-- What every step keeps and excludes a refusal excludes one on every run (60_exceptions.md R407). -/
theorem neverRefused_of_invariant {P : State → Prop} (hsafe : ∀ s, P s → ∀ reason, step s ≠ .refused reason)
    (hkeep : ∀ s t, P s → step s = .next t → P t) {s : State} (hs : P s) : NeverRefused s := by
  intro n
  induction n generalizing s with
  | zero =>
    intro reason
    unfold runFor
    cases s.outcome <;> exact nofun
  | succ n ih =>
    intro reason
    unfold runFor
    cases hstep : step s with
    | next t => exact ih (hkeep s t hs hstep) reason
    | fault r => exact nofun
    | refused r => exact absurd hstep (hsafe s hs r)

/-- Settles O22: the hart stores only to bytes mapped with W, which are mapped without X and so are never fetched. -/
theorem writeXorExecuteRunIsNeverRefused : Obligations.WriteXorExecuteRunIsNeverRefused := by
  intro s hinv hwx
  exact neverRefused_of_invariant (P := State.CodeUnwritten) (fun _ h => h.step_ne_refused) (fun _ _ h => h.step)
    ⟨hinv, hwx⟩

end Sys2Proof.Machine

/-! Proofs of the statements from 30_encoding.md: the two round trips between words and instructions (R110 to R137), the
decoder against the opcode table (R135, R137), and the words that raise `IllegalInstruction` (R140, R141). -/

namespace Sys2Proof

/-! ## From an instruction to its bytes and back -/

/-- The fields of every well-formed instruction decode to it, constructor by constructor. -/
theorem decodeFields_encodeFields : (i : Instr) → i.wellFormed = true → decodeFields (encodeFields i) = .ok i
  | .add rd rs1 rs2 => Laws.FieldsRoundTrip.add rd rs1 rs2
  | .addi rd rs1 imm => Laws.FieldsRoundTrip.addi rd rs1 imm
  | .and rd rs1 rs2 => Laws.FieldsRoundTrip.and rd rs1 rs2
  | .andi rd rs1 imm => Laws.FieldsRoundTrip.andi rd rs1 imm
  | .auipc rd imm => Laws.FieldsRoundTrip.auipc rd imm
  | .lui rd imm => Laws.FieldsRoundTrip.lui rd imm
  | .or rd rs1 rs2 => Laws.FieldsRoundTrip.or rd rs1 rs2
  | .ori rd rs1 imm => Laws.FieldsRoundTrip.ori rd rs1 imm
  | .sll rd rs1 rs2 => Laws.FieldsRoundTrip.sll rd rs1 rs2
  | .slli rd rs1 shamt => Laws.FieldsRoundTrip.slli rd rs1 shamt
  | .slt rd rs1 rs2 => Laws.FieldsRoundTrip.slt rd rs1 rs2
  | .slti rd rs1 imm => Laws.FieldsRoundTrip.slti rd rs1 imm
  | .sltiu rd rs1 imm => Laws.FieldsRoundTrip.sltiu rd rs1 imm
  | .sltu rd rs1 rs2 => Laws.FieldsRoundTrip.sltu rd rs1 rs2
  | .sra rd rs1 rs2 => Laws.FieldsRoundTrip.sra rd rs1 rs2
  | .srai rd rs1 shamt => Laws.FieldsRoundTrip.srai rd rs1 shamt
  | .srl rd rs1 rs2 => Laws.FieldsRoundTrip.srl rd rs1 rs2
  | .srli rd rs1 shamt => Laws.FieldsRoundTrip.srli rd rs1 shamt
  | .sub rd rs1 rs2 => Laws.FieldsRoundTrip.sub rd rs1 rs2
  | .xor rd rs1 rs2 => Laws.FieldsRoundTrip.xor rd rs1 rs2
  | .xori rd rs1 imm => Laws.FieldsRoundTrip.xori rd rs1 imm
  | .beq rs1 rs2 offset => Laws.FieldsRoundTrip.beq rs1 rs2 offset
  | .bge rs1 rs2 offset => Laws.FieldsRoundTrip.bge rs1 rs2 offset
  | .bgeu rs1 rs2 offset => Laws.FieldsRoundTrip.bgeu rs1 rs2 offset
  | .blt rs1 rs2 offset => Laws.FieldsRoundTrip.blt rs1 rs2 offset
  | .bltu rs1 rs2 offset => Laws.FieldsRoundTrip.bltu rs1 rs2 offset
  | .bne rs1 rs2 offset => Laws.FieldsRoundTrip.bne rs1 rs2 offset
  | .jal rd offset => Laws.FieldsRoundTrip.jal rd offset
  | .jalr rd rs1 offset => Laws.FieldsRoundTrip.jalr rd rs1 offset
  | .lb rd rs1 offset => Laws.FieldsRoundTrip.lb rd rs1 offset
  | .lbu rd rs1 offset => Laws.FieldsRoundTrip.lbu rd rs1 offset
  | .lh rd rs1 offset => Laws.FieldsRoundTrip.lh rd rs1 offset
  | .lhu rd rs1 offset => Laws.FieldsRoundTrip.lhu rd rs1 offset
  | .lw rd rs1 offset => Laws.FieldsRoundTrip.lw rd rs1 offset
  | .sb rs2 rs1 offset => Laws.FieldsRoundTrip.sb rs2 rs1 offset
  | .sh rs2 rs1 offset => Laws.FieldsRoundTrip.sh rs2 rs1 offset
  | .sw rs2 rs1 offset => Laws.FieldsRoundTrip.sw rs2 rs1 offset
  | .div rd rs1 rs2 => Laws.FieldsRoundTrip.div rd rs1 rs2
  | .divu rd rs1 rs2 => Laws.FieldsRoundTrip.divu rd rs1 rs2
  | .mul rd rs1 rs2 => Laws.FieldsRoundTrip.mul rd rs1 rs2
  | .mulh rd rs1 rs2 => Laws.FieldsRoundTrip.mulh rd rs1 rs2
  | .mulhsu rd rs1 rs2 => Laws.FieldsRoundTrip.mulhsu rd rs1 rs2
  | .mulhu rd rs1 rs2 => Laws.FieldsRoundTrip.mulhu rd rs1 rs2
  | .rem rd rs1 rs2 => Laws.FieldsRoundTrip.rem rd rs1 rs2
  | .remu rd rs1 rs2 => Laws.FieldsRoundTrip.remu rd rs1 rs2
  | .csrrc rd csr rs1 => Laws.FieldsRoundTrip.csrrc rd csr rs1
  | .csrrci rd csr zimm => Laws.FieldsRoundTrip.csrrci rd csr zimm
  | .csrrs rd csr rs1 => Laws.FieldsRoundTrip.csrrs rd csr rs1
  | .csrrsi rd csr zimm => Laws.FieldsRoundTrip.csrrsi rd csr zimm
  | .csrrw rd csr rs1 => Laws.FieldsRoundTrip.csrrw rd csr rs1
  | .csrrwi rd csr zimm => Laws.FieldsRoundTrip.csrrwi rd csr zimm
  | .ebreak => Laws.FieldsRoundTrip.ebreak
  | .ecall => Laws.FieldsRoundTrip.ecall
  | .fence fm pred succ rs1 rd => Laws.FieldsRoundTrip.fence fm pred succ rs1 rd
  | .faddS rd rs1 rs2 rm => Laws.FieldsRoundTrip.faddS rd rs1 rs2 rm
  | .fdivS rd rs1 rs2 rm => Laws.FieldsRoundTrip.fdivS rd rs1 rs2 rm
  | .fmaddS rd rs1 rs2 rs3 rm => Laws.FieldsRoundTrip.fmaddS rd rs1 rs2 rs3 rm
  | .fmaxS rd rs1 rs2 => Laws.FieldsRoundTrip.fmaxS rd rs1 rs2
  | .fminS rd rs1 rs2 => Laws.FieldsRoundTrip.fminS rd rs1 rs2
  | .fmsubS rd rs1 rs2 rs3 rm => Laws.FieldsRoundTrip.fmsubS rd rs1 rs2 rs3 rm
  | .fmulS rd rs1 rs2 rm => Laws.FieldsRoundTrip.fmulS rd rs1 rs2 rm
  | .fnmaddS rd rs1 rs2 rs3 rm => Laws.FieldsRoundTrip.fnmaddS rd rs1 rs2 rs3 rm
  | .fnmsubS rd rs1 rs2 rs3 rm => Laws.FieldsRoundTrip.fnmsubS rd rs1 rs2 rs3 rm
  | .fsqrtS rd rs1 rm => Laws.FieldsRoundTrip.fsqrtS rd rs1 rm
  | .fsubS rd rs1 rs2 rm => Laws.FieldsRoundTrip.fsubS rd rs1 rs2 rm
  | .fclassS rd rs1 => Laws.FieldsRoundTrip.fclassS rd rs1
  | .fcvtSW rd rs1 rm => Laws.FieldsRoundTrip.fcvtSW rd rs1 rm
  | .fcvtSWU rd rs1 rm => Laws.FieldsRoundTrip.fcvtSWU rd rs1 rm
  | .fcvtWS rd rs1 rm => Laws.FieldsRoundTrip.fcvtWS rd rs1 rm
  | .fcvtWUS rd rs1 rm => Laws.FieldsRoundTrip.fcvtWUS rd rs1 rm
  | .feqS rd rs1 rs2 => Laws.FieldsRoundTrip.feqS rd rs1 rs2
  | .fleS rd rs1 rs2 => Laws.FieldsRoundTrip.fleS rd rs1 rs2
  | .fltS rd rs1 rs2 => Laws.FieldsRoundTrip.fltS rd rs1 rs2
  | .flw rd rs1 offset => Laws.FieldsRoundTrip.flw rd rs1 offset
  | .fmvWX rd rs1 => Laws.FieldsRoundTrip.fmvWX rd rs1
  | .fmvXW rd rs1 => Laws.FieldsRoundTrip.fmvXW rd rs1
  | .fsgnjS rd rs1 rs2 => Laws.FieldsRoundTrip.fsgnjS rd rs1 rs2
  | .fsgnjnS rd rs1 rs2 => Laws.FieldsRoundTrip.fsgnjnS rd rs1 rs2
  | .fsgnjxS rd rs1 rs2 => Laws.FieldsRoundTrip.fsgnjxS rd rs1 rs2
  | .fsw rs2 rs1 offset => Laws.FieldsRoundTrip.fsw rs2 rs1 offset

theorem decode_bytesOfWord_append (w : Word) (rest : List Byte) : decode (bytesOfWord w ++ rest) = decodeWord w :=
  congrArg decodeWord (Machine.wordOfBytes_byteOfWord w)

/-- Settles O1: the bytes of the instruction's word make the word again, whose fields decode to the instruction. -/
theorem decodeOfEncodeGivesBack : Obligations.DecodeOfEncodeGivesBack := by
  intro i rest hi
  rw [encodeBytes, decode_bytesOfWord_append, decodeWord_encode, decodeFields_encodeFields i hi]

/-! ## Slices of bit vectors -/

theorem extractLsb'_extractLsb' {w s t l n : Nat} (x : BitVec w) (h : t + l ≤ n) :
    (x.extractLsb' s n).extractLsb' t l = x.extractLsb' (s + t) l := by
  ext k hk
  simp [show t + k < n by omega, Nat.add_assoc]

/-- Each part of a concatenation is a slice of it, between the widths of the parts below. -/
theorem extractLsb'_concatenation {n₁ n₂ n₃ n₄ n₅ : Nat} (a : BitVec n₁) (b : BitVec n₂) (c : BitVec n₃) (d : BitVec n₄)
    (e : BitVec n₅) :
    (a ++ b ++ c ++ d ++ e).extractLsb' (n₂ + n₃ + n₄ + n₅) n₁ = a ∧
      (a ++ b ++ c ++ d ++ e).extractLsb' (n₃ + n₄ + n₅) n₂ = b ∧ (a ++ b ++ c ++ d ++ e).extractLsb' (n₄ + n₅) n₃ = c ∧
      (a ++ b ++ c ++ d ++ e).extractLsb' n₅ n₄ = d := by
  simp (disch := omega) only [BitVec.extractLsb'_append_eq_of_le, BitVec.extractLsb'_append_eq_right,
    BitVec.extractLsb'_eq_self, Nat.add_sub_cancel, Nat.sub_self, and_self]

theorem getLsbD_zero_append_zeroBit {n : Nat} (x : BitVec n) : (x ++ 0b0#1).getLsbD 0 = false := by
  rw [BitVec.getLsbD_append]
  rfl

/-! ## From a word to its fields and back

Written back by its format, every immediate fills the fields that it was read from. -/

theorem Fields.exists_ofWord (f : Fields) : ∃ w, Fields.ofWord w = f := ⟨f.toWord, f.ofWord_toWord⟩

theorem Fields.immI_ofWord (w : Word) : (Fields.ofWord w).immI = w.extractLsb' 20 12 :=
  BitVec.extractLsb'_append_extractLsb'_eq_extractLsb' rfl

theorem Fields.immU_ofWord (w : Word) : (Fields.ofWord w).immU = w.extractLsb' 12 20 := by
  have hrs1 : w.extractLsb' 20 12 ++ w.extractLsb' 15 5 = w.extractLsb' 15 17 :=
    BitVec.extractLsb'_append_extractLsb'_eq_extractLsb' rfl
  have hfunct3 : w.extractLsb' 15 17 ++ w.extractLsb' 12 3 = w.extractLsb' 12 20 :=
    BitVec.extractLsb'_append_extractLsb'_eq_extractLsb' rfl
  calc (Fields.ofWord w).immU
    _ = (Fields.ofWord w).immI ++ w.extractLsb' 15 5 ++ w.extractLsb' 12 3 := rfl
    _ = w.extractLsb' 12 20 := by rw [Fields.immI_ofWord, hrs1, hfunct3]

section
variable {f : Fields} {funct7 : BitVec 7} {rs2 : BitVec 5} {funct3 : BitVec 3} {opcode : BitVec 7}

theorem fieldsR_eq (h7 : f.funct7 = funct7) (h2 : f.rs2 = rs2) (h3 : f.funct3 = funct3) (hop : f.opcode = opcode) :
    fieldsR funct7 rs2 f.rs1 funct3 f.rd opcode = f := by
  subst h7 h2 h3 hop
  rfl

theorem fieldsI_immI (h3 : f.funct3 = funct3) (hop : f.opcode = opcode) :
    fieldsI f.immI f.rs1 funct3 f.rd opcode = f := by
  subst h3 hop
  have hhigh : f.immI.extractLsb' 5 7 = f.funct7 := BitVec.extractLsb'_append_eq_left
  have hlow : f.immI.extractLsb' 0 5 = f.rs2 := BitVec.extractLsb'_append_eq_right
  rw [fieldsI, hhigh, hlow]

theorem fieldsS_immS (h3 : f.funct3 = funct3) (hop : f.opcode = opcode) :
    fieldsS f.immS f.rs2 f.rs1 funct3 opcode = f := by
  subst h3 hop
  have hhigh : f.immS.extractLsb' 5 7 = f.funct7 := BitVec.extractLsb'_append_eq_left
  have hlow : f.immS.extractLsb' 0 5 = f.rd := BitVec.extractLsb'_append_eq_right
  rw [fieldsS, hhigh, hlow]

theorem fieldsU_immU (hop : f.opcode = opcode) : fieldsU f.immU f.rd opcode = f := by
  subst hop
  obtain ⟨w, rfl⟩ := f.exists_ofWord
  rw [fieldsU, Fields.immU_ofWord]
  have slice (t l : Nat) (h : t + l ≤ 20) := extractLsb'_extractLsb' (s := 12) w h
  rw [slice 13 7 (by decide), slice 8 5 (by decide), slice 3 5 (by decide), slice 0 3 (by decide)]
  rfl

theorem fieldsR4_rs3 (hfmt : f.fmt = 0b00#2) (hop : f.opcode = opcode) :
    fieldsR4 f.rs3 f.rs2 f.rs1 f.funct3 f.rd opcode = f := by
  subst hop
  have h7 : f.rs3 ++ f.fmt = f.funct7 := append_extractLsb'_low 2 5 f.funct7 rfl
  rw [fieldsR4, ← hfmt, h7]

theorem fieldsB_immB (h3 : f.funct3 = funct3) (hop : f.opcode = 0b1100011#7) :
    fieldsB f.immB f.rs2 f.rs1 funct3 = f := by
  obtain ⟨h12, h11, h5, h1⟩ := extractLsb'_concatenation (f.funct7.extractLsb' 6 1) (f.rd.extractLsb' 0 1)
    (f.funct7.extractLsb' 0 6) (f.rd.extractLsb' 1 4) 0b0#1
  have h7 : f.immB.extractLsb' 12 1 ++ f.immB.extractLsb' 5 6 = f.funct7 :=
    (congrArg₂ (· ++ ·) h12 h5).trans (append_extractLsb'_low 6 1 f.funct7 rfl)
  have hrd : f.immB.extractLsb' 1 4 ++ f.immB.extractLsb' 11 1 = f.rd :=
    (congrArg₂ (· ++ ·) h1 h11).trans (append_extractLsb'_low 1 4 f.rd rfl)
  rw [fieldsB, h7, hrd, ← hop, ← h3]

theorem fieldsJ_immJ (hop : f.opcode = 0b1101111#7) : fieldsJ f.immJ f.rd = f := by
  obtain ⟨h20, h12, h11, h1⟩ := extractLsb'_concatenation (f.immU.extractLsb' 19 1) (f.immU.extractLsb' 0 8)
    (f.immU.extractLsb' 8 1) (f.immU.extractLsb' 9 10) 0b0#1
  have h9 : f.immU.extractLsb' 19 1 ++ f.immU.extractLsb' 9 10 = f.immU.extractLsb' 9 11 :=
    BitVec.extractLsb'_append_extractLsb'_eq_extractLsb' rfl
  have h8 : f.immU.extractLsb' 9 11 ++ f.immU.extractLsb' 8 1 = f.immU.extractLsb' 8 12 :=
    BitVec.extractLsb'_append_extractLsb'_eq_extractLsb' rfl
  have himm :=
    calc f.immJ.extractLsb' 20 1 ++ f.immJ.extractLsb' 1 10 ++ f.immJ.extractLsb' 11 1 ++ f.immJ.extractLsb' 12 8
      _ = f.immU.extractLsb' 19 1 ++ f.immU.extractLsb' 9 10 ++ f.immU.extractLsb' 8 1 ++ f.immU.extractLsb' 0 8 :=
        congrArg₂ (· ++ ·) (congrArg₂ (· ++ ·) (congrArg₂ (· ++ ·) h20 h1) h11) h12
      _ = f.immU.extractLsb' 8 12 ++ f.immU.extractLsb' 0 8 := by rw [h9, h8]
      _ = f.immU := append_extractLsb'_low 8 12 f.immU rfl
  rw [fieldsJ, himm, fieldsU_immU hop]

end

theorem fence_immI (f : Fields) : f.fenceFm ++ f.fencePred ++ f.fenceSucc = f.immI := by
  have hhigh : f.fenceFm ++ f.fencePred = f.immI.extractLsb' 4 8 :=
    BitVec.extractLsb'_append_extractLsb'_eq_extractLsb' rfl
  rw [hhigh]
  exact append_extractLsb'_low 4 8 f.immI rfl

theorem branchOffsetOk_immB (f : Fields) : branchOffsetOk f.immB = true :=
  beq_iff_eq.mpr (getLsbD_zero_append_zeroBit _)

theorem jumpOffsetOk_immJ (f : Fields) : jumpOffsetOk f.immJ = true :=
  beq_iff_eq.mpr (getLsbD_zero_append_zeroBit _)

/-! ## From the decoder back to the encoder

One lemma for each major opcode: every instruction that it decodes to fills the fields again. -/

/-- The fields are those that the encoder gives the instruction, which has an encoding. -/
def Fields.Encode (f : Fields) (i : Instr) : Prop := i.wellFormed = true ∧ encodeFields i = f

section
variable {f : Fields} {i : Instr}

theorem encode_of_decodeOp (hop : f.opcode = 0b0110011#7) (h : decodeOp f = .ok i) : f.Encode i := by
  unfold decodeOp at h
  split at h <;> cases h
  all_goals exact ⟨rfl, fieldsR_eq ‹f.funct7 = _› rfl ‹f.funct3 = _› hop⟩

theorem encode_of_decodeOpImm (hop : f.opcode = 0b0010011#7) (h : decodeOpImm f = .ok i) : f.Encode i := by
  unfold decodeOpImm at h
  split at h
  case h_2 h3 =>
    split at h <;> cases h
    exact ⟨rfl, fieldsR_eq ‹_› rfl h3 hop⟩
  case h_6 h3 =>
    split at h
    · cases h
      exact ⟨rfl, fieldsR_eq ‹_› rfl h3 hop⟩
    · split at h <;> cases h
      exact ⟨rfl, fieldsR_eq ‹_› rfl h3 hop⟩
  all_goals
    cases h
    exact ⟨rfl, fieldsI_immI ‹f.funct3 = _› hop⟩

theorem encode_of_decodeBranch (hop : f.opcode = 0b1100011#7) (h : decodeBranch f = .ok i) : f.Encode i := by
  unfold decodeBranch at h
  split at h <;> cases h
  all_goals exact ⟨branchOffsetOk_immB f, fieldsB_immB ‹f.funct3 = _› hop⟩

theorem encode_of_decodeLoad (hop : f.opcode = 0b0000011#7) (h : decodeLoad f = .ok i) : f.Encode i := by
  unfold decodeLoad at h
  split at h <;> cases h
  all_goals exact ⟨rfl, fieldsI_immI ‹f.funct3 = _› hop⟩

theorem encode_of_decodeStore (hop : f.opcode = 0b0100011#7) (h : decodeStore f = .ok i) : f.Encode i := by
  unfold decodeStore at h
  split at h <;> cases h
  all_goals exact ⟨rfl, fieldsS_immS ‹f.funct3 = _› hop⟩

theorem encode_of_decodeLoadFp (hop : f.opcode = 0b0000111#7) (h : decodeLoadFp f = .ok i) : f.Encode i := by
  unfold decodeLoadFp at h
  split at h <;> cases h
  exact ⟨rfl, fieldsI_immI ‹_› hop⟩

theorem encode_of_decodeStoreFp (hop : f.opcode = 0b0100111#7) (h : decodeStoreFp f = .ok i) : f.Encode i := by
  unfold decodeStoreFp at h
  split at h <;> cases h
  exact ⟨rfl, fieldsS_immS ‹_› hop⟩

theorem encode_of_decodeJalr (hop : f.opcode = 0b1100111#7) (h : decodeJalr f = .ok i) : f.Encode i := by
  unfold decodeJalr at h
  split at h <;> cases h
  exact ⟨rfl, fieldsI_immI ‹_› hop⟩

theorem encode_of_decodeMiscMem (hop : f.opcode = 0b0001111#7) (h : decodeMiscMem f = .ok i) : f.Encode i := by
  unfold decodeMiscMem at h
  split at h <;> cases h
  refine ⟨rfl, ?_⟩
  rw [encodeFields, fence_immI, fieldsI_immI ‹_› hop]

theorem encode_of_decodeSystem (hop : f.opcode = 0b1110011#7) (h : decodeSystem f = .ok i) : f.Encode i := by
  unfold decodeSystem at h
  split at h
  case h_1 =>
    split at h
    · cases h
      exact ⟨rfl, Eq.symm ‹_›⟩
    · split at h <;> cases h
      exact ⟨rfl, Eq.symm ‹_›⟩
  all_goals cases h
  all_goals exact ⟨rfl, fieldsI_immI ‹f.funct3 = _› hop⟩

/-- `funct7` leaves the choice to `funct3`, to `rs2` or to both, and what does not choose is an operand
(30_encoding.md R136). -/
theorem encode_of_decodeOpFp (hop : f.opcode = 0b1010011#7) (h : decodeOpFp f = .ok i) : f.Encode i := by
  unfold decodeOpFp at h
  split at h
  case h_1 h7 | h_2 h7 | h_3 h7 | h_4 h7 =>
    cases h
    exact ⟨rfl, fieldsR_eq h7 rfl rfl hop⟩
  case h_5 h7 | h_6 h7 | h_8 h7 =>
    split at h <;> cases h
    all_goals exact ⟨rfl, fieldsR_eq h7 rfl ‹f.funct3 = _› hop⟩
  case h_7 h7 | h_9 h7 | h_10 h7 =>
    split at h <;> cases h
    all_goals exact ⟨rfl, fieldsR_eq h7 ‹f.rs2 = _› rfl hop⟩
  case h_11 h7 | h_12 h7 =>
    split at h <;> cases h
    all_goals exact ⟨rfl, fieldsR_eq h7 ‹f.rs2 = _› ‹f.funct3 = _› hop⟩
  case h_13 => cases h

theorem encode_of_decodeMadd (hop : f.opcode = 0b1000011#7) (h : decodeMadd f = .ok i) : f.Encode i := by
  unfold decodeMadd at h
  split at h <;> cases h
  exact ⟨rfl, fieldsR4_rs3 ‹_› hop⟩

theorem encode_of_decodeMsub (hop : f.opcode = 0b1000111#7) (h : decodeMsub f = .ok i) : f.Encode i := by
  unfold decodeMsub at h
  split at h <;> cases h
  exact ⟨rfl, fieldsR4_rs3 ‹_› hop⟩

theorem encode_of_decodeNmsub (hop : f.opcode = 0b1001011#7) (h : decodeNmsub f = .ok i) : f.Encode i := by
  unfold decodeNmsub at h
  split at h <;> cases h
  exact ⟨rfl, fieldsR4_rs3 ‹_› hop⟩

theorem encode_of_decodeNmadd (hop : f.opcode = 0b1001111#7) (h : decodeNmadd f = .ok i) : f.Encode i := by
  unfold decodeNmadd at h
  split at h <;> cases h
  exact ⟨rfl, fieldsR4_rs3 ‹_› hop⟩

theorem encode_of_decodeFields (h : decodeFields f = .ok i) : f.Encode i := by
  unfold decodeFields at h
  split at h
  next hop => exact encode_of_decodeLoad hop h
  next hop => exact encode_of_decodeLoadFp hop h
  next hop => exact encode_of_decodeMiscMem hop h
  next hop => exact encode_of_decodeOpImm hop h
  next hop =>
    cases h
    exact ⟨rfl, fieldsU_immU hop⟩
  next hop => exact encode_of_decodeStore hop h
  next hop => exact encode_of_decodeStoreFp hop h
  next hop => exact encode_of_decodeOp hop h
  next hop =>
    cases h
    exact ⟨rfl, fieldsU_immU hop⟩
  next hop => exact encode_of_decodeMadd hop h
  next hop => exact encode_of_decodeMsub hop h
  next hop => exact encode_of_decodeNmsub hop h
  next hop => exact encode_of_decodeNmadd hop h
  next hop => exact encode_of_decodeOpFp hop h
  next hop => exact encode_of_decodeBranch hop h
  next hop => exact encode_of_decodeJalr hop h
  next hop =>
    cases h
    exact ⟨jumpOffsetOk_immJ f, fieldsJ_immJ hop⟩
  next hop => exact encode_of_decodeSystem hop h
  · split at h <;> cases h

end

/-- Settles O2: the encoder fills the fields that the decoder read, and the fields make the word. -/
theorem encodeOfDecodeGivesBack : Obligations.EncodeOfDecodeGivesBack := by
  intro w i h
  obtain ⟨hwf, hfields⟩ := encode_of_decodeFields h
  exact ⟨hwf, by rw [encode, hfields, Fields.toWord_ofWord]⟩

/-! ## The opcode table

A row is compared with a word field by field: its mask keeps a field whole or drops it, but for `funct7` of the format
R4, of which it keeps `fmt`. -/

/-- Conjunction of two words, field by field. -/
def Fields.and (f m : Fields) : Fields :=
  { funct7 := f.funct7 &&& m.funct7, rs2 := f.rs2 &&& m.rs2, rs1 := f.rs1 &&& m.rs1, funct3 := f.funct3 &&& m.funct3
    rd := f.rd &&& m.rd, opcode := f.opcode &&& m.opcode }

theorem Fields.ofWord_and (w m : Word) : Fields.ofWord (w &&& m) = (Fields.ofWord w).and (Fields.ofWord m) := by
  simp only [Fields.ofWord, Fields.and, BitVec.extractLsb'_and]

theorem Fields.ofWord_injective : Function.Injective Fields.ofWord :=
  Function.LeftInverse.injective Fields.toWord_ofWord

/-- The fields select the row (30_encoding.md R135). -/
def OpcodeRow.Matches (row : OpcodeRow) (f : Fields) : Prop :=
  f.and (Fields.ofWord row.mask) = Fields.ofWord row.pattern

theorem OpcodeRow.matches_ofWord {row : OpcodeRow} {w : Word} :
    row.Matches (Fields.ofWord w) ↔ w &&& row.mask = row.pattern := by
  rw [OpcodeRow.Matches, ← Fields.ofWord_and, Fields.ofWord_injective.eq_iff]

theorem and_mask7 (a : BitVec 7) : a &&& 0x7f#7 = a := BitVec.and_allOnes

theorem and_mask5 (a : BitVec 5) : a &&& 0x1f#5 = a := BitVec.and_allOnes

theorem and_mask3 (a : BitVec 3) : a &&& 0x7#3 = a := BitVec.and_allOnes

theorem and_maskFmt {a : BitVec 7} : a &&& 0x03#7 = 0#7 ↔ a.extractLsb' 0 2 = 0b00#2 := by
  revert a
  decide

/-! ### What each of the eight masks keeps -/

section
variable {name : String} {pattern : Word} {f : Fields} {funct7 : BitVec 7} {rs2 : BitVec 5} {funct3 : BitVec 3}
  {opcode : BitVec 7}

theorem matches_funct7_funct3 (hp : Fields.ofWord pattern = ⟨funct7, 0#5, 0#5, funct3, 0#5, opcode⟩) :
    OpcodeRow.Matches ⟨name, pattern, 0xfe00707f#32⟩ f ↔ f.funct7 = funct7 ∧ f.funct3 = funct3 ∧ f.opcode = opcode := by
  have hm : Fields.ofWord 0xfe00707f#32 = ⟨0x7f#7, 0#5, 0#5, 0x7#3, 0#5, 0x7f#7⟩ := rfl
  simp only [OpcodeRow.Matches, hp, hm, Fields.and, and_mask7, and_mask3, BitVec.and_zero, Fields.mk.injEq, true_and]

theorem matches_funct3 (hp : Fields.ofWord pattern = ⟨0#7, 0#5, 0#5, funct3, 0#5, opcode⟩) :
    OpcodeRow.Matches ⟨name, pattern, 0x0000707f#32⟩ f ↔ f.funct3 = funct3 ∧ f.opcode = opcode := by
  have hm : Fields.ofWord 0x0000707f#32 = ⟨0#7, 0#5, 0#5, 0x7#3, 0#5, 0x7f#7⟩ := rfl
  simp only [OpcodeRow.Matches, hp, hm, Fields.and, and_mask7, and_mask3, BitVec.and_zero, Fields.mk.injEq, true_and]

theorem matches_opcode (hp : Fields.ofWord pattern = ⟨0#7, 0#5, 0#5, 0#3, 0#5, opcode⟩) :
    OpcodeRow.Matches ⟨name, pattern, 0x0000007f#32⟩ f ↔ f.opcode = opcode := by
  have hm : Fields.ofWord 0x0000007f#32 = ⟨0#7, 0#5, 0#5, 0#3, 0#5, 0x7f#7⟩ := rfl
  simp only [OpcodeRow.Matches, hp, hm, Fields.and, and_mask7, BitVec.and_zero, Fields.mk.injEq, true_and]

theorem matches_funct7 (hp : Fields.ofWord pattern = ⟨funct7, 0#5, 0#5, 0#3, 0#5, opcode⟩) :
    OpcodeRow.Matches ⟨name, pattern, 0xfe00007f#32⟩ f ↔ f.funct7 = funct7 ∧ f.opcode = opcode := by
  have hm : Fields.ofWord 0xfe00007f#32 = ⟨0x7f#7, 0#5, 0#5, 0#3, 0#5, 0x7f#7⟩ := rfl
  simp only [OpcodeRow.Matches, hp, hm, Fields.and, and_mask7, BitVec.and_zero, Fields.mk.injEq, true_and]

theorem matches_funct7_rs2 (hp : Fields.ofWord pattern = ⟨funct7, rs2, 0#5, 0#3, 0#5, opcode⟩) :
    OpcodeRow.Matches ⟨name, pattern, 0xfff0007f#32⟩ f ↔ f.funct7 = funct7 ∧ f.rs2 = rs2 ∧ f.opcode = opcode := by
  have hm : Fields.ofWord 0xfff0007f#32 = ⟨0x7f#7, 0x1f#5, 0#5, 0#3, 0#5, 0x7f#7⟩ := rfl
  simp only [OpcodeRow.Matches, hp, hm, Fields.and, and_mask7, and_mask5, BitVec.and_zero, Fields.mk.injEq, true_and]

theorem matches_funct7_rs2_funct3 (hp : Fields.ofWord pattern = ⟨funct7, rs2, 0#5, funct3, 0#5, opcode⟩) :
    OpcodeRow.Matches ⟨name, pattern, 0xfff0707f#32⟩ f ↔
      f.funct7 = funct7 ∧ f.rs2 = rs2 ∧ f.funct3 = funct3 ∧ f.opcode = opcode := by
  have hm : Fields.ofWord 0xfff0707f#32 = ⟨0x7f#7, 0x1f#5, 0#5, 0x7#3, 0#5, 0x7f#7⟩ := rfl
  simp only [OpcodeRow.Matches, hp, hm, Fields.and, and_mask7, and_mask5, and_mask3, BitVec.and_zero, Fields.mk.injEq,
    true_and]

theorem matches_fmt (hp : Fields.ofWord pattern = ⟨0#7, 0#5, 0#5, 0#3, 0#5, opcode⟩) :
    OpcodeRow.Matches ⟨name, pattern, 0x0600007f#32⟩ f ↔ f.fmt = 0b00#2 ∧ f.opcode = opcode := by
  have hm : Fields.ofWord 0x0600007f#32 = ⟨0x03#7, 0#5, 0#5, 0#3, 0#5, 0x7f#7⟩ := rfl
  simp only [OpcodeRow.Matches, hp, hm, Fields.and, and_maskFmt, Fields.fmt, and_mask7, BitVec.and_zero,
    Fields.mk.injEq, true_and]

theorem matches_word : OpcodeRow.Matches ⟨name, pattern, 0xffffffff#32⟩ f ↔ f = Fields.ofWord pattern := by
  have hm : Fields.ofWord 0xffffffff#32 = ⟨0x7f#7, 0x1f#5, 0x1f#5, 0x7#3, 0x1f#5, 0x7f#7⟩ := rfl
  simp only [OpcodeRow.Matches, hm, Fields.and, and_mask7, and_mask5, and_mask3]

end

/-! ### The row of an instruction -/

/-- The table has a row with the instruction's mnemonic, and the instruction's fields select it. -/
def Instr.HasRow (i : Instr) : Prop :=
  ∃ row, opcodeTable.find? (·.mnemonic == i.mnemonic) = some row ∧ row.Matches (encodeFields i)

/-- What the mask of its row keeps, the encoder writes as the row's pattern has it, whatever the operands are. -/
theorem Instr.hasRow (i : Instr) : i.HasRow := by
  cases i with
  | add | and | or | sll | slli | slt | sltu | sra | srai | srl | srli | sub | xor | div | divu | mul | mulh | mulhsu
  | mulhu | rem | remu | fmaxS | fminS | feqS | fleS | fltS | fsgnjS | fsgnjnS | fsgnjxS =>
    exact ⟨_, rfl, (matches_funct7_funct3 rfl).mpr ⟨rfl, rfl, rfl⟩⟩
  | addi | andi | ori | slti | sltiu | xori | beq | bge | bgeu | blt | bltu | bne | jalr | lb | lbu | lh | lhu | lw | sb
  | sh | sw | csrrc | csrrci | csrrs | csrrsi | csrrw | csrrwi | fence | flw | fsw =>
    exact ⟨_, rfl, (matches_funct3 rfl).mpr ⟨rfl, rfl⟩⟩
  | auipc | lui | jal => exact ⟨_, rfl, (matches_opcode rfl).mpr rfl⟩
  | faddS | fdivS | fmulS | fsubS => exact ⟨_, rfl, (matches_funct7 rfl).mpr ⟨rfl, rfl⟩⟩
  | fsqrtS | fcvtSW | fcvtSWU | fcvtWS | fcvtWUS => exact ⟨_, rfl, (matches_funct7_rs2 rfl).mpr ⟨rfl, rfl, rfl⟩⟩
  | fclassS | fmvWX | fmvXW => exact ⟨_, rfl, (matches_funct7_rs2_funct3 rfl).mpr ⟨rfl, rfl, rfl, rfl⟩⟩
  | fmaddS | fmsubS | fnmaddS | fnmsubS => exact ⟨_, rfl, (matches_fmt rfl).mpr ⟨fmt_fieldsR4 _ _ _ _ _ _, rfl⟩⟩
  | ebreak | ecall => exact ⟨_, rfl, matches_word.mpr rfl⟩

theorem exists_row_of_decodeWord {w : Word} {i : Instr} (h : decodeWord w = .ok i) :
    ∃ row ∈ opcodeTable, w &&& row.mask = row.pattern ∧ row.mnemonic = i.mnemonic := by
  obtain ⟨-, hfields⟩ := encode_of_decodeFields h
  obtain ⟨row, hfind, hmatches⟩ := i.hasRow
  rw [hfields, OpcodeRow.matches_ofWord] at hmatches
  have hname := List.find?_some hfind
  exact ⟨row, List.mem_of_find?_eq_some hfind, hmatches, beq_iff_eq.mp hname⟩

/-! ### The instruction of a row -/

/-- Fields that select the row decode to an instruction with the row's mnemonic. -/
def OpcodeRow.Decodes (row : OpcodeRow) : Prop :=
  ∀ f : Fields, row.Matches f → (decodeFields f).map Instr.mnemonic = .ok row.mnemonic

/-- What a row's mask keeps is what the decoder selects by; the other fields are operands, with every value. -/
theorem opcodeTable_decodes : ∀ row ∈ opcodeTable, row.Decodes := by
  simp only [opcodeTable, opcodeTableFirst, opcodeTableLast, List.forall_mem_append, List.forall_mem_cons]
  refine ⟨⟨?add, ?addi, ?and, ?andi, ?auipc, ?beq, ?bge, ?bgeu, ?blt, ?bltu, ?bne, ?csrrc, ?csrrci, ?csrrs, ?csrrsi,
    ?csrrw, ?csrrwi, ?div, ?divu, ?ebreak, ?ecall, ?faddS, ?fclassS, ?fcvtSW, ?fcvtSWU, ?fcvtWS, ?fcvtWUS, ?fdivS,
    ?fence, ?feqS, ?fleS, ?fltS, ?flw, ?fmaddS, ?fmaxS, ?fminS, ?fmsubS, ?fmulS, ?fmvWX,
    ?fmvXW, List.forall_mem_nil _⟩, ?fnmaddS, ?fnmsubS, ?fsgnjS, ?fsgnjnS, ?fsgnjxS, ?fsqrtS, ?fsubS, ?fsw, ?jal,
    ?jalr, ?lb, ?lbu, ?lh, ?lhu, ?lw, ?lui, ?mul, ?mulh, ?mulhsu, ?mulhu, ?or, ?ori, ?rem, ?remu, ?sb, ?sh, ?sll,
    ?slli, ?slt, ?slti, ?sltiu, ?sltu, ?sra, ?srai, ?srl, ?srli, ?sub, ?sw, ?xor, ?xori, List.forall_mem_nil _⟩
  case add | and | div | divu | feqS | fleS | fltS | fmaxS | fminS | fsgnjS | fsgnjnS | fsgnjxS | mul | mulh |
    mulhsu | mulhu | or | rem | remu | sll | slli | slt | sltu | sra | srai | srl | srli | sub | xor =>
    rintro ⟨_, _, _, _, _, _⟩ hf
    obtain ⟨rfl, rfl, rfl⟩ := (matches_funct7_funct3 rfl).mp hf
    rfl
  case addi | andi | beq | bge | bgeu | blt | bltu | bne | csrrc | csrrci | csrrs | csrrsi | csrrw | csrrwi | fence |
    flw | fsw | jalr | lb | lbu | lh | lhu | lw | ori | sb | sh | slti | sltiu | sw | xori =>
    rintro ⟨_, _, _, _, _, _⟩ hf
    obtain ⟨rfl, rfl⟩ := (matches_funct3 rfl).mp hf
    rfl
  case auipc | jal | lui =>
    rintro ⟨_, _, _, _, _, _⟩ hf
    obtain rfl := (matches_opcode rfl).mp hf
    rfl
  case faddS | fdivS | fmulS | fsubS =>
    rintro ⟨_, _, _, _, _, _⟩ hf
    obtain ⟨rfl, rfl⟩ := (matches_funct7 rfl).mp hf
    rfl
  case fcvtSW | fcvtSWU | fcvtWS | fcvtWUS | fsqrtS =>
    rintro ⟨_, _, _, _, _, _⟩ hf
    obtain ⟨rfl, rfl, rfl⟩ := (matches_funct7_rs2 rfl).mp hf
    rfl
  case fclassS | fmvWX | fmvXW =>
    rintro ⟨_, _, _, _, _, _⟩ hf
    obtain ⟨rfl, rfl, rfl, rfl⟩ := (matches_funct7_rs2_funct3 rfl).mp hf
    rfl
  case fmaddS | fmsubS | fnmaddS | fnmsubS =>
    rintro ⟨_, _, _, _, _, _⟩ hf
    obtain ⟨hfmt, rfl⟩ := (matches_fmt rfl).mp hf
    exact congrArg (Except.map Instr.mnemonic) (if_pos hfmt)
  case ebreak | ecall =>
    intro _ hf
    obtain rfl := matches_word.mp hf
    rfl

theorem exists_decodeWord_of_row {w : Word} {row : OpcodeRow} (hrow : row ∈ opcodeTable)
    (h : w &&& row.mask = row.pattern) : ∃ i, decodeWord w = .ok i ∧ i.mnemonic = row.mnemonic := by
  have hdecodes := opcodeTable_decodes row hrow (Fields.ofWord w) (OpcodeRow.matches_ofWord.mpr h)
  cases hw : decodeFields (Fields.ofWord w) with
  | error _ =>
    rw [hw] at hdecodes
    cases hdecodes
  | ok i =>
    rw [hw] at hdecodes
    exact ⟨i, hw, Except.ok.inj hdecodes⟩

theorem opcodeTable_mnemonics_nodup : (opcodeTable.map (·.mnemonic)).Nodup := by decide

/-- Settles O3: an instruction selects the row of its mnemonic, a row's words decode to the row's mnemonic, and no two
rows have the same. -/
theorem decodeFollowsOpcodeTable : Obligations.DecodeFollowsOpcodeTable := by
  refine fun w => ⟨fun i => exists_row_of_decodeWord, fun row => exists_decodeWord_of_row, ?_⟩
  intro row hrow row' hrow' h h'
  obtain ⟨i, hi, hname⟩ := exists_decodeWord_of_row hrow h
  obtain ⟨i', hi', hname'⟩ := exists_decodeWord_of_row hrow' h'
  cases hi.symm.trans hi'
  exact List.inj_on_of_nodup_map opcodeTable_mnemonics_nodup hrow hrow' (hname.symm.trans hname')

end Sys2Proof

namespace Sys2Proof.Machine

open Sys2Proof

/-! ## Illegal words -/

theorem step_of_decode_error {s : State} {w : Word} {e : DecodeError} (hfetch : Fetches s w)
    (hdecode : decodeWord w = .error e) : Raises (step s) s .illegalInstruction w := by
  rw [step_of_fetches hfetch, hdecode]
  exact raiseNext_spec _ _ s

/-- An instruction that rounds holds its mode in `funct3` and checks it before anything else
(45_float_arith.md R311). -/
theorem exec_of_modeReserved {s : State} {i : Instr} (hi : i.mnemonic ∈ roundingMnemonics)
    (hmode : ModeReserved s (encodeFields i).funct3) : Raises (exec i s) s .illegalInstruction (encode i) := by
  cases i with
  | faddS | fdivS | fmaddS | fmsubS | fmulS | fnmaddS | fnmsubS | fsqrtS | fsubS | fcvtSW | fcvtSWU | fcvtWS
  | fcvtWUS =>
    exact (roundedNext_spec _ _ _ s).2 hmode
  | _ => simp [Instr.mnemonic, roundingMnemonics] at hi

/-- A CSR instruction holds the address in `inst[31:20]` and looks it up before anything else
(44_csr_system.md R290). -/
theorem exec_of_csr_unimplemented {s : State} {i : Instr} (hi : i.mnemonic ∈ csrMnemonics)
    (hcsr : (encodeFields i).immI ∉ [0x001#12, 0x002#12, 0x003#12]) :
    Raises (exec i s) s .illegalInstruction (encode i) := by
  cases i with
  | csrrc | csrrci | csrrs | csrrsi | csrrw | csrrwi =>
    rw [encodeFields, immI_fieldsI] at hcsr
    dsimp only [exec, execCsrrc, execCsrrci, execCsrrs, execCsrrsi, execCsrrw, execCsrrwi]
    exact csrNext_unimplemented _ _ _ _ _ s hcsr
  | _ => simp [Instr.mnemonic, csrMnemonics] at hi

theorem exec_of_conditionFails {s : State} {i : Instr} (h : ConditionFails s i.mnemonic (encode i)) :
    Raises (exec i s) s .illegalInstruction (encode i) := by
  have hfields : Fields.ofWord (encode i) = encodeFields i := Fields.ofWord_toWord _
  obtain ⟨hi, hmode⟩ | ⟨hi, hcsr⟩ := h
  · exact exec_of_modeReserved hi (hfields ▸ hmode)
  · rw [← Fields.immI_ofWord, hfields] at hcsr
    exact exec_of_csr_unimplemented hi hcsr

/-- Settles O5: a word of no row does not decode, and a word that fails its row's condition is the encoding of an
instruction that checks the condition first. -/
theorem illegalWordsRaise : Obligations.IllegalWordsRaise := by
  intro s w hfetch
  constructor
  · intro hnone
    cases hdecode : decodeWord w with
    | error e => exact step_of_decode_error hfetch hdecode
    | ok i =>
      obtain ⟨row, hrow, hselects, -⟩ := exists_row_of_decodeWord hdecode
      exact absurd hselects (hnone row hrow)
  · intro row hrow hselects hfails
    obtain ⟨i, hdecode, hname⟩ := exists_decodeWord_of_row hrow hselects
    obtain ⟨-, rfl⟩ := encodeOfDecodeGivesBack w i hdecode
    rw [stepRunsDecodedInstruction s (encode i) i hfetch hdecode]
    exact exec_of_conditionFails (hname ▸ hfails)

/-! ## Shift amounts -/

/-- A shift-immediate word with bit 0 of `funct7` set is in no row of R131: both of them have it clear (R125, R141). -/
theorem decodeOpImm_of_funct7_odd {f : Fields} (h3 : f.funct3 = 0b001#3 ∨ f.funct3 = 0b101#3)
    (hodd : f.funct7.getLsbD 0 = true) : decodeOpImm f = .error .selector := by
  have hlogical : f.funct7 ≠ 0b0000000#7 := fun h => by simp [h] at hodd
  have harith : f.funct7 ≠ 0b0100000#7 := fun h => by simp [h] at hodd
  unfold decodeOpImm
  obtain h3 | h3 := h3
  · simp only [h3, if_neg hlogical]
  · simp only [h3, if_neg hlogical, if_neg harith]

/-- Settles O6: the decoder rejects the word. -/
theorem shiftImmediateBit25Raises : Obligations.ShiftImmediateBit25Raises := by
  intro s w hfetch hop h3 hbit
  have hodd : (w.extractLsb' 25 7).getLsbD 0 = true := by
    rw [BitVec.getLsbD_extractLsb']
    exact hbit
  have hdecode : decodeWord w = .error .selector :=
    calc decodeWord w
      _ = decodeOpImm (Fields.ofWord w) := by
        have hop : (Fields.ofWord w).opcode = 0b0010011#7 := hop
        simp only [decodeWord, decodeFields, hop]
      _ = .error .selector := decodeOpImm_of_funct7_odd h3 hodd
  exact step_of_decode_error hfetch hdecode

/-! ## The spec's own words -/

/-- Settles O4: each word is decoded. -/
theorem wordsOfTheSpecDecode : Obligations.WordsOfTheSpecDecode := by
  unfold Obligations.WordsOfTheSpecDecode
  decide

end Sys2Proof.Machine

/-! Proofs of the statements from 40_integer_computational.md: what each integer instruction writes to `x[rd]` (R201 to
R221), with its completion and frame (R200). -/

namespace Sys2Proof.Machine

open Sys2Proof

/-! ## Operands of the integer instructions -/

@[simp] theorem toInt_sext12 (imm : BitVec 12) : (sext12 imm).toInt = imm.toInt :=
  BitVec.toInt_signExtend_of_le (by decide)

theorem toNat_eq_toInt_emod (a : Word) : (a.toNat : Int) = a.toInt % 2 ^ 32 := by
  have hlt := a.isLt
  rw [BitVec.toInt_eq_toNat_cond]
  split <;> omega

theorem toNat_sext12 (imm : BitVec 12) : ((sext12 imm).toNat : Int) = imm.toInt % 2 ^ 32 := by
  rw [toNat_eq_toInt_emod, toInt_sext12]

/-- Bits 31:12 of the extended immediate are copies of bit 11. -/
theorem getLsbD_sext12 (imm : BitVec 12) {k : Nat} (hk : k < 32) :
    (sext12 imm).getLsbD k = imm.getLsbD (min k 11) := by
  rw [sext12, BitVec.getLsbD_signExtend, decide_eq_true hk, Bool.true_and]
  by_cases hlow : k < 12
  · rw [if_pos hlow, Nat.min_eq_left (by omega)]
  · rw [if_neg hlow, BitVec.msb_eq_getLsbD_last, Nat.min_eq_right (by omega)]

theorem toNat_upperImm (imm : BitVec 20) : (upperImm imm).toNat = imm.toNat * 2 ^ 12 := by
  rw [upperImm, BitVec.toNat_append, BitVec.toNat_ofNat, Nat.zero_mod, Nat.or_zero, Nat.shiftLeft_eq]

theorem shiftAmount_eq_mod (v : Word) : shiftAmount v = v.toNat % 32 := by
  rw [shiftAmount, BitVec.extractLsb'_toNat, Nat.shiftRight_zero]

/-! ## Results as arithmetic -/

theorem toNat_add_sext12 (a : Word) (imm : BitVec 12) :
    ((a + sext12 imm).toNat : Int) = (a.toNat + imm.toInt) % 2 ^ 32 := by
  rw [BitVec.toNat_add, Int.natCast_mod, Int.natCast_add, toNat_sext12]
  exact Int.add_emod_emod _ _ _

theorem toNat_sub_eq_emod (a b : Word) : ((a - b).toNat : Int) = (a.toNat - b.toNat : Int) % 2 ^ 32 := by
  have hb := b.isLt
  rw [BitVec.toNat_sub]
  omega

theorem toNat_add_upperImm (a : Word) (imm : BitVec 20) :
    (a + upperImm imm).toNat = (a.toNat + imm.toNat * 2 ^ 12) % 2 ^ 32 := by
  rw [BitVec.toNat_add, toNat_upperImm]

theorem toNat_shiftLeft_eq_mul (a : Word) (n : Nat) : (a <<< n).toNat = a.toNat * 2 ^ n % 2 ^ 32 := by
  rw [BitVec.toNat_shiftLeft, Nat.shiftLeft_eq]

theorem toNat_ushiftRight_eq_div (a : Word) (n : Nat) : (a >>> n).toNat = a.toNat / 2 ^ n := by
  rw [BitVec.toNat_ushiftRight, Nat.shiftRight_eq_div_pow]

theorem toInt_sshiftRight_eq_div (a : Word) (n : Nat) : (a.sshiftRight n).toInt = a.toInt / 2 ^ n := by
  rw [BitVec.toInt_sshiftRight, Int.shiftRight_eq_div_pow, Nat.cast_pow, Nat.cast_ofNat]

theorem boolWord_decide (p : Prop) [Decidable p] : boolWord (decide p) = if p then 1#32 else 0#32 := by
  simp only [boolWord, decide_eq_true_eq]

theorem boolWord_slt (a b : Word) : boolWord (a.slt b) = if a.toInt < b.toInt then 1#32 else 0#32 :=
  boolWord_decide (a.toInt < b.toInt)

theorem boolWord_ult (a b : Word) : boolWord (a.ult b) = if a.toNat < b.toNat then 1#32 else 0#32 :=
  boolWord_decide (a.toNat < b.toNat)

theorem boolWord_slt_sext12 (a : Word) (imm : BitVec 12) :
    boolWord (a.slt (sext12 imm)) = if a.toInt < imm.toInt then 1#32 else 0#32 := by
  rw [boolWord_slt, toInt_sext12]

theorem boolWord_ult_sext12 (a : Word) (imm : BitVec 12) :
    boolWord (a.ult (sext12 imm)) = if (a.toNat : Int) < imm.toInt % 2 ^ 32 then 1#32 else 0#32 := by
  rw [boolWord_ult, ← toNat_sext12]
  simp only [Nat.cast_lt]

/-! ## The instructions

`exec` of each of them is `writeXNext` of the word that its pseudocode computes. -/

/-- The form in which the statements ask for a result: they name the word written only by what holds of it. -/
theorem writeXNext_result {rd : XReg} {s : State} {P : Word → Prop} (v : Word) (hv : P v) :
    ∃ t w, writeXNext rd v s = .next t ∧ WritesX s t rd w (s.pc + 4#32) ∧ P w := by
  obtain ⟨t, hnext, hwrites⟩ := writeXNext_spec rd v s
  exact ⟨t, v, hnext, hwrites, hv⟩

/-- Settles O26: the sum or difference of words, or the upper immediate, is the number that the statement asks for. -/
theorem sumResults : Obligations.SumResults := by
  intro rd rs1 rs2 imm upper s
  exact ⟨writeXNext_result (s.getX rs1 + s.getX rs2) (BitVec.toNat_add _ _),
    writeXNext_result (s.getX rs1 + sext12 imm) (toNat_add_sext12 _ imm),
    writeXNext_result (s.getX rs1 - s.getX rs2) (toNat_sub_eq_emod _ _),
    writeXNext_result (s.pc + upperImm upper) (toNat_add_upperImm _ upper),
    writeXNext_result (upperImm upper) (toNat_upperImm upper)⟩

/-- Settles O27: an operation on words acts on each bit, and the extended immediate has the bits that the statement
names. -/
theorem bitwiseResults : Obligations.BitwiseResults := by
  intro rd rs1 rs2 imm s a b c
  have himm : ∀ k < 32, (sext12 imm).getLsbD k = c k := fun k hk => getLsbD_sext12 imm hk
  refine ⟨writeXNext_result (s.getX rs1 &&& s.getX rs2) fun k _ => BitVec.getLsbD_and,
    writeXNext_result (s.getX rs1 &&& sext12 imm) fun k hk => ?andi,
    writeXNext_result (s.getX rs1 ||| s.getX rs2) fun k _ => BitVec.getLsbD_or,
    writeXNext_result (s.getX rs1 ||| sext12 imm) fun k hk => ?ori,
    writeXNext_result (s.getX rs1 ^^^ s.getX rs2) fun k _ => BitVec.getLsbD_xor,
    writeXNext_result (s.getX rs1 ^^^ sext12 imm) fun k hk => ?xori⟩
  case andi => rw [BitVec.getLsbD_and, himm k hk]
  case ori => rw [BitVec.getLsbD_or, himm k hk]
  case xori => rw [BitVec.getLsbD_xor, himm k hk]

/-- Settles O28: the low five bits are the residue modulo 32, and each shift is the product or quotient by a power
of 2. -/
theorem shiftResults : Obligations.ShiftResults := by
  intro rd rs1 rs2 shamt s a n
  have hn : shiftAmount (s.getX rs2) = n := shiftAmount_eq_mod _
  rw [← hn]
  exact ⟨writeXNext_result (a <<< shiftAmount (s.getX rs2)) (toNat_shiftLeft_eq_mul a _),
    writeXNext_result (a <<< shamt.toNat) (toNat_shiftLeft_eq_mul a _),
    writeXNext_result (a >>> shiftAmount (s.getX rs2)) (toNat_ushiftRight_eq_div a _),
    writeXNext_result (a >>> shamt.toNat) (toNat_ushiftRight_eq_div a _),
    writeXNext_result (a.sshiftRight (shiftAmount (s.getX rs2))) (toInt_sshiftRight_eq_div a _),
    writeXNext_result (a.sshiftRight shamt.toNat) (toInt_sshiftRight_eq_div a _)⟩

/-- Settles O29: the word of each comparison is 1 or 0 as the two operands compare as numbers. -/
theorem comparisonResults : Obligations.ComparisonResults := by
  intro rd rs1 rs2 imm s a
  rw [← boolWord_slt, ← boolWord_slt_sext12, ← boolWord_ult, ← boolWord_ult_sext12]
  exact ⟨writeXNext_spec rd (boolWord (a.slt (s.getX rs2))) s, writeXNext_spec rd (boolWord (a.slt (sext12 imm))) s,
    writeXNext_spec rd (boolWord (a.ult (s.getX rs2))) s, writeXNext_spec rd (boolWord (a.ult (sext12 imm))) s⟩

end Sys2Proof.Machine

/-! Proofs of the statements from 41_control_transfer.md: where each branch and jump goes, what it links and when it
raises (R230 to R239). -/

namespace Sys2Proof.Machine

open Sys2Proof

/-! ## The comparisons of the branches -/

theorem not_slt_iff_toInt_le (a b : Word) : (!a.slt b) = true ↔ b.toInt ≤ a.toInt := by
  rw [← BitVec.sle_eq_not_slt, BitVec.sle_iff_toInt_le]

theorem not_ult_iff_toNat_le (a b : Word) : (!a.ult b) = true ↔ b.toNat ≤ a.toNat := by
  rw [← BitVec.ule_eq_not_ult, BitVec.ule_iff_toNat_le]

/-! ## The shared operations -/

/-- `branchNext_spec` with the test of the branch read as a condition on the register contents. -/
theorem branchNext_branches {taken : Bool} {condition : Prop} (htaken : taken = true ↔ condition) (offset : BitVec 13)
    (s : State) : Branches (branchNext taken offset s) s condition (s.pc + offset.signExtend 32) := by
  rw [← propext htaken]
  exact branchNext_spec taken offset s

/-- The target is computed before the link is written, so it is an argument here and never sees the new `x[rd]`. -/
theorem jumpAndLink_spec (target : Word) (rd : XReg) (s : State) :
    (target.toNat % 4 = 0 →
        ∃ t, transferNext target (fun s => s.setX rd (s.pc + 4#32)) s = .next t ∧
          WritesX s t rd (s.pc + 4#32) target) ∧
      (target.toNat % 4 ≠ 0 →
        Raises (transferNext target (fun s => s.setX rd (s.pc + 4#32)) s) s .instructionAddressMisaligned target) := by
  obtain ⟨haligned, hmisaligned⟩ := transferNext_spec target (fun s => s.setX rd (s.pc + 4#32)) s
  exact ⟨fun h => ⟨_, haligned h, .setX_setPc s rd _ target⟩, hmisaligned⟩

/-! ## The instructions -/

/-- Settles O32: each branch is `branchNext` of a test, and the test holds exactly when the register contents compare as
the statement says. -/
theorem branchResults : Obligations.BranchResults := by
  intro rs1 rs2 offset s a b target
  have hbeq : (a == b) = true ↔ a = b := beq_iff_eq
  have hbne : (a != b) = true ↔ a ≠ b := bne_iff_ne
  have hblt : a.slt b = true ↔ a.toInt < b.toInt := BitVec.slt_iff_toInt_lt
  have hbge : (!a.slt b) = true ↔ b.toInt ≤ a.toInt := not_slt_iff_toInt_le a b
  have hbltu : a.ult b = true ↔ a.toNat < b.toNat := BitVec.ult_iff_toNat_lt
  have hbgeu : (!a.ult b) = true ↔ b.toNat ≤ a.toNat := not_ult_iff_toNat_le a b
  exact ⟨branchNext_branches hbeq offset s, branchNext_branches hbne offset s, branchNext_branches hblt offset s,
    branchNext_branches hbge offset s, branchNext_branches hbltu offset s, branchNext_branches hbgeu offset s⟩

/-- Settles O33: both jumps are a transfer after the same link, from targets that read only the old state. -/
theorem jumpResults : Obligations.JumpResults := by
  intro rd rs1 offset displacement s target indirect
  obtain ⟨hjal, hjalMisaligned⟩ := jumpAndLink_spec target rd s
  obtain ⟨hjalr, hjalrMisaligned⟩ := jumpAndLink_spec indirect rd s
  exact ⟨hjal, hjalMisaligned, hjalr, hjalrMisaligned⟩

end Sys2Proof.Machine

/-! Proofs of the statements from 42_load_store.md, and of `flw` and `fsw` of 46_float_move_convert_compare.md: what a
load that passes its checks writes to its register, and what such a store writes to memory (R250 to R258, R349, R355). -/

namespace Sys2Proof.Machine

open Sys2Proof

/-! ## What a load makes of its bytes -/

/-- Extending the low part of a value again undoes the zeros that `MemRead` puts above its bytes. -/
theorem signExtend_extractLsb'_setWidth {n : Nat} (b : BitVec n) (hn : n ≤ 32) :
    ((b.setWidth 32).extractLsb' 0 n).signExtend 32 = b.signExtend 32 := by
  rw [← BitVec.setWidth_eq_extractLsb' hn, BitVec.setWidth_setWidth_of_le b hn, BitVec.setWidth_eq]

theorem Memory.signExtend_readValue_byte (m : Memory) (addr : Word) :
    ((m.readValue addr .byte).extractLsb' 0 8).signExtend 32 = (m.read (byteAddress addr 0)).signExtend 32 :=
  signExtend_extractLsb'_setWidth _ (by decide)

theorem Memory.signExtend_readValue_half (m : Memory) (addr : Word) :
    ((m.readValue addr .half).extractLsb' 0 16).signExtend 32 =
      (m.read (byteAddress addr 1) ++ m.read (byteAddress addr 0)).signExtend 32 :=
  signExtend_extractLsb'_setWidth (m.read (byteAddress addr 1) ++ m.read (byteAddress addr 0)) (by decide)

/-! ## Accesses that pass their checks -/

/-- A byte access is always aligned (20_memory.md R72). -/
theorem AlignmentOk.byte (s : State) (addr : Word) : AlignmentOk s addr 1 := .inr (Nat.mod_one _)

/-- A load into an `x` register writes the extended value of its bytes; the caller names that word by `hv`. -/
theorem loadXNext_writesX {rd rs1 : XReg} {offset : BitVec 12} {w : Width} {ext : Word → Word} {s : State} {v : Word}
    (hv : ext (s.mem.readValue (s.effectiveAddress rs1 offset) w) = v)
    (halign : AlignmentOk s (s.effectiveAddress rs1 offset) (bytesIn w))
    (hmap : MapOk s .load (s.effectiveAddress rs1 offset) (bytesIn w)) :
    ∃ t, loadXNext rd rs1 offset w ext s = .next t ∧ WritesX s t rd v (s.pc + 4#32) := by
  obtain ⟨hload, -⟩ := loadThen_spec (s.effectiveAddress rs1 offset) w s fun v => (s.setX rd (ext v)).advance
  exact ⟨_, hload halign hmap, hv ▸ .setX_advance s rd _⟩

theorem execFlw_writesF {fd : FReg} {rs1 : XReg} {offset : BitVec 12} {s : State}
    (halign : AlignmentOk s (s.effectiveAddress rs1 offset) 4)
    (hmap : MapOk s .load (s.effectiveAddress rs1 offset) 4) :
    ∃ t, execFlw fd rs1 offset s = .next t ∧
      WritesF s t fd (s.mem.readValue (s.effectiveAddress rs1 offset) .word) := by
  obtain ⟨hload, -⟩ := loadThen_spec (s.effectiveAddress rs1 offset) .word s fun v => (s.setF fd v).advance
  exact ⟨_, hload halign hmap, .setF_advance s fd _⟩

/-! ## The instructions -/

/-- Settles O34: each load is `loadXNext` or, for `flw`, `execFlw`, of its width; only the sign-extending ones do
more to the value read than `MemRead` does. -/
theorem loadResults : Obligations.LoadResults := by
  intro rd fd rs1 offset s addr b
  refine ⟨fun hmap => ?byte, fun halign hmap => ?half, fun halign hmap => ?word⟩
  case byte =>
    have halign : AlignmentOk s addr 1 := .byte s addr
    rw [exec_lb, exec_lbu]
    exact ⟨loadXNext_writesX (s.mem.signExtend_readValue_byte addr) halign hmap, loadXNext_writesX rfl halign hmap⟩
  case half =>
    rw [exec_lh, exec_lhu]
    exact ⟨loadXNext_writesX (s.mem.signExtend_readValue_half addr) halign hmap, loadXNext_writesX rfl halign hmap⟩
  case word =>
    rw [exec_lw]
    exact ⟨loadXNext_writesX rfl halign hmap, execFlw_writesF halign hmap⟩

/-- Settles O35: each store is `storeNext` of its width and its register at the effective address. -/
theorem storeResults : Obligations.StoreResults := by
  intro rs2 fs2 rs1 offset s addr
  have haddr : addr = s.getX rs1 + offset.signExtend 32 := rfl
  obtain ⟨hsb, -⟩ := storeNext_spec addr .byte (s.getX rs2) s
  obtain ⟨hsh, -⟩ := storeNext_spec addr .half (s.getX rs2) s
  obtain ⟨hsw, -⟩ := storeNext_spec addr .word (s.getX rs2) s
  obtain ⟨hfsw, -⟩ := storeNext_spec addr .word (s.getF fs2) s
  exact ⟨haddr, hsb (.byte s addr), hsh, fun halign hmap => ⟨hsw halign hmap, hfsw halign hmap⟩⟩

end Sys2Proof.Machine

/-! Proofs of the statements from 43_multiply_divide.md: which word each multiplication and division writes to `x[rd]`
(R270 to R279). -/

namespace Sys2Proof.Machine

open Sys2Proof

/-! ## The high half of an exact product -/

theorem abs_toInt_le (a : Word) : |a.toInt| ≤ 2 ^ 31 :=
  abs_le.mpr ⟨a.le_toInt, a.toInt_lt.le⟩

theorem abs_toNat_lt (a : Word) : |(a.toNat : Int)| < 2 ^ 32 := by
  rw [Nat.abs_cast]
  exact_mod_cast a.isLt

/-- The second bound leaves room for an unsigned operand, so that `mulh` and `mulhsu` share the lemma. -/
theorem abs_mul_lt_of_operands {x y : Int} (hx : |x| ≤ 2 ^ 31) (hy : |y| < 2 ^ 32) : |x * y| < 2 ^ 63 :=
  calc |x * y|
    _ = |x| * |y| := abs_mul x y
    _ < 2 ^ 31 * 2 ^ 32 := mul_lt_mul' hx hy (abs_nonneg y) (by decide)

/-- As a signed word the high half of a signed product keeps the whole of its floor (R275). -/
theorem toInt_highHalf {p : Int} (hp : |p| < 2 ^ 63) : (highHalf p).toInt = p / 2 ^ 32 := by
  obtain ⟨hlo, hhi⟩ := abs_lt.mp hp
  exact BitVec.toInt_ofInt_eq_self (by decide) (by omega) (by omega)

theorem toNat_highHalf_mul (a b : Word) :
    (highHalf ((a.toNat : Int) * (b.toNat : Int))).toNat = a.toNat * b.toNat / 2 ^ 32 := by
  have hprod : a.toNat * b.toNat < 2 ^ 32 * 2 ^ 32 := Nat.mul_lt_mul'' a.isLt b.isLt
  have hnat : highHalf ((a.toNat : Int) * (b.toNat : Int)) = BitVec.ofNat 32 (a.toNat * b.toNat / 2 ^ 32) :=
    BitVec.ofInt_natCast 32 (a.toNat * b.toNat / 2 ^ 32)
  rw [hnat, BitVec.toNat_ofNat, Nat.mod_eq_of_lt (Nat.div_lt_of_lt_mul hprod)]

/-! ## Quotients and remainders

The corners of R271, and the numbers that the words hold beside them. -/

theorem divSigned_zero (p : Word) : divSigned p 0#32 = 0xFFFFFFFF#32 := if_pos rfl

theorem divSigned_overflow : divSigned 0x80000000#32 0xFFFFFFFF#32 = 0x80000000#32 := by decide

/-- `-2^31` by `-1` is the only quotient by a nonzero divisor that does not fit a signed word. -/
theorem toInt_divSigned {p q : Word} (hq : q ≠ 0#32) (hoverflow : ¬(p = 0x80000000#32 ∧ q = 0xFFFFFFFF#32)) :
    (divSigned p q).toInt = p.toInt.tdiv q.toInt := by
  rw [divSigned, if_neg hq, if_neg hoverflow]
  calc (BitVec.ofInt 32 (p.toInt.tdiv q.toInt)).toInt
    _ = (p.sdiv q).toInt := by rw [BitVec.toInt_ofInt, BitVec.toInt_sdiv]
    _ = p.toInt.tdiv q.toInt := BitVec.toInt_sdiv_of_ne_or_ne p q (not_and_or.mp hoverflow)

theorem divUnsigned_zero (p : Word) : divUnsigned p 0#32 = 0xFFFFFFFF#32 := if_pos rfl

theorem toNat_divUnsigned {p q : Word} (hq : q ≠ 0#32) : (divUnsigned p q).toNat = p.toNat / q.toNat := by
  rw [divUnsigned, if_neg hq, BitVec.toNat_ofNat]
  exact Nat.mod_eq_of_lt ((Nat.div_le_self _ _).trans_lt p.isLt)

theorem remSigned_zero (p : Word) : remSigned p 0#32 = p := if_pos rfl

theorem remSigned_overflow : remSigned 0x80000000#32 0xFFFFFFFF#32 = 0#32 := by decide

/-- Also where the quotient does not fit: there the exact remainder is the 0 of R271. -/
theorem toInt_remSigned {p q : Word} (hq : q ≠ 0#32) :
    (remSigned p q).toInt = p.toInt - q.toInt * p.toInt.tdiv q.toInt := by
  by_cases hoverflow : p = 0x80000000#32 ∧ q = 0xFFFFFFFF#32
  · obtain ⟨rfl, rfl⟩ := hoverflow
    decide
  · rw [remSigned, if_neg hq, if_neg hoverflow, ← BitVec.toInt_srem, BitVec.ofInt_toInt, BitVec.toInt_srem,
      Int.tmod_def]

theorem remUnsigned_zero (p : Word) : remUnsigned p 0#32 = p := if_pos rfl

theorem toNat_remUnsigned {p q : Word} (hq : q ≠ 0#32) : (remUnsigned p q).toNat = p.toNat % q.toNat := by
  rw [remUnsigned, if_neg hq, BitVec.toNat_ofNat]
  exact Nat.mod_eq_of_lt ((Nat.mod_le _ _).trans_lt p.isLt)

/-! ## The instructions -/

/-- Settles O30: the low half is the product modulo `2^32`, and each high half is small enough to be exact in the
reading, signed or unsigned, that the instruction gives its word. -/
theorem multiplyResults : Obligations.MultiplyResults := by
  intro rd rs1 rs2 s a b
  have hmulh : |a.toInt * b.toInt| < 2 ^ 63 :=
    abs_mul_lt_of_operands (abs_toInt_le a) ((abs_toInt_le b).trans_lt (by decide))
  have hmulhsu : |a.toInt * b.toNat| < 2 ^ 63 := abs_mul_lt_of_operands (abs_toInt_le a) (abs_toNat_lt b)
  exact ⟨writeXNext_result (BitVec.ofNat 32 (a.toNat * b.toNat)) (BitVec.toNat_ofNat _ 32),
    writeXNext_result (highHalf (a.toInt * b.toInt)) (toInt_highHalf hmulh),
    writeXNext_result (highHalf (a.toInt * b.toNat)) (toInt_highHalf hmulhsu),
    writeXNext_result (highHalf (a.toNat * b.toNat)) (toNat_highHalf_mul a b)⟩

/-- Settles O31: each instruction writes its quotient or remainder, and the clauses are that word's corners and its
value beside them. -/
theorem divideResults : Obligations.DivideResults := by
  intro rd rs1 rs2 s a b
  refine ⟨writeXNext_result (divSigned a b) ⟨fun hb => ?div_zero, fun ha hb => ?div_overflow, toInt_divSigned⟩,
    writeXNext_result (divUnsigned a b) ⟨fun hb => ?divu_zero, toNat_divUnsigned⟩,
    writeXNext_result (remSigned a b) ⟨fun hb => ?rem_zero, fun ha hb => ?rem_overflow, toInt_remSigned⟩,
    writeXNext_result (remUnsigned a b) ⟨fun hb => ?remu_zero, toNat_remUnsigned⟩⟩
  case div_zero => rw [hb, divSigned_zero]
  case div_overflow => rw [ha, hb, divSigned_overflow]
  case divu_zero => rw [hb, divUnsigned_zero]
  case rem_zero => rw [hb, remSigned_zero]
  case rem_overflow => rw [ha, hb, remSigned_overflow]
  case remu_zero => rw [hb, remUnsigned_zero]

end Sys2Proof.Machine

/-! Proofs of the statements from 44_csr_system.md: what the CSR instructions read and write, and at which addresses they
raise (R290 to R296), the two instructions that always raise (R297, R298), and `fence` (R299). -/

namespace Sys2Proof

/-! ## Words of single instructions -/

/-- The two round trips together: a word decodes to an instruction exactly if it is that instruction's encoding. -/
theorem decodeWord_eq_ok_iff {w : Word} {i : Instr} (hi : i.wellFormed = true) :
    decodeWord w = .ok i ↔ w = encode i := by
  constructor
  · intro h
    obtain ⟨-, hencode⟩ := encodeOfDecodeGivesBack w i h
    exact hencode.symm
  · rintro rfl
    rw [decodeWord_encode, decodeFields_encodeFields i hi]

theorem toWord_fieldsI (imm : BitVec 12) (rs1 : BitVec 5) (f3 : BitVec 3) (rd : BitVec 5) (op : BitVec 7) :
    (fieldsI imm rs1 f3 rd op).toWord = imm ++ rs1 ++ f3 ++ rd ++ op :=
  calc (fieldsI imm rs1 f3 rd op).toWord
    _ = (fieldsI imm rs1 f3 rd op).immI ++ rs1 ++ f3 ++ rd ++ op := rfl
    _ = imm ++ rs1 ++ f3 ++ rd ++ op := by rw [immI_fieldsI]

theorem encode_ebreak : encode .ebreak = 0x00100073#32 := Fields.toWord_ofWord _

theorem encode_ecall : encode .ecall = 0x00000073#32 := Fields.toWord_ofWord _

theorem encode_fence (fm pred succ : BitVec 4) (rs1 rd : XReg) :
    encode (.fence fm pred succ rs1 rd) = fm ++ pred ++ succ ++ rs1 ++ 0b000#3 ++ rd ++ 0b0001111#7 :=
  toWord_fieldsI _ _ _ _ _

end Sys2Proof

namespace Sys2Proof.Machine

open Sys2Proof

/-! ## The CSR instructions

Each is `csrNext`, with its own new value and its own condition to write (R290 (b), (e)). -/

section
variable (rd rs1 : XReg) (csr : CsrAddr) (zimm : BitVec 5) (s : State)

theorem exec_csrrw : exec (.csrrw rd csr rs1) s =
    csrNext (.csrrw rd csr rs1) rd csr true (fun _ => s.getX rs1) s := rfl

theorem exec_csrrs : exec (.csrrs rd csr rs1) s =
    csrNext (.csrrs rd csr rs1) rd csr (rs1 != 0#5) (fun old => old ||| s.getX rs1) s := rfl

theorem exec_csrrc : exec (.csrrc rd csr rs1) s =
    csrNext (.csrrc rd csr rs1) rd csr (rs1 != 0#5) (fun old => old &&& ~~~(s.getX rs1)) s := rfl

theorem exec_csrrwi : exec (.csrrwi rd csr zimm) s =
    csrNext (.csrrwi rd csr zimm) rd csr true (fun _ => zextZimm zimm) s := rfl

theorem exec_csrrsi : exec (.csrrsi rd csr zimm) s =
    csrNext (.csrrsi rd csr zimm) rd csr (zimm != 0#5) (fun old => old ||| zextZimm zimm) s := rfl

theorem exec_csrrci : exec (.csrrci rd csr zimm) s =
    csrNext (.csrrci rd csr zimm) rd csr (zimm != 0#5) (fun old => old &&& ~~~(zextZimm zimm)) s := rfl

end

/-- An instruction that does not write must be one whose new value is the old value again: writing it would change
nothing. -/
theorem csrNext_effect {csr : CsrAddr} {name : CsrName} (hcsr : (csr, name) ∈ csrPlaces) (i : Instr) (rd : XReg)
    {writes : Bool} {new : Word → Word} {s : State}
    (hkeeps : writes = false → new (csrValue s name) = csrValue s name) :
    ∃ t, csrNext i rd csr writes new s = .next t ∧ CsrEffect s t rd name (new (csrValue s name)) := by
  apply csrNext_spec i rd csr name writes new s hcsr
  cases writes with
  | false => exact hkeeps rfl
  | true => rfl

theorem or_eq_self_of_zero {old z : Word} (hz : z = 0#32) : old ||| z = old := by rw [hz, BitVec.or_zero]

theorem and_not_eq_self_of_zero {old z : Word} (hz : z = 0#32) : old &&& ~~~z = old := by
  rw [hz, BitVec.not_zero, BitVec.and_allOnes]

/-- The mask of a set or clear that does not write is 0, because its field is 0 (R290 (b)). -/
theorem getX_eq_zero_of_not_writes {s : State} {rs1 : XReg} (h : (rs1 != 0#5) = false) : s.getX rs1 = 0#32 := by
  rw [bne_eq_false_iff_eq.mp h, State.getX_zero]

theorem zextZimm_eq_zero_of_not_writes {zimm : BitVec 5} (h : (zimm != 0#5) = false) : zextZimm zimm = 0#32 := by
  rw [bne_eq_false_iff_eq.mp h]
  rfl

/-- Settles O38: the six instructions differ in the new value alone, and a set or clear that does not write has a zero
mask. -/
theorem csrResults : Obligations.CsrResults := by
  rintro rd rs1 zimm s ⟨csr, name⟩ hcsr old z
  rw [exec_csrrw, exec_csrrs, exec_csrrc, exec_csrrwi, exec_csrrsi, exec_csrrci]
  refine ⟨csrNext_effect hcsr _ rd nofun, csrNext_effect hcsr _ rd fun h => ?csrrs,
    csrNext_effect hcsr _ rd fun h => ?csrrc, csrNext_effect hcsr _ rd nofun,
    csrNext_effect hcsr _ rd fun h => ?csrrsi, csrNext_effect hcsr _ rd fun h => ?csrrci⟩
  case csrrs => exact or_eq_self_of_zero (getX_eq_zero_of_not_writes h)
  case csrrc => exact and_not_eq_self_of_zero (getX_eq_zero_of_not_writes h)
  case csrrsi => exact or_eq_self_of_zero (zextZimm_eq_zero_of_not_writes h)
  case csrrci => exact and_not_eq_self_of_zero (zextZimm_eq_zero_of_not_writes h)

/-- Settles O39: each of the six looks the address up before anything else. -/
theorem unimplementedCsrRaises : Obligations.UnimplementedCsrRaises := by
  intro rd rs1 zimm csr s hcsr
  have raises (i : Instr) (writes : Bool) (new : Word → Word) := csrNext_unimplemented i rd csr writes new s hcsr
  simp only [List.forall_mem_cons, List.not_mem_nil, false_implies, implies_true, and_true, exec_csrrw, exec_csrrs,
    exec_csrrc, exec_csrrwi, exec_csrrsi, exec_csrrci]
  exact ⟨raises _ _ _, raises _ _ _, raises _ _ _, raises _ _ _, raises _ _ _, raises _ _ _⟩

/-! ## Environment and fence -/

/-- Settles O40: neither instruction has an operand, so each encodes to the one word that decodes to it. -/
theorem breakpointAndEnvironmentCallTrap : Obligations.BreakpointAndEnvironmentCallTrap := by
  refine ⟨fun s => ⟨raiseNext_spec .breakpoint s.pc s, raiseNext_spec .environmentCall 0#32 s⟩, fun w => ⟨?_, ?_⟩⟩
  · rw [decodeWord_eq_ok_iff rfl, encode_ebreak]
  · rw [decodeWord_eq_ok_iff rfl, encode_ecall]

/-- Settles O41: `fence` only advances `pc`, and its word is the concatenation of its fields. -/
theorem fenceChangesOnlyPc : Obligations.FenceChangesOnlyPc := by
  intro fm pred succ rs1 rd s
  refine ⟨⟨s.advance, rfl, .advance s⟩, ?_⟩
  rw [decodeWord_eq_ok_iff rfl, encode_fence]

end Sys2Proof.Machine

/-! The rounding function of the model over the real numbers, for the statements from 45_float_arith.md: what
`roundExact` gives for every magnitude, and the statement that it is the function of R312. -/

namespace Sys2Proof.Machine

open Sys2Proof

/-! ## The integer that the rounding takes -/

theorem RoundedInteger.eq_floor_or {mode : RoundingMode} {neg : Prop} {t : ℝ} {r : ℤ}
    (h : RoundedInteger mode neg t r) : r = ⌊t⌋ ∨ r = ⌊t⌋ + 1 := by
  by_cases hup : RoundsUp mode neg t
  · exact .inr (h.1 hup)
  · exact .inl (h.2 hup)

theorem RoundedInteger.unique {mode : RoundingMode} {neg : Prop} {t : ℝ} {r r' : ℤ} (h : RoundedInteger mode neg t r)
    (h' : RoundedInteger mode neg t r') : r = r' := by
  by_cases hup : RoundsUp mode neg t
  · rw [h.1 hup, h'.1 hup]
  · rw [h.2 hup, h'.2 hup]

/-- No mode moves an integer. -/
theorem RoundedInteger.eq_floor_of_fract_eq_zero {mode : RoundingMode} {neg : Prop} {t : ℝ} {r : ℤ}
    (h : RoundedInteger mode neg t r) (ht : Int.fract t = 0) : r = ⌊t⌋ := by
  refine h.2 fun hup => ?_
  cases mode with
  | rne =>
    obtain hup | ⟨hup, -⟩ := hup <;> norm_num [ht] at hup
  | rtz => exact hup
  | rdn | rup => exact hup.2 ht
  | rmm =>
    unfold RoundsUp at hup
    norm_num [ht] at hup

theorem RoundedInteger.eq_iff {mode : RoundingMode} {neg : Prop} {t : ℝ} {r : ℤ} (h : RoundedInteger mode neg t r) :
    (r : ℝ) = t ↔ Int.fract t = 0 := by
  constructor
  · rintro rfl
    exact Int.fract_intCast r
  · intro ht
    rw [h.eq_floor_of_fract_eq_zero ht, ← sub_eq_zero, ← neg_sub, Int.self_sub_floor, ht, neg_zero]

/-! ## The spacing and the quotient -/

/-- The exponent of the spacing `q` of binary32 numbers around a magnitude (45_float_arith.md R312). -/
def Magnitude.spacing (m : Magnitude) : ℤ := max (floorLog2 m) (-126) - 23

/-- The spacing in units of `2^-149` is this power of two. -/
def Magnitude.spacingUnits (m : Magnitude) : ℕ := (m.spacing + 149).toNat

/-- `|v| / q` (45_float_arith.md R312). -/
noncomputable def Magnitude.quotient (m : Magnitude) : ℝ := m.value / (2 : ℝ) ^ m.spacing

/-- The integer `r` that the model takes (45_float_arith.md R312). -/
def Magnitude.rounded (m : Magnitude) (mode : RoundingMode) (neg : Bool) : ℕ := (roundAt mode neg m m.spacing).1

theorem Magnitude.spacing_eq (m : Magnitude) : m.spacing = (m.spacingUnits : ℤ) - 149 := by
  unfold spacingUnits spacing
  omega

theorem Magnitude.two_zpow_spacing (m : Magnitude) : (2 : ℝ) ^ m.spacing = 2 ^ m.spacingUnits / 2 ^ 149 := by
  rw [m.spacing_eq, zpow_sub₀ two_ne_zero]
  norm_cast

section
variable {m : Magnitude} (hm : m.Pos)
include hm

theorem Magnitude.quotient_lt : m.quotient < 2 ^ 24 := by
  rw [quotient, div_lt_iff₀ (by positivity), ← zpow_natCast, ← zpow_add₀ two_ne_zero]
  refine (floorLog2_spec hm).2.trans_le (zpow_le_zpow_right₀ one_le_two ?_)
  unfold spacing
  omega

/-- Above the subnormal numbers the quotient has 24 bits. -/
theorem Magnitude.le_quotient (h : 0 < m.spacingUnits) : 2 ^ 23 ≤ m.quotient := by
  rw [quotient, le_div_iff₀ (by positivity), ← zpow_natCast, ← zpow_add₀ two_ne_zero]
  refine le_trans (zpow_le_zpow_right₀ one_le_two ?_) (floorLog2_spec hm).1
  unfold spacingUnits spacing at h
  unfold spacing
  omega

theorem Magnitude.rounded_spec (mode : RoundingMode) (neg : Bool) :
    RoundedInteger mode (neg = true) m.quotient (m.rounded mode neg) :=
  (roundAt_spec hm mode neg m.spacing).1

theorem Magnitude.rounded_le (mode : RoundingMode) (neg : Bool) : m.rounded mode neg ≤ 2 ^ 24 := by
  have hfloor : ⌊m.quotient⌋ < 2 ^ 24 := Int.floor_lt.mpr (by exact_mod_cast quotient_lt hm)
  obtain h | h := (rounded_spec hm mode neg).eq_floor_or <;> omega

theorem Magnitude.le_rounded (mode : RoundingMode) (neg : Bool) (h : 0 < m.spacingUnits) :
    2 ^ 23 ≤ m.rounded mode neg := by
  have hfloor : 2 ^ 23 ≤ ⌊m.quotient⌋ := Int.le_floor.mpr (by exact_mod_cast le_quotient hm h)
  obtain h | h := (rounded_spec hm mode neg).eq_floor_or <;> omega

/-- The result is exact exactly when the quotient is an integer. -/
theorem Magnitude.rounded_mul_eq_iff (mode : RoundingMode) (neg : Bool) :
    (m.rounded mode neg : ℝ) * 2 ^ m.spacing = m.value ↔ Int.fract m.quotient = 0 := by
  rw [← (rounded_spec hm mode neg).eq_iff, quotient, eq_div_iff (by positivity), Int.cast_natCast]

theorem Magnitude.roundAt_inexact_iff (mode : RoundingMode) (neg : Bool) :
    (roundAt mode neg m m.spacing).2 = true ↔ (m.rounded mode neg : ℝ) * 2 ^ m.spacing ≠ m.value := by
  rw [Ne, rounded_mul_eq_iff hm]
  exact (roundAt_spec hm mode neg m.spacing).2

end

/-! ## Overflow and underflow -/

/-- `2^128` in units of `2^-149`. -/
theorem Magnitude.overflow_iff (m : Magnitude) (r : ℕ) :
    2 ^ 277 ≤ r * 2 ^ m.spacingUnits ↔ (2 : ℝ) ^ (128 : ℤ) ≤ r * (2 : ℝ) ^ m.spacing := by
  have hpow : (2 : ℝ) ^ (128 : ℤ) * 2 ^ 149 = 2 ^ 277 := by
    rw [← zpow_natCast, ← zpow_add₀ two_ne_zero, ← zpow_natCast]
    rfl
  rw [m.two_zpow_spacing, mul_div_assoc', le_div_iff₀ (by positivity), hpow, ← Nat.cast_le (α := ℝ)]
  simp only [Nat.cast_mul, Nat.cast_pow, Nat.cast_ofNat]

/-- The model's test for tininess is that of R312, read with the sign of the value (log 14). -/
theorem isTiny_iff {m : Magnitude} (hm : m.Pos) (mode : RoundingMode) (neg : Bool) :
    isTiny mode neg m = true ↔ Tiny mode (neg = true) m.value (floorLog2 m) := by
  set E := floorLog2 m with hE
  set r := (roundAt mode neg m (E - 23)).1 with hr
  have hspec : RoundedInteger mode (neg = true) (m.value / 2 ^ (E - 23)) r := (roundAt_spec hm mode neg (E - 23)).1
  have htiny : Tiny mode (neg = true) m.value E ↔ (r : ℝ) * 2 ^ (E - 23) < 2 ^ (-126 : ℤ) := by
    unfold Tiny
    rw [abs_of_pos (Magnitude.value_pos hm)]
    constructor
    · rintro ⟨r', hr', hlt⟩
      rwa [hr'.unique hspec] at hlt
    · exact fun hlt => ⟨r, hspec, hlt⟩
  have hdef : isTiny mode neg m = true ↔ E < -126 ∧ r < 2 ^ (-103 - E).toNat := by
    simp only [isTiny, ← hE, ← hr, Bool.and_eq_true, decide_eq_true_eq]
  rw [hdef, htiny]
  by_cases hsmall : E < -126
  · have hpow : (2 : ℝ) ^ (-126 : ℤ) = 2 ^ (-103 - E).toNat * 2 ^ (E - 23) := by
      rw [← zpow_natCast, ← zpow_add₀ two_ne_zero]
      congr 1
      omega
    rw [hpow, mul_lt_mul_iff_left₀ (by positivity)]
    exact (and_iff_right hsmall).trans (by norm_cast)
  · refine iff_of_false (fun h => hsmall h.1) (not_lt_of_ge ?_)
    have hfloor : (2 ^ 23 : ℤ) ≤ ⌊m.value / 2 ^ (E - 23)⌋ := by
      rw [Int.le_floor, le_div_iff₀ (by positivity)]
      refine le_trans (le_of_eq ?_) (floorLog2_spec hm).1
      rw [Int.cast_pow, Int.cast_ofNat, ← zpow_natCast, ← zpow_add₀ two_ne_zero]
      congr 1
      omega
    have hle : 2 ^ 23 ≤ r := by obtain h | h := hspec.eq_floor_or <;> omega
    calc (2 : ℝ) ^ (-126 : ℤ) ≤ 2 ^ (23 : ℤ) * 2 ^ (E - 23) := by
          rw [← zpow_add₀ two_ne_zero]
          exact zpow_le_zpow_right₀ one_le_two (by omega)
      _ ≤ r * 2 ^ (E - 23) := by gcongr; exact_mod_cast hle

/-! ## The result of rounding -/

/-- `roundExact` in the words above: an overflow, or a number with its flags. -/
theorem roundExact_eq (mode : RoundingMode) (neg : Bool) (m : Magnitude) :
    roundExact mode neg m =
      if 2 ^ 277 ≤ m.rounded mode neg * 2 ^ m.spacingUnits then (overflowResult mode neg, flagOF ||| flagNX)
      else (packNumber neg (m.rounded mode neg) m.spacing,
        flagIf (roundAt mode neg m m.spacing).2 flagNX |||
          flagIf (isTiny mode neg m && (roundAt mode neg m m.spacing).2) flagUF) := rfl

theorem roundExact_of_overflow {mode : RoundingMode} {neg : Bool} {m : Magnitude}
    (h : 2 ^ 277 ≤ m.rounded mode neg * 2 ^ m.spacingUnits) :
    roundExact mode neg m = (overflowResult mode neg, flagOF ||| flagNX) := by rw [roundExact_eq, if_pos h]

/-- Short of overflow the result is a finite number of the sign given and of magnitude `r * q`. -/
theorem roundExact_of_not_overflow {mode : RoundingMode} {neg : Bool} {m : Magnitude} (hm : m.Pos)
    (h : m.rounded mode neg * 2 ^ m.spacingUnits < 2 ^ 277) :
    fpSign (roundExact mode neg m).1 = neg ∧ isFinite (roundExact mode neg m).1 = true ∧
      unitsMagnitude (roundExact mode neg m).1 = m.rounded mode neg * 2 ^ m.spacingUnits := by
  rw [roundExact_eq, if_neg (Nat.not_le.mpr h), m.spacing_eq]
  exact packNumber_spec neg _ _ (Magnitude.rounded_le hm mode neg) (Magnitude.le_rounded hm mode neg) h

/-- Short of overflow the flags are NX when the result is inexact, and then UF when the value is tiny
(45_float_arith.md R312). -/
theorem roundExact_flags {mode : RoundingMode} {neg : Bool} {m : Magnitude}
    (h : m.rounded mode neg * 2 ^ m.spacingUnits < 2 ^ 277) :
    (roundExact mode neg m).2 =
      if (roundAt mode neg m m.spacing).2 then if isTiny mode neg m then flagNX ||| flagUF else flagNX
      else noFlags := by
  rw [roundExact_eq, if_neg (Nat.not_le.mpr h)]
  cases (roundAt mode neg m m.spacing).2 <;> cases isTiny mode neg m <;> rfl

theorem abs_fpValue_real (a : Word) : |((fpValue a : ℚ) : ℝ)| = (unitsMagnitude a : ℝ) / 2 ^ 149 := by
  rw [← Rat.cast_abs, abs_fpValue, Rat.cast_div, Rat.cast_natCast, Rat.cast_pow, Rat.cast_ofNat]

/-- The rounding function of the model is that of R312, for the real number of either sign whose magnitude it is given:
the exponent and the integer are the model's own, and each clause of R312 is one of the lemmas above. -/
theorem roundExact_rounds {m : Magnitude} (hm : m.Pos) {v : ℝ} {neg : Bool} (mode : RoundingMode)
    (habs : |v| = m.value) (hsign : v < 0 ↔ neg = true) : Rounds mode v (roundExact mode neg m) := by
  obtain ⟨hlow, hhigh⟩ := floorLog2_spec hm
  have hpos : 0 < v ↔ neg = false := by
    rw [← Bool.not_eq_true, ← hsign, not_lt]
    have hne : v ≠ 0 := abs_pos.mp (habs ▸ Magnitude.value_pos hm)
    exact ⟨le_of_lt, fun h => h.lt_of_ne' hne⟩
  refine ⟨floorLog2 m, m.rounded mode neg, habs ▸ hlow, habs ▸ hhigh, ?_, ?_⟩
  · rw [habs, propext hsign]
    exact m.rounded_spec hm mode neg
  rw [show max (floorLog2 m) (-126) - 23 = m.spacing from rfl, Int.cast_natCast, propext hsign, propext hpos]
  split
  next hover =>
    rw [roundExact_of_overflow ((m.overflow_iff _).mpr hover)]
    refine ⟨rfl, ?_, ?_⟩ <;> cases mode <;> cases neg <;> simp [overflowResult, infinityOf, largestOf]
  next hfits =>
    have hfits' := Nat.lt_of_not_le fun h => hfits ((m.overflow_iff _).mp h)
    obtain ⟨hneg, hfinite, hunits⟩ := roundExact_of_not_overflow hm hfits'
    have hexact : (m.rounded mode neg : ℝ) * 2 ^ m.spacing = m.value ↔ (roundAt mode neg m m.spacing).2 = false := by
      rw [← Bool.not_eq_true, Magnitude.roundAt_inexact_iff hm, not_not]
    have htiny : Tiny mode (neg = true) v (floorLog2 m) ↔ isTiny mode neg m = true := by
      rw [isTiny_iff hm, Tiny, Tiny, habs, abs_of_pos (Magnitude.value_pos hm)]
    refine ⟨hfinite, by rw [hneg], ?_, ?_⟩
    · rw [abs_fpValue_real, hunits, m.two_zpow_spacing]
      push_cast
      ring
    rw [roundExact_flags hfits', habs, htiny, Ne, hexact]
    cases (roundAt mode neg m m.spacing).2 <;> cases isTiny mode neg m <;> simp [flagNX, flagUF, noFlags]

/-- Settles O51: a positive quotient is an exact magnitude, of the value of either sign. -/
theorem roundingFollowsItsRule : Obligations.RoundingFollowsItsRule := by
  intro mode neg num den hnum hden
  have hpos : (0 : ℝ) < (num : ℝ) / den := by positivity
  refine roundExact_rounds (m := .ratio num den) ⟨hnum, hden⟩ mode ?_ ?_
  · cases neg <;> simp [Magnitude.value, abs_of_pos hpos]
  · cases neg
    · simpa using hpos.le
    · simpa using hpos

end Sys2Proof.Machine

/-! Rounding to nearest and the directed modes against every finite number, for the statements from 45_float_arith.md
(R312). Both are read off one fact: on the scale on which the exact value is `|v| / q`, no number lies strictly between
the two integers that the rounding chooses from. -/

namespace Sys2Proof.Machine

open Sys2Proof

/-! ## Numbers as multiples of a spacing -/

/-- A number with more than 23 bits above `2^j` units is a multiple of `2^j` units. -/
theorem two_pow_dvd_unitsMagnitude {a : Word} {j : ℕ} (h : 2 ^ (j + 23) ≤ unitsMagnitude a) :
    2 ^ j ∣ unitsMagnitude a := by
  have hfraction := fpFraction_lt a
  unfold unitsMagnitude at h ⊢
  split at h
  next =>
    have hpow : 2 ^ 23 ≤ 2 ^ (j + 23) := Nat.pow_le_pow_right two_pos (by omega)
    omega
  next he =>
    have hlt : 2 ^ (j + 23) < 2 ^ (24 + (fpExponent a - 1)) := by
      refine h.trans_lt ?_
      rw [pow_add]
      exact Nat.mul_lt_mul_of_pos_right (by omega) (by positivity)
    have hj := (Nat.pow_lt_pow_iff_right one_lt_two).mp hlt
    rw [if_neg he]
    exact Dvd.dvd.mul_left (pow_dvd_pow 2 (by omega)) _

/-- No number lies strictly between two neighbours of the spacing `2^j` units, if the lower one has 24 bits or the
spacing is the least. -/
theorem unitsMagnitude_gap (a : Word) {n j : ℕ} (h : 0 < j → 2 ^ 23 ≤ n) :
    unitsMagnitude a ≤ n * 2 ^ j ∨ (n + 1) * 2 ^ j ≤ unitsMagnitude a := by
  by_cases hdvd : 2 ^ j ∣ unitsMagnitude a
  · obtain ⟨c, hc⟩ := hdvd
    rw [hc, mul_comm]
    exact (Nat.lt_or_ge n c).symm.imp (Nat.mul_le_mul_right _) (Nat.mul_le_mul_right _)
  · have hj : 0 < j := Nat.pos_of_ne_zero fun hzero => hdvd (hzero ▸ one_dvd _)
    have hsmall : unitsMagnitude a < 2 ^ (j + 23) := lt_of_not_ge fun hle => hdvd (two_pow_dvd_unitsMagnitude hle)
    refine .inl (hsmall.le.trans ?_)
    rw [pow_add, mul_comm]
    exact Nat.mul_le_mul_right _ (h hj)

theorem unitsMagnitude_largestOf (neg : Bool) : unitsMagnitude (largestOf neg) = (2 ^ 24 - 1) * 2 ^ 253 := by
  cases neg <;> decide +kernel

/-- No finite number is larger than the largest (45_float_arith.md R310). -/
theorem unitsMagnitude_le_of_isFinite {a : Word} (h : isFinite a = true) :
    unitsMagnitude a ≤ (2 ^ 24 - 1) * 2 ^ 253 := by
  have hfraction := fpFraction_lt a
  have he : fpExponent a ≠ 255 := by simpa [isFinite] using h
  have he' := fpExponent_lt a
  unfold unitsMagnitude
  split
  next => exact le_trans (by omega) (Nat.le_mul_of_pos_right _ (by positivity))
  next => exact Nat.mul_le_mul (by omega) (Nat.pow_le_pow_right two_pos (by omega))

theorem unitsMagnitude_lt_of_isFinite {a : Word} (h : isFinite a = true) : unitsMagnitude a < 2 ^ 277 :=
  (unitsMagnitude_le_of_isFinite h).trans_lt (by
    rw [show 277 = 24 + 253 from rfl, pow_add]
    exact Nat.mul_lt_mul_of_pos_right (by norm_num) (by positivity))

/-! ## The scale of a magnitude -/

/-- Where the number `x` lies on the scale on which the exact value of magnitude `m` and sign `neg` lies at
`m.quotient`. -/
noncomputable def Magnitude.coordinate (m : Magnitude) (neg : Bool) (x : ℚ) : ℝ :=
  ((if neg then -x else x : ℚ) : ℝ) / (2 : ℝ) ^ m.spacing

theorem Magnitude.coordinate_le_iff (m : Magnitude) (neg : Bool) (x y : ℚ) :
    m.coordinate neg x ≤ m.coordinate neg y ↔ if neg then y ≤ x else x ≤ y := by
  unfold coordinate
  rw [div_le_div_iff_of_pos_right (by positivity), Rat.cast_le]
  cases neg <;> simp

theorem Magnitude.coordinate_lt_iff (m : Magnitude) (neg : Bool) (x y : ℚ) :
    m.coordinate neg x < m.coordinate neg y ↔ if neg then y < x else x < y := by
  rw [← not_le, m.coordinate_le_iff]
  cases neg <;> simp

theorem Magnitude.coordinate_inj (m : Magnitude) (neg : Bool) {x y : ℚ} :
    m.coordinate neg x = m.coordinate neg y ↔ x = y := by
  rw [le_antisymm_iff, m.coordinate_le_iff, m.coordinate_le_iff]
  cases neg
  · exact le_antisymm_iff.symm
  · exact and_comm.trans le_antisymm_iff.symm

/-- Distances on the scale are distances of numbers. -/
theorem Magnitude.abs_coordinate_sub (m : Magnitude) (neg : Bool) (x y : ℚ) :
    |m.coordinate neg x - m.coordinate neg y| = ((|x - y| : ℚ) : ℝ) / (2 : ℝ) ^ m.spacing := by
  unfold coordinate
  rw [div_sub_div_same, abs_div, abs_of_pos (show (0 : ℝ) < 2 ^ m.spacing by positivity), ← Rat.cast_sub,
    ← Rat.cast_abs]
  cases neg
  · rfl
  · rw [if_pos rfl, if_pos rfl, neg_sub_neg, abs_sub_comm]

theorem Magnitude.coordinate_zero (m : Magnitude) (neg : Bool) : m.coordinate neg 0 = 0 := by
  unfold coordinate
  cases neg <;> simp

theorem Magnitude.abs_coordinate (m : Magnitude) (neg : Bool) (x : ℚ) :
    |m.coordinate neg x| = ((|x| : ℚ) : ℝ) / (2 : ℝ) ^ m.spacing := by
  have h := m.abs_coordinate_sub neg x 0
  rwa [m.coordinate_zero, sub_zero, sub_zero] at h

/-- The exact value of either sign lies at the quotient. -/
theorem Magnitude.coordinate_exact (neg : Bool) (num den : ℕ) :
    (Magnitude.ratio num den).coordinate neg ((if neg then -1 else 1) * ((num : ℚ) / den)) =
      (Magnitude.ratio num den).quotient := by
  unfold coordinate quotient value
  cases neg <;> push_cast <;> simp

theorem Magnitude.coordinate_fpValue (m : Magnitude) (neg : Bool) (a : Word) :
    m.coordinate neg (fpValue a) =
      (if fpSign a = neg then 1 else -1) * ((unitsMagnitude a : ℝ) / 2 ^ m.spacingUnits) := by
  unfold coordinate
  rw [fpValue_eq_units, m.two_zpow_spacing, units]
  cases fpSign a <;> cases neg <;> push_cast <;> simp <;> field_simp

theorem Magnitude.coordinate_eq_of_sign_eq (m : Magnitude) {neg : Bool} {a : Word} (h : fpSign a = neg) :
    m.coordinate neg (fpValue a) = (unitsMagnitude a : ℝ) / 2 ^ m.spacingUnits := by
  rw [coordinate_fpValue, if_pos h, one_mul]

theorem Magnitude.coordinate_le (m : Magnitude) (neg : Bool) (a : Word) :
    m.coordinate neg (fpValue a) ≤ (unitsMagnitude a : ℝ) / 2 ^ m.spacingUnits := by
  rw [coordinate_fpValue]
  have hnonneg : 0 ≤ (unitsMagnitude a : ℝ) / 2 ^ m.spacingUnits := by positivity
  split <;> linarith

section
variable {m : Magnitude} (hm : m.Pos) (neg : Bool)
include hm

theorem Magnitude.quotient_pos : 0 < m.quotient := div_pos (value_pos hm) (by positivity)

theorem Magnitude.floor_quotient_nonneg : 0 ≤ ⌊m.quotient⌋ := Int.floor_nonneg.mpr (quotient_pos hm).le

/-- No number lies strictly between the integers around the quotient. -/
theorem Magnitude.coordinate_gap (a : Word) :
    m.coordinate neg (fpValue a) ≤ ⌊m.quotient⌋ ∨ (⌊m.quotient⌋ : ℝ) + 1 ≤ m.coordinate neg (fpValue a) := by
  obtain ⟨n, hn⟩ := Int.eq_ofNat_of_zero_le (floor_quotient_nonneg hm)
  have hsubnormal (hj : 0 < m.spacingUnits) : 2 ^ 23 ≤ n := by
    have hfloor : 2 ^ 23 ≤ ⌊m.quotient⌋ := Int.le_floor.mpr (by exact_mod_cast le_quotient hm hj)
    omega
  rw [hn, Int.cast_natCast]
  by_cases hsign : fpSign a = neg
  · rw [m.coordinate_eq_of_sign_eq hsign, div_le_iff₀ (by positivity), le_div_iff₀ (by positivity)]
    exact_mod_cast unitsMagnitude_gap a hsubnormal
  · left
    rw [m.coordinate_fpValue, if_neg hsign, neg_one_mul]
    exact le_trans (neg_nonpos.mpr (by positivity)) n.cast_nonneg

/-- Short of overflow the result lies at the integer that the rounding takes. -/
theorem Magnitude.coordinate_roundExact {mode : RoundingMode}
    (h : m.rounded mode neg * 2 ^ m.spacingUnits < 2 ^ 277) :
    m.coordinate neg (fpValue (roundExact mode neg m).1) = m.rounded mode neg := by
  obtain ⟨hsign, -, hunits⟩ := roundExact_of_not_overflow hm h
  rw [m.coordinate_eq_of_sign_eq hsign, hunits, Nat.cast_mul, Nat.cast_pow, Nat.cast_ofNat]
  exact mul_div_cancel_right₀ _ (by positivity)

omit hm in
/-- An overflow is beyond every finite number. -/
theorem Magnitude.coordinate_lt_of_overflow {r : ℕ} (h : 2 ^ 277 ≤ r * 2 ^ m.spacingUnits) {a : Word}
    (ha : isFinite a = true) : m.coordinate neg (fpValue a) < r := by
  refine (m.coordinate_le neg a).trans_lt ?_
  rw [div_lt_iff₀ (by positivity)]
  exact_mod_cast (unitsMagnitude_lt_of_isFinite ha).trans_le h

end

/-! ## The nearest integer -/

theorem RoundedInteger.nearest_cases {mode : RoundingMode} {neg : Prop} {t : ℝ} {r : ℤ}
    (h : RoundedInteger mode neg t r) (hmode : mode = .rne ∨ mode = .rmm) :
    r = ⌊t⌋ ∧ Int.fract t ≤ 1 / 2 ∨ r = ⌊t⌋ + 1 ∧ 1 / 2 ≤ Int.fract t := by
  by_cases hup : RoundsUp mode neg t
  · refine .inr ⟨h.1 hup, ?_⟩
    obtain rfl | rfl := hmode
    · obtain hup | ⟨hup, -⟩ := hup
      · exact hup.le
      · exact hup.ge
    · exact hup
  · refine .inl ⟨h.2 hup, ?_⟩
    obtain rfl | rfl := hmode
    · exact le_of_not_gt fun hlt => hup (.inl hlt)
    · exact le_of_not_ge hup

/-- The integer chosen is as near as one of the two around the exact value can be. -/
theorem RoundedInteger.abs_sub_eq_min {mode : RoundingMode} {neg : Prop} {t : ℝ} {r : ℤ}
    (h : RoundedInteger mode neg t r) (hmode : mode = .rne ∨ mode = .rmm) :
    |(r : ℝ) - t| = min (Int.fract t) (1 - Int.fract t) := by
  have ht := Int.floor_add_fract t
  obtain ⟨rfl, hhalf⟩ | ⟨rfl, hhalf⟩ := h.nearest_cases hmode
  · rw [min_eq_left (by linarith), abs_sub_comm, Int.self_sub_floor, abs_of_nonneg (Int.fract_nonneg t)]
  · rw [min_eq_right (by linarith), Int.cast_add, Int.cast_one, abs_of_nonneg (by linarith [Int.fract_lt_one t])]
    linarith

/-- Nothing outside the gap is nearer. -/
theorem min_fract_le_abs_sub {t y : ℝ} (hgap : y ≤ ⌊t⌋ ∨ (⌊t⌋ : ℝ) + 1 ≤ y) :
    min (Int.fract t) (1 - Int.fract t) ≤ |y - t| := by
  have ht := Int.floor_add_fract t
  obtain hy | hy := hgap
  · exact min_le_of_left_le (le_abs.mpr (.inr (by linarith)))
  · exact min_le_of_right_le (le_abs.mpr (.inl (by linarith)))

/-- What is as near as the integer chosen and is not that integer lies beyond the other one, and the exact value is in
the middle. -/
theorem RoundedInteger.tie_cases {mode : RoundingMode} {neg : Prop} {t y : ℝ} {r : ℤ} (h : RoundedInteger mode neg t r)
    (hmode : mode = .rne ∨ mode = .rmm) (hgap : y ≤ ⌊t⌋ ∨ (⌊t⌋ : ℝ) + 1 ≤ y) (htie : |(r : ℝ) - t| = |y - t|)
    (hne : (r : ℝ) ≠ y) : Int.fract t = 1 / 2 ∧ (r = ⌊t⌋ ∨ y = ⌊t⌋) := by
  have ht := Int.floor_add_fract t
  have hmin := (h.abs_sub_eq_min hmode).symm.trans htie
  have hfract := Int.fract_nonneg t
  have hfract' := Int.fract_lt_one t
  obtain ⟨rfl, hhalf⟩ | ⟨rfl, hhalf⟩ := h.nearest_cases hmode
  · rw [min_eq_left (by linarith)] at hmin
    obtain hy | hy := hgap
    · rw [abs_of_nonpos (by linarith)] at hmin
      exact absurd (show (⌊t⌋ : ℝ) = y by linarith) hne
    · rw [abs_of_nonneg (by linarith)] at hmin
      exact ⟨by linarith, .inl rfl⟩
  · rw [min_eq_right (by linarith)] at hmin
    obtain hy | hy := hgap
    · rw [abs_of_nonpos (by linarith)] at hmin
      exact ⟨by linarith, .inr (by linarith)⟩
    · rw [abs_of_nonneg (by linarith)] at hmin
      exact absurd (show ((⌊t⌋ + 1 : ℤ) : ℝ) = y by push_cast; linarith) hne

theorem RoundedInteger.even_of_tie {neg : Prop} {t : ℝ} {r : ℤ} (h : RoundedInteger .rne neg t r)
    (ht : Int.fract t = 1 / 2) : r % 2 = 0 := by
  by_cases hodd : ⌊t⌋ % 2 = 1
  · have hr := h.1 (.inr ⟨ht, hodd⟩)
    omega
  · have hr := h.2 fun hup => hup.elim (fun hlt => hlt.ne' ht) fun hup => hodd hup.2
    omega

theorem RoundedInteger.away_of_tie {neg : Prop} {t : ℝ} {r : ℤ} (h : RoundedInteger .rmm neg t r)
    (ht : Int.fract t = 1 / 2) : r = ⌊t⌋ + 1 := h.1 ht.ge

/-! ## Rounding to nearest -/

/-- The least significant bit of a number is that of its integer `r`. -/
theorem getLsbD_zero_packNumber (neg : Bool) (r : ℕ) (k : ℤ) : (packNumber neg r k).getLsbD 0 = decide (r % 2 = 1) := by
  unfold packNumber
  rw [BitVec.getLsbD_append, if_pos (by decide), BitVec.getLsbD_ofNat, Nat.testBit_zero]
  simp only [Nat.zero_lt_succ, decide_true, Bool.true_and, decide_eq_decide]
  omega

theorem isFinite_overflowResult {mode : RoundingMode} (hmode : mode = .rne ∨ mode = .rmm) (neg : Bool) :
    isFinite (overflowResult mode neg) = false := by
  obtain rfl | rfl := hmode <;> cases neg <;> rfl

section
variable {m : Magnitude} (hm : m.Pos) {mode : RoundingMode} {neg : Bool}

/-- A finite result of rounding to nearest is no overflow. -/
theorem not_overflow_of_nearest (hmode : mode = .rne ∨ mode = .rmm) (h : isFinite (roundExact mode neg m).1 = true) :
    m.rounded mode neg * 2 ^ m.spacingUnits < 2 ^ 277 := by
  by_contra hover
  rw [roundExact_of_overflow (Nat.le_of_not_lt hover), isFinite_overflowResult hmode] at h
  exact Bool.false_ne_true h

variable {v : ℚ} (hv : m.coordinate neg v = m.quotient)
include hm hv

theorem roundExact_nearest (hmode : mode = .rne ∨ mode = .rmm) (h : isFinite (roundExact mode neg m).1 = true)
    (w : Word) : |fpValue (roundExact mode neg m).1 - v| ≤ |fpValue w - v| := by
  have hr := m.rounded_spec hm mode neg
  have hle := (hr.abs_sub_eq_min hmode).trans_le (min_fract_le_abs_sub (m.coordinate_gap hm neg w))
  rw [Int.cast_natCast, ← m.coordinate_roundExact hm neg (not_overflow_of_nearest hmode h), ← hv, m.abs_coordinate_sub,
    m.abs_coordinate_sub, div_le_div_iff_of_pos_right (by positivity)] at hle
  exact_mod_cast hle

/-- A tie with another number: the exact value is in the middle between the integer chosen and the other number. -/
theorem roundExact_tie (hmode : mode = .rne ∨ mode = .rmm) (h : isFinite (roundExact mode neg m).1 = true) {w : Word}
    (htie : |fpValue (roundExact mode neg m).1 - v| = |fpValue w - v|)
    (hne : fpValue (roundExact mode neg m).1 ≠ fpValue w) :
    Int.fract m.quotient = 1 / 2 ∧
      ((m.rounded mode neg : ℤ) = ⌊m.quotient⌋ ∨ m.coordinate neg (fpValue w) = ⌊m.quotient⌋) := by
  have hresult := m.coordinate_roundExact hm neg (not_overflow_of_nearest hmode h)
  refine (m.rounded_spec hm mode neg).tie_cases hmode (m.coordinate_gap hm neg w) ?_ ?_
  · rw [Int.cast_natCast, ← hresult, ← hv, m.abs_coordinate_sub, m.abs_coordinate_sub, htie]
  · rwa [Int.cast_natCast, ← hresult, Ne, m.coordinate_inj]

theorem roundExact_rne_even {w : Word} (h : isFinite (roundExact .rne neg m).1 = true)
    (htie : |fpValue (roundExact .rne neg m).1 - v| = |fpValue w - v|)
    (hne : fpValue (roundExact .rne neg m).1 ≠ fpValue w) : (roundExact .rne neg m).1.getLsbD 0 = false := by
  have hfits := not_overflow_of_nearest (.inl rfl) h
  have heven := (m.rounded_spec hm .rne neg).even_of_tie (roundExact_tie hm hv (.inl rfl) h htie hne).1
  rw [roundExact_eq, if_neg (Nat.not_le.mpr hfits), getLsbD_zero_packNumber, decide_eq_false_iff_not]
  omega

theorem roundExact_rmm_away {w : Word} (h : isFinite (roundExact .rmm neg m).1 = true)
    (htie : |fpValue (roundExact .rmm neg m).1 - v| = |fpValue w - v|) :
    |fpValue w| ≤ |fpValue (roundExact .rmm neg m).1| := by
  by_cases hne : fpValue (roundExact .rmm neg m).1 = fpValue w
  · rw [hne]
  obtain ⟨hfract, hcases⟩ := roundExact_tie hm hv (.inr rfl) h htie hne
  have hup := (m.rounded_spec hm .rmm neg).away_of_tie hfract
  have hw : m.coordinate neg (fpValue w) = ⌊m.quotient⌋ := hcases.resolve_left (by omega)
  have hfloor := m.floor_quotient_nonneg hm
  have hle : |m.coordinate neg (fpValue w)| ≤ |m.coordinate neg (fpValue (roundExact .rmm neg m).1)| := by
    rw [m.coordinate_roundExact hm neg (not_overflow_of_nearest (.inr rfl) h), hw, Nat.abs_cast,
      abs_of_nonneg (by exact_mod_cast hfloor)]
    exact_mod_cast show ⌊m.quotient⌋ ≤ m.rounded .rmm neg by omega
  rw [m.abs_coordinate, m.abs_coordinate, div_le_div_iff_of_pos_right (by positivity)] at hle
  exact_mod_cast hle

end

/-- Settles O52: the nearer of the two integers around the quotient is nearer than anything outside the gap, and only a
tie in the middle has a second nearest number. -/
theorem nearestRoundingIsNearest : Obligations.NearestRoundingIsNearest := by
  intro num den neg w hnum hden _ v even away
  have hm : (Magnitude.ratio num den).Pos := ⟨hnum, hden⟩
  have hv := Magnitude.coordinate_exact neg num den
  exact ⟨fun h => ⟨roundExact_nearest hm hv (.inl rfl) h w, roundExact_rne_even hm hv h⟩,
    fun h => ⟨roundExact_nearest hm hv (.inr rfl) h w, roundExact_rmm_away hm hv h⟩⟩

/-! ## The directed modes -/

/-- The directed mode that rounds a value of this sign toward zero. -/
def inwardMode (neg : Bool) : RoundingMode := if neg then .rup else .rdn

/-- The directed mode that rounds a value of this sign away from zero. -/
def outwardMode (neg : Bool) : RoundingMode := if neg then .rdn else .rup

theorem overflowResult_inwardMode (neg : Bool) : overflowResult (inwardMode neg) neg = largestOf neg := by
  cases neg <;> rfl

theorem overflowResult_outwardMode (neg : Bool) : overflowResult (outwardMode neg) neg = infinityOf neg := by
  cases neg <;> rfl

/-- RTZ rounds as the directed mode toward zero does. -/
theorem roundExact_rtz (neg : Bool) (m : Magnitude) :
    (roundExact .rtz neg m).1 = (roundExact (inwardMode neg) neg m).1 := by
  have hinteger : m.rounded .rtz neg = m.rounded (inwardMode neg) neg := by cases neg <;> rfl
  rw [roundExact_eq, roundExact_eq, hinteger, overflowResult_inwardMode]
  split <;> rfl

theorem RoundedInteger.eq_floor_of_inward {neg : Bool} {t : ℝ} {r : ℤ}
    (h : RoundedInteger (inwardMode neg) (neg = true) t r) : r = ⌊t⌋ := by
  refine h.2 fun hup => ?_
  cases neg
  · exact Bool.false_ne_true hup.1
  · exact hup.1 rfl

theorem RoundedInteger.eq_ceil_of_outward {neg : Bool} {t : ℝ} {r : ℤ}
    (h : RoundedInteger (outwardMode neg) (neg = true) t r) : r = ⌈t⌉ := by
  have hup : RoundsUp (outwardMode neg) (neg = true) t ↔ Int.fract t ≠ 0 := by
    cases neg <;> simp [outwardMode, RoundsUp]
  have ht := Int.floor_add_fract t
  by_cases hfract : Int.fract t = 0
  · rw [h.eq_floor_of_fract_eq_zero hfract, eq_comm, Int.ceil_eq_iff]
    constructor <;> linarith
  · rw [h.1 (hup.mpr hfract), eq_comm, Int.ceil_eq_iff]
    have hpos := lt_of_le_of_ne (Int.fract_nonneg t) (Ne.symm hfract)
    have hlt := Int.fract_lt_one t
    push_cast
    constructor <;> linarith

theorem le_floor_of_gap {t y : ℝ} (hgap : y ≤ ⌊t⌋ ∨ (⌊t⌋ : ℝ) + 1 ≤ y) (h : y ≤ t) : y ≤ ⌊t⌋ :=
  hgap.resolve_right fun hle => absurd (Int.lt_floor_add_one t) (not_lt_of_ge (hle.trans h))

theorem ceil_le_of_gap {t y : ℝ} (hgap : y ≤ ⌊t⌋ ∨ (⌊t⌋ : ℝ) + 1 ≤ y) (h : t ≤ y) : (⌈t⌉ : ℝ) ≤ y := by
  obtain hle | hle := hgap
  · have hceil : (⌈t⌉ : ℝ) ≤ ⌊t⌋ := by exact_mod_cast Int.ceil_le.mpr (h.trans hle)
    exact hceil.trans ((Int.floor_le t).trans h)
  · exact le_trans (by exact_mod_cast Int.ceil_le_floor_add_one t) hle

section
variable {m : Magnitude} (hm : m.Pos) (neg : Bool) {w : Word} (hw : isFinite w = true)
include hw

theorem Magnitude.coordinate_le_largest :
    m.coordinate neg (fpValue w) ≤ m.coordinate neg (fpValue (largestOf neg)) := by
  have hsign : fpSign (largestOf neg) = neg := by cases neg <;> rfl
  rw [m.coordinate_eq_of_sign_eq hsign, unitsMagnitude_largestOf]
  refine (m.coordinate_le neg w).trans ?_
  gcongr
  exact unitsMagnitude_le_of_isFinite hw

include hm

/-- Rounding toward zero gives the largest finite magnitude that is not above the exact one. -/
theorem roundExact_inward :
    isFinite (roundExact (inwardMode neg) neg m).1 = true ∧
      m.coordinate neg (fpValue (roundExact (inwardMode neg) neg m).1) ≤ m.quotient ∧
      (m.coordinate neg (fpValue w) ≤ m.quotient →
        m.coordinate neg (fpValue w) ≤ m.coordinate neg (fpValue (roundExact (inwardMode neg) neg m).1)) := by
  have hr := (m.rounded_spec hm (inwardMode neg) neg).eq_floor_of_inward
  have hr' : (m.rounded (inwardMode neg) neg : ℝ) = ⌊m.quotient⌋ := by rw [← hr, Int.cast_natCast]
  rcases Nat.lt_or_ge (m.rounded (inwardMode neg) neg * 2 ^ m.spacingUnits) (2 ^ 277) with hfits | hover
  · rw [m.coordinate_roundExact hm neg hfits, hr']
    exact ⟨(roundExact_of_not_overflow hm hfits).2.1, Int.floor_le _, le_floor_of_gap (m.coordinate_gap hm neg w)⟩
  · have hfinite : isFinite (largestOf neg) = true := by cases neg <;> rfl
    rw [roundExact_of_overflow hover, overflowResult_inwardMode]
    refine ⟨hfinite, ?_, fun _ => m.coordinate_le_largest neg hw⟩
    exact (m.coordinate_lt_of_overflow neg hover hfinite).le.trans (hr'.trans_le (Int.floor_le _))

/-- Rounding away from zero gives the smallest finite magnitude that is not below the exact one, and the infinity when
every finite magnitude is below it. -/
theorem roundExact_outward :
    (isFinite (roundExact (outwardMode neg) neg m).1 = true →
        m.quotient ≤ m.coordinate neg (fpValue (roundExact (outwardMode neg) neg m).1) ∧
        (m.quotient ≤ m.coordinate neg (fpValue w) →
          m.coordinate neg (fpValue (roundExact (outwardMode neg) neg m).1) ≤ m.coordinate neg (fpValue w))) ∧
      (¬isFinite (roundExact (outwardMode neg) neg m).1 = true →
        (roundExact (outwardMode neg) neg m).1 = infinityOf neg ∧ m.coordinate neg (fpValue w) < m.quotient) := by
  have hr := (m.rounded_spec hm (outwardMode neg) neg).eq_ceil_of_outward
  have hr' : (m.rounded (outwardMode neg) neg : ℝ) = ⌈m.quotient⌉ := by rw [← hr, Int.cast_natCast]
  rcases Nat.lt_or_ge (m.rounded (outwardMode neg) neg * 2 ^ m.spacingUnits) (2 ^ 277) with hfits | hover
  · rw [m.coordinate_roundExact hm neg hfits, hr']
    exact ⟨fun _ => ⟨Int.le_ceil _, ceil_le_of_gap (m.coordinate_gap hm neg w)⟩,
      fun h => absurd (roundExact_of_not_overflow hm hfits).2.1 h⟩
  · have hinfinite : isFinite (infinityOf neg) = false := by cases neg <;> rfl
    rw [roundExact_of_overflow hover, overflowResult_outwardMode, hinfinite]
    refine ⟨nofun, fun _ => ⟨rfl, lt_of_not_ge fun hle => ?_⟩⟩
    have hbelow := hr' ▸ m.coordinate_lt_of_overflow neg hover hw
    exact absurd (ceil_le_of_gap (m.coordinate_gap hm neg w) hle) (not_le_of_gt hbelow)

end

/-- Settles O53: RDN rounds toward zero above zero and away from it below, and RUP the other way round. -/
theorem directedRoundingIsTightest : Obligations.DirectedRoundingIsTightest := by
  intro num den neg w hnum hden hw v down up
  have hm : (Magnitude.ratio num den).Pos := ⟨hnum, hden⟩
  obtain ⟨hfinite, hin⟩ := roundExact_inward hm neg hw
  obtain ⟨hout, hover⟩ := roundExact_outward hm neg hw
  have hrtz := roundExact_rtz neg (.ratio num den)
  simp only [← Magnitude.coordinate_exact neg num den, Magnitude.coordinate_le_iff, Magnitude.coordinate_lt_iff]
    at hin hout hover
  cases neg with
  | false => exact ⟨fun _ => hin, fun h => absurd hfinite h, hout, hover, hrtz⟩
  | true => exact ⟨hout, hover, fun _ => hin, fun h => absurd hfinite h, hrtz⟩

end Sys2Proof.Machine

/-! Classes of patterns, and their values in units of `2^-149`, for the statements from 45_float_arith.md (R310). -/

namespace Sys2Proof.Machine

open Sys2Proof

/-! ## Classes -/

section
variable {a : Word}

theorem isNaN_iff : isNaN a = true ↔ fpExponent a = 255 ∧ fpFraction a ≠ 0 := by simp [isNaN]

theorem isInf_iff : isInf a = true ↔ fpExponent a = 255 ∧ fpFraction a = 0 := by simp [isInf]

theorem isZero_iff : isZero a = true ↔ fpExponent a = 0 ∧ fpFraction a = 0 := by simp [isZero]

theorem isFinite_iff : isFinite a = true ↔ fpExponent a ≠ 255 := by simp [isFinite]

theorem isFinite_of_isZero (h : isZero a = true) : isFinite a = true := by
  rw [isZero_iff] at h
  rw [isFinite_iff, h.1]
  decide

/-- A finite number is neither a NaN nor an infinity. -/
theorem classes_of_isFinite (h : isFinite a = true) : isNaN a = false ∧ isInf a = false := by
  rw [isFinite_iff] at h
  rw [← Bool.not_eq_true, ← Bool.not_eq_true, isNaN_iff, isInf_iff]
  exact ⟨fun hnan => h hnan.1, fun hinf => h hinf.1⟩

theorem classes_of_isZero (h : isZero a = true) : isNaN a = false ∧ isInf a = false :=
  classes_of_isFinite (isFinite_of_isZero h)

/-- An infinity is not a NaN, finite or zero. -/
theorem classes_of_isInf (h : isInf a = true) : isNaN a = false ∧ isFinite a = false ∧ isZero a = false := by
  have hinf := isInf_iff.mp h
  simp only [← Bool.not_eq_true, isNaN_iff, isFinite_iff, isZero_iff]
  omega

/-- A NaN is not an infinity, finite or zero. -/
theorem classes_of_isNaN (h : isNaN a = true) : isInf a = false ∧ isFinite a = false ∧ isZero a = false := by
  have hnan := isNaN_iff.mp h
  simp only [← Bool.not_eq_true, isInf_iff, isFinite_iff, isZero_iff]
  omega

theorem isInf_or_isFinite (h : isNaN a = false) : isInf a = true ∨ isFinite a = true := by
  simp only [← Bool.not_eq_true, isNaN_iff] at h
  rw [isInf_iff, isFinite_iff]
  omega

end

/-! ## Patterns from their fields -/

/-- A pattern as a number: its sign, exponent and fraction (45_float_arith.md R310). -/
theorem toNat_eq_fields (a : Word) :
    a.toNat = (if fpSign a then 2 ^ 31 else 0) + fpExponent a * 2 ^ 23 + fpFraction a := by
  have hlt := a.isLt
  unfold fpSign fpExponent fpFraction
  rw [BitVec.msb_eq_decide, BitVec.extractLsb'_toNat, BitVec.extractLsb'_toNat, Nat.shiftRight_eq_div_pow,
    Nat.shiftRight_zero]
  simp only [decide_eq_true_eq]
  split <;> omega

theorem eq_of_fields_eq {a b : Word} (hsign : fpSign a = fpSign b) (hexponent : fpExponent a = fpExponent b)
    (hfraction : fpFraction a = fpFraction b) : a = b := by
  apply BitVec.eq_of_toNat_eq
  rw [toNat_eq_fields, toNat_eq_fields, hsign, hexponent, hfraction]

theorem isInf_infinityOf (neg : Bool) : isInf (infinityOf neg) = true := by cases neg <;> rfl

theorem isZero_zeroOf (neg : Bool) : isZero (zeroOf neg) = true := by cases neg <;> rfl

@[simp] theorem fpSign_infinityOf (neg : Bool) : fpSign (infinityOf neg) = neg := by cases neg <;> rfl

@[simp] theorem fpSign_zeroOf (neg : Bool) : fpSign (zeroOf neg) = neg := by cases neg <;> rfl

theorem eq_infinityOf {a : Word} (h : isInf a = true) : a = infinityOf (fpSign a) := by
  have ha := isInf_iff.mp h
  have hinf := isInf_iff.mp (isInf_infinityOf (fpSign a))
  exact eq_of_fields_eq (by simp) (ha.1.trans hinf.1.symm) (ha.2.trans hinf.2.symm)

theorem eq_zeroOf {a : Word} (h : isZero a = true) : a = zeroOf (fpSign a) := by
  have ha := isZero_iff.mp h
  have hzero := isZero_iff.mp (isZero_zeroOf (fpSign a))
  exact eq_of_fields_eq (by simp) (ha.1.trans hzero.1.symm) (ha.2.trans hzero.2.symm)

theorem eq_infinityOf_iff {a : Word} {neg : Bool} : a = infinityOf neg ↔ isInf a = true ∧ fpSign a = neg := by
  constructor
  · rintro rfl
    exact ⟨isInf_infinityOf neg, fpSign_infinityOf neg⟩
  · rintro ⟨hinf, rfl⟩
    exact eq_infinityOf hinf

theorem eq_zeroOf_iff {a : Word} {neg : Bool} : a = zeroOf neg ↔ isZero a = true ∧ fpSign a = neg := by
  constructor
  · rintro rfl
    exact ⟨isZero_zeroOf neg, fpSign_zeroOf neg⟩
  · rintro ⟨hzero, rfl⟩
    exact eq_zeroOf hzero

/-! ## Units -/

theorem unitsMagnitude_eq_zero_iff {a : Word} : unitsMagnitude a = 0 ↔ isZero a = true := by
  rw [isZero_iff]
  unfold unitsMagnitude
  split
  next he => simp [he]
  next he => simp [he]

theorem unitsMagnitude_pos {a : Word} (h : isZero a = false) : 0 < unitsMagnitude a := by
  rw [Nat.pos_iff_ne_zero, Ne, unitsMagnitude_eq_zero_iff, h]
  exact Bool.false_ne_true

theorem natAbs_units (a : Word) : (units a).natAbs = unitsMagnitude a := by
  unfold units
  split <;> simp

theorem units_eq_zero_iff {a : Word} : units a = 0 ↔ isZero a = true := by
  rw [← Int.natAbs_eq_zero, natAbs_units, unitsMagnitude_eq_zero_iff]

theorem units_ne_zero {a : Word} (h : isZero a = false) : units a ≠ 0 := by
  rw [Ne, units_eq_zero_iff, h]
  exact Bool.false_ne_true

theorem units_neg_iff {a : Word} (h : isZero a = false) : units a < 0 ↔ fpSign a = true := by
  have hpos := unitsMagnitude_pos h
  unfold units
  cases fpSign a
  · simp
  · simpa using hpos

theorem units_pos_iff {a : Word} (h : isZero a = false) : 0 < units a ↔ fpSign a = false := by
  rw [← Bool.not_eq_true, ← units_neg_iff h, not_lt]
  exact ⟨le_of_lt, fun hle => hle.lt_of_ne' (units_ne_zero h)⟩

/-- An infinity counts as more units than any finite number. -/
theorem unitsMagnitude_of_isInf {a : Word} (h : isInf a = true) : unitsMagnitude a = 2 ^ 277 := by
  rw [isInf_iff] at h
  unfold unitsMagnitude
  rw [h.1, h.2, if_neg (by decide), add_zero, ← pow_add]

theorem units_of_isInf {a : Word} (h : isInf a = true) : units a = if fpSign a then -2 ^ 277 else 2 ^ 277 := by
  unfold units
  rw [unitsMagnitude_of_isInf h, Nat.cast_pow, Nat.cast_ofNat]

theorem units_bounds_of_isFinite {a : Word} (h : isFinite a = true) : -2 ^ 277 < units a ∧ units a < 2 ^ 277 := by
  have hlt := unitsMagnitude_lt_of_isFinite h
  rw [← natAbs_units] at hlt
  rw [← abs_lt, Int.abs_eq_natAbs]
  exact_mod_cast hlt

theorem fpValue_lt_iff {a b : Word} : fpValue a < fpValue b ↔ units a < units b := by
  rw [fpValue_eq_units, fpValue_eq_units, div_lt_div_iff_of_pos_right (by positivity), Int.cast_lt]

theorem fpValue_eq_zero_iff {a : Word} : fpValue a = 0 ↔ isZero a = true := by
  rw [fpValue_eq_units, div_eq_zero_iff, or_iff_left (by positivity), Int.cast_eq_zero, units_eq_zero_iff]

theorem fpValue_add (a b : Word) : fpValue a + fpValue b = ((units a + units b : ℤ) : ℚ) / 2 ^ 149 := by
  rw [fpValue_eq_units, fpValue_eq_units, Int.cast_add, add_div]

theorem fpValue_mul (a b : Word) : fpValue a * fpValue b = ((units a * units b : ℤ) : ℚ) / 2 ^ 298 := by
  rw [fpValue_eq_units, fpValue_eq_units, Int.cast_mul, div_mul_div_comm, ← pow_add]

theorem fpValue_mul_add (a b c : Word) :
    fpValue a * fpValue b + fpValue c = ((units a * units b + units c * 2 ^ 149 : ℤ) : ℚ) / 2 ^ 298 := by
  rw [fpValue_mul, fpValue_eq_units c, Int.cast_add, add_div, Int.cast_mul (units c), Int.cast_pow, Int.cast_ofNat,
    show 298 = 149 + 149 from rfl, pow_add, mul_div_mul_right _ _ (by positivity)]

/-- The order of two patterns that are no NaN is that of their units, in which an infinity is beyond every finite
number. -/
theorem fpLess_iff {a b : Word} (ha : isNaN a = false) (hb : isNaN b = false) :
    FpLess a b ↔ units a < units b := by
  have hpos : (0 : ℤ) < 2 ^ 277 := by positivity
  have hbeyond := @units_of_isInf
  have hbounds := @units_bounds_of_isFinite
  generalize (2 : ℤ) ^ 277 = top at hpos hbeyond hbounds
  unfold FpLess
  simp only [eq_infinityOf_iff, Ne, fpValue_lt_iff]
  obtain hinfa | hfina := isInf_or_isFinite ha <;> obtain hinfb | hfinb := isInf_or_isFinite hb
  · rw [hbeyond hinfa, hbeyond hinfb]
    cases fpSign a <;> cases fpSign b <;> simp [hinfa, hinfb, (classes_of_isInf hinfa).2.1, hpos, hpos.le]
  · obtain ⟨hlow, hhigh⟩ := hbounds hfinb
    rw [hbeyond hinfa]
    cases fpSign a <;>
      simp [hinfa, (classes_of_isInf hinfa).2.1, (classes_of_isFinite hfinb).2, hlow, hhigh.le]
  · obtain ⟨hlow, hhigh⟩ := hbounds hfina
    rw [hbeyond hinfb]
    cases fpSign b <;>
      simp [hinfb, (classes_of_isInf hinfb).2.1, (classes_of_isFinite hfina).2, hlow.le, hhigh]
  · simp [hfina, hfinb, (classes_of_isFinite hfina).2, (classes_of_isFinite hfinb).2]

end Sys2Proof.Machine

/-! Proofs of the statements from 45_float_arith.md about the operations on numbers: addition (R316), multiplication
(R317), division (R318), the square root (R319) and fused multiply-add (R320), the canonical NaN (R313) and the table of
flags (R314). -/

namespace Sys2Proof.Machine

open Sys2Proof

/-! ## Rounding of exact results -/

/-- Rounding a whole number of units of `2^-scale` is rounding its value. -/
theorem roundUnits_rounds (mode : RoundingMode) {n : ℤ} (hn : n ≠ 0) (scale : ℕ) :
    Rounds mode ((((n : ℚ) / 2 ^ scale : ℚ)) : ℝ) (roundUnits mode n scale) := by
  have hm : (Magnitude.ratio n.natAbs (2 ^ scale)).Pos := ⟨Int.natAbs_pos.mpr hn, by positivity⟩
  refine roundExact_rounds hm mode ?_ ?_
  · rw [← Rat.cast_abs, abs_div, abs_of_pos (show (0 : ℚ) < 2 ^ scale by positivity), ← Int.cast_abs, Int.abs_eq_natAbs]
    simp [Magnitude.value]
  · rw [Rat.cast_lt_zero, div_neg_iff, decide_eq_true_eq]
    simp [show (0 : ℚ) < 2 ^ scale by positivity, not_lt_of_gt (show (0 : ℚ) < 2 ^ scale by positivity)]

/-! ## Special results -/

theorem nanResult_eq {signaling : Bool} {c : Prop} [Decidable c] (h : signaling = true ↔ c) :
    nanResult signaling = (0x7FC00000#32, if c then flagNV else noFlags) := by
  unfold nanResult flagIf
  simp only [h]
  rfl

/-- The sign of an exact zero sum, with `z` one of two zeros that agree in sign (45_float_arith.md R316, R320). -/
theorem zeroSum_eq (mode : RoundingMode) {bothZero negA negB : Bool} {z : Word} (hz : bothZero = true → isZero z = true)
    (hsign : fpSign z = negA ∨ fpSign z = negB) :
    zeroSum mode bothZero negA negB =
      if bothZero = true ∧ negA = negB then z else if mode = .rdn then 0x80000000#32 else 0x00000000#32 := by
  unfold zeroSum
  simp only [Bool.and_eq_true, beq_iff_eq]
  split
  next h =>
    obtain ⟨hboth, rfl⟩ := h
    rw [eq_zeroOf (hz hboth), or_self_iff.mp hsign]
  next => cases mode <;> rfl

/-! ## Addition -/

section
variable {a b : Word} (mode : RoundingMode)

theorem fadd_of_isNaN (h : isNaN a = true ∨ isNaN b = true) :
    fadd a b mode = (0x7FC00000#32, if isSNaN a = true ∨ isSNaN b = true then flagNV else noFlags) := by
  rw [fadd, if_pos (Bool.or_eq_true_iff.mpr h), nanResult_eq Bool.or_eq_true_iff]

theorem fadd_of_opposite_infinities (ha : isInf a = true) (hb : isInf b = true) (hsign : fpSign a ≠ fpSign b) :
    fadd a b mode = (0x7FC00000#32, flagNV) := by
  simp [fadd, classes_of_isInf ha, classes_of_isInf hb, ha, hb, hsign, invalidResult, canonicalNaN]

theorem fadd_of_isInf_left (ha : isInf a = true) (hb : isNaN b = false) (hsign : isInf b = true → fpSign a = fpSign b) :
    fadd a b mode = (a, noFlags) := by
  simp only [fadd, classes_of_isInf ha, hb, ha, Bool.or_false, Bool.false_eq_true, if_false, if_true, Bool.true_and]
  rw [if_neg]
  simpa using hsign

theorem fadd_of_isInf_right (ha : isFinite a = true) (hb : isInf b = true) : fadd a b mode = (b, noFlags) := by
  simp [fadd, classes_of_isFinite ha, classes_of_isInf hb, hb]

theorem fadd_of_isFinite (ha : isFinite a = true) (hb : isFinite b = true) :
    fadd a b mode =
      if units a + units b = 0 then (zeroSum mode (isZero a && isZero b) (fpSign a) (fpSign b), noFlags)
      else roundUnits mode (units a + units b) 149 := by
  simp [fadd, classes_of_isFinite ha, classes_of_isFinite hb]

end

/-- Settles O54, case by case; the exact sum is a whole number of units, and it is rounded as one. -/
theorem additionFollowsItsRule : Obligations.AdditionFollowsItsRule := by
  intro a b mode
  refine ⟨rfl, fadd_of_isNaN mode, fadd_of_opposite_infinities mode, fun ha hb h => ?left, fun hb ha h => ?right,
    fun ha hb hsum => ?rounded, fun ha hb hsum => ?zero⟩
  case left =>
    exact fadd_of_isInf_left mode ha (Bool.eq_false_iff.mpr hb) fun hinf => not_not.mp fun hs => h ⟨hinf, hs⟩
  case right =>
    obtain hinf | hfinite := isInf_or_isFinite (Bool.eq_false_iff.mpr ha)
    · have hsign : fpSign a = fpSign b := not_not.mp fun hs => h ⟨hinf, hs⟩
      rw [fadd_of_isInf_left mode hinf (classes_of_isInf hb).1 fun _ => hsign, eq_infinityOf hinf, hsign,
        ← eq_infinityOf hb]
    · exact fadd_of_isInf_right mode hfinite hb
  case rounded =>
    rw [fpValue_add] at hsum ⊢
    have hunits : units a + units b ≠ 0 := fun h => hsum (by rw [h, Int.cast_zero, zero_div])
    rw [fadd_of_isFinite mode ha hb, if_neg hunits]
    exact roundUnits_rounds mode hunits 149
  case zero =>
    have hunits : units a + units b = 0 := by
      rwa [fpValue_add, div_eq_zero_iff, or_iff_left (by positivity), Int.cast_eq_zero] at hsum
    rw [fadd_of_isFinite mode ha hb, if_pos hunits,
      zeroSum_eq mode (z := a) (fun h => (Bool.and_eq_true _ _ ▸ h).1) (.inl rfl)]
    simp only [Bool.and_eq_true, and_assoc]

/-! ## Multiplication -/

/-- Zero times infinity, the product that has no value (45_float_arith.md R317, R320). -/
def invalidProduct (a b : Word) : Bool := (isZero a && isInf b) || (isInf a && isZero b)

section
variable {a b : Word}

theorem invalidProduct_iff :
    invalidProduct a b = true ↔ (isZero a = true ∧ isInf b = true) ∨ (isInf a = true ∧ isZero b = true) := by
  simp only [invalidProduct, Bool.or_eq_true, Bool.and_eq_true]

theorem invalidProduct_of_isNaN (h : isNaN a = true ∨ isNaN b = true) : invalidProduct a b = false := by
  obtain h | h := h <;> simp [invalidProduct, classes_of_isNaN h]

theorem invalidProduct_of_isFinite (ha : isFinite a = true) (hb : isFinite b = true) : invalidProduct a b = false := by
  simp [invalidProduct, classes_of_isFinite ha, classes_of_isFinite hb]

/-- An infinity and a factor that is neither zero nor a NaN. -/
theorem invalidProduct_of_isInf_left (ha : isInf a = true) (hb : isZero b = false) : invalidProduct a b = false := by
  simp [invalidProduct, classes_of_isInf ha, hb]

theorem invalidProduct_of_isInf_right (hb : isInf b = true) (ha : isZero a = false) : invalidProduct a b = false := by
  simp [invalidProduct, classes_of_isInf hb, ha]

variable (mode : RoundingMode)

/-- `fmul` as a list of cases. -/
theorem fmul_eq (a b : Word) :
    fmul a b mode =
      if invalidProduct a b then invalidResult
      else if isNaN a || isNaN b then nanResult (isSNaN a || isSNaN b)
      else if isInf a || isInf b then (infinityOf (fpSign a != fpSign b), noFlags)
      else if isZero a || isZero b then (zeroOf (fpSign a != fpSign b), noFlags)
      else roundUnits mode (units a * units b) 298 := rfl

theorem fmul_of_infinite (hvalid : invalidProduct a b = false) (ha : isNaN a = false) (hb : isNaN b = false)
    (h : isInf a = true ∨ isInf b = true) : fmul a b mode = (infinityOf (fpSign a != fpSign b), noFlags) := by
  rw [fmul_eq, hvalid, ha, hb]
  exact if_pos (Bool.or_eq_true_iff.mpr h)

theorem fmul_of_isFinite (ha : isFinite a = true) (hb : isFinite b = true) :
    fmul a b mode =
      if isZero a || isZero b then (zeroOf (fpSign a != fpSign b), noFlags)
      else roundUnits mode (units a * units b) 298 := by
  simp [fmul_eq, invalidProduct_of_isFinite ha hb, classes_of_isFinite ha, classes_of_isFinite hb]

end

/-- Settles O55, case by case; the exact product is a whole number of units of `2^-298`. -/
theorem multiplicationFollowsItsRule : Obligations.MultiplicationFollowsItsRule := by
  intro a b mode sign
  refine ⟨fun h => ?invalid, fun h => ?nan, fun h => ?infinite, fun ha hb h => ?zero, fun ha hb hza hzb => ?rounded⟩
  case invalid => rw [fmul_eq, if_pos (invalidProduct_iff.mpr h)]; rfl
  case nan =>
    rw [fmul_eq, invalidProduct_of_isNaN h, if_neg Bool.false_ne_true, if_pos (Bool.or_eq_true_iff.mpr h),
      nanResult_eq Bool.or_eq_true_iff]
  case infinite =>
    simp only [Bool.not_eq_true] at h
    obtain ⟨ha, hzero, hnan⟩ | ⟨hb, hzero, hnan⟩ := h
    · exact fmul_of_infinite mode (invalidProduct_of_isInf_left ha hzero) (classes_of_isInf ha).1 hnan (.inl ha)
    · exact fmul_of_infinite mode (invalidProduct_of_isInf_right hb hzero) hnan (classes_of_isInf hb).1 (.inr hb)
  case zero => rw [fmul_of_isFinite mode ha hb, if_pos (Bool.or_eq_true_iff.mpr h)]; rfl
  case rounded =>
    rw [Bool.not_eq_true] at hza hzb
    rw [fmul_of_isFinite mode ha hb, if_neg (by simp [hza, hzb]), fpValue_mul]
    exact roundUnits_rounds mode (mul_ne_zero (units_ne_zero hza) (units_ne_zero hzb)) 298

/-! ## Division -/

section
variable {a b : Word} (mode : RoundingMode)

theorem fdiv_of_isNaN (h : isNaN a = true ∨ isNaN b = true) :
    fdiv a b mode = (0x7FC00000#32, if isSNaN a = true ∨ isSNaN b = true then flagNV else noFlags) := by
  rw [fdiv, if_pos (Bool.or_eq_true_iff.mpr h), nanResult_eq Bool.or_eq_true_iff]

theorem fdiv_of_isInf_right (ha : isFinite a = true) (hb : isInf b = true) :
    fdiv a b mode = (zeroOf (fpSign a != fpSign b), noFlags) := by
  simp [fdiv, classes_of_isFinite ha, classes_of_isInf hb, hb]

theorem fdiv_of_isInf_left (ha : isInf a = true) (hb : isFinite b = true) :
    fdiv a b mode = (infinityOf (fpSign a != fpSign b), noFlags) := by
  simp [fdiv, classes_of_isFinite hb, classes_of_isInf ha, ha]

/-- Neither operand is infinite. -/
theorem fdiv_of_isFinite (ha : isFinite a = true) (hb : isFinite b = true) :
    fdiv a b mode =
      if isZero a && isZero b then invalidResult
      else if isZero b then (infinityOf (fpSign a != fpSign b), flagDZ)
      else if isZero a then (zeroOf (fpSign a != fpSign b), noFlags)
      else roundExact mode (fpSign a != fpSign b) (.ratio (unitsMagnitude a) (unitsMagnitude b)) := by
  simp [fdiv, classes_of_isFinite ha, classes_of_isFinite hb]

theorem fdiv_invalid (h : isZero a = true ∧ isZero b = true ∨ isInf a = true ∧ isInf b = true) :
    fdiv a b mode = (0x7FC00000#32, flagNV) := by
  obtain ⟨ha, hb⟩ | ⟨ha, hb⟩ := h
  · rw [fdiv_of_isFinite mode (isFinite_of_isZero ha) (isFinite_of_isZero hb), ha, hb]
    rfl
  · simp [fdiv, classes_of_isInf ha, classes_of_isInf hb, ha, hb, invalidResult, canonicalNaN]

/-- The exact quotient of two non-zero numbers is the quotient of their units. -/
theorem roundExact_quotient_rounds (hza : isZero a = false) (hzb : isZero b = false) :
    Rounds mode ((fpValue a / fpValue b : ℚ) : ℝ)
      (roundExact mode (fpSign a != fpSign b) (.ratio (unitsMagnitude a) (unitsMagnitude b))) := by
  have hm : (Magnitude.ratio (unitsMagnitude a) (unitsMagnitude b)).Pos :=
    ⟨unitsMagnitude_pos hza, unitsMagnitude_pos hzb⟩
  have hquotient : fpValue a / fpValue b = (units a : ℚ) / units b := by
    rw [fpValue_eq_units, fpValue_eq_units, div_div_div_cancel_right₀ (by positivity)]
  rw [hquotient]
  refine roundExact_rounds hm mode ?_ ?_
  · rw [← Rat.cast_abs, abs_div, ← Int.cast_abs, ← Int.cast_abs, Int.abs_eq_natAbs, Int.abs_eq_natAbs, natAbs_units,
      natAbs_units]
    simp [Magnitude.value]
  · rw [Rat.cast_lt_zero, div_neg_iff, Int.cast_pos, Int.cast_pos, Int.cast_lt_zero, Int.cast_lt_zero,
      units_neg_iff hza, units_neg_iff hzb, units_pos_iff hza, units_pos_iff hzb]
    cases fpSign a <;> cases fpSign b <;> decide

end

/-- Settles O56, case by case. -/
theorem divisionFollowsItsRule : Obligations.DivisionFollowsItsRule := by
  intro a b mode sign
  refine ⟨fdiv_of_isNaN mode, fdiv_invalid mode, fdiv_of_isInf_left mode, fdiv_of_isInf_right mode,
    fun ha hza hzb => ?byZero, fun hza hb hzb => ?zero, fun ha hb hza hzb => ?rounded⟩
  case byZero =>
    rw [fdiv_of_isFinite mode ha (isFinite_of_isZero hzb), Bool.eq_false_iff.mpr hza, hzb]
    rfl
  case zero =>
    rw [fdiv_of_isFinite mode (isFinite_of_isZero hza) hb, Bool.eq_false_iff.mpr hzb, hza]
    rfl
  case rounded =>
    rw [Bool.not_eq_true] at hza hzb
    simp only [fdiv_of_isFinite mode ha hb, hza, hzb, Bool.and_false, Bool.false_eq_true, if_false]
    exact roundExact_quotient_rounds mode hza hzb

/-! ## The square root -/

/-- An exact value in the range of the normal numbers below `2^127` can only be inexact. -/
theorem roundExact_flags_of_normal {m : Magnitude} (hm : m.Pos) (mode : RoundingMode) (neg : Bool)
    (hlow : (2 : ℝ) ^ (-126 : ℤ) ≤ m.value) (hhigh : m.value < (2 : ℝ) ^ (127 : ℤ)) :
    (roundExact mode neg m).2 = noFlags ∨ (roundExact mode neg m).2 = flagNX := by
  obtain ⟨hle, hlt⟩ := floorLog2_spec hm
  have hE : -126 < floorLog2 m + 1 := (zpow_lt_zpow_iff_right₀ one_lt_two).mp (hlow.trans_lt hlt)
  have hE' : floorLog2 m < 127 := (zpow_lt_zpow_iff_right₀ one_lt_two).mp (hle.trans_lt hhigh)
  have hj : m.spacingUnits ≤ 252 := by
    unfold Magnitude.spacingUnits Magnitude.spacing
    omega
  have hfits : m.rounded mode neg * 2 ^ m.spacingUnits < 2 ^ 277 := by
    refine (Nat.mul_le_mul_right _ (m.rounded_le hm mode neg)).trans_lt ?_
    rw [← pow_add]
    exact pow_lt_pow_right₀ one_lt_two (by omega)
  have htiny : isTiny mode neg m = false := by
    rw [isTiny, Bool.and_eq_false_iff, decide_eq_false_iff_not]
    exact .inl (by omega)
  rw [roundExact_flags hfits, htiny]
  cases (roundAt mode neg m m.spacing).2
  · exact .inl rfl
  · exact .inr rfl

section
variable {a : Word} (mode : RoundingMode)

theorem fsqrt_of_isNaN (h : isNaN a = true) :
    fsqrt a mode = (0x7FC00000#32, if isSNaN a = true then flagNV else noFlags) := by
  rw [fsqrt, if_pos h, nanResult_eq Iff.rfl]

theorem fsqrt_of_isZero (h : isZero a = true) : fsqrt a mode = (a, noFlags) := by
  simp [fsqrt, classes_of_isZero h, h]

theorem fsqrt_of_negative (hsign : fpSign a = true) (hnan : isNaN a = false) (hzero : isZero a = false) :
    fsqrt a mode = (0x7FC00000#32, flagNV) := by
  simp [fsqrt, hnan, hzero, hsign, invalidResult, canonicalNaN]

theorem fsqrt_of_isInf (h : isInf a = true) (hsign : fpSign a = false) : fsqrt a mode = (a, noFlags) := by
  simp [fsqrt, classes_of_isInf h, h, hsign]

theorem fsqrt_of_positive (ha : isFinite a = true) (hzero : isZero a = false) (hsign : fpSign a = false) :
    fsqrt a mode = roundExact mode false (.root (unitsMagnitude a) (2 ^ 149)) := by
  simp [fsqrt, classes_of_isFinite ha, hzero, hsign]

end

/-- The root of a number lies well within the range of the normal numbers (45_float_arith.md R319). -/
theorem root_units_bounds {n : ℕ} (hpos : 0 < n) (hlt : n < 2 ^ 277) :
    (2 : ℝ) ^ (-126 : ℤ) ≤ (Magnitude.root n (2 ^ 149)).value ∧
      (Magnitude.root n (2 ^ 149)).value < (2 : ℝ) ^ (127 : ℤ) := by
  have hle : (1 : ℝ) ≤ n := by exact_mod_cast hpos
  have hlt' : (n : ℝ) < 2 ^ 277 := by exact_mod_cast hlt
  simp only [Magnitude.value, Nat.cast_pow, Nat.cast_ofNat]
  constructor
  · rw [Real.le_sqrt' (by positivity), le_div_iff₀ (by positivity)]
    exact le_trans (by norm_num) hle
  · rw [Real.sqrt_lt' (by positivity), div_lt_iff₀ (by positivity)]
    refine hlt'.trans_le ?_
    rw [← zpow_natCast (2 ^ (127 : ℤ)), ← zpow_mul, ← zpow_natCast, ← zpow_natCast, ← zpow_add₀ two_ne_zero]
    exact zpow_le_zpow_right₀ one_le_two (by norm_num)

/-- The square root sets NX or NV and no other flag (45_float_arith.md R319). -/
theorem fsqrt_flags (a : Word) (mode : RoundingMode) :
    (fsqrt a mode).2 = noFlags ∨ (fsqrt a mode).2 = flagNX ∨ (fsqrt a mode).2 = flagNV := by
  cases hnan : isNaN a with
  | true =>
    rw [fsqrt_of_isNaN mode hnan]
    cases isSNaN a
    · exact .inl rfl
    · exact .inr (.inr rfl)
  | false =>
    cases hzero : isZero a with
    | true => exact .inl (by rw [fsqrt_of_isZero mode hzero])
    | false =>
      cases hsign : fpSign a with
      | true => exact .inr (.inr (by rw [fsqrt_of_negative mode hsign hnan hzero]))
      | false =>
        obtain hinf | hfinite := isInf_or_isFinite hnan
        · exact .inl (by rw [fsqrt_of_isInf mode hinf hsign])
        · have hpos := unitsMagnitude_pos hzero
          obtain ⟨hlow, hhigh⟩ := root_units_bounds hpos (unitsMagnitude_lt_of_isFinite hfinite)
          rw [fsqrt_of_positive mode hfinite hzero hsign]
          have hm : (Magnitude.root (unitsMagnitude a) (2 ^ 149)).Pos := ⟨hpos, by positivity⟩
          exact (roundExact_flags_of_normal hm mode false hlow hhigh).imp_right .inl

/-- Settles O57: the root of a finite number is far from both ends of the range, so that only NX can come of it. -/
theorem squareRootFollowsItsRule : Obligations.SquareRootFollowsItsRule := by
  intro a mode
  refine ⟨fsqrt_of_isNaN mode, fsqrt_of_isZero mode,
    fun hs hn hz => fsqrt_of_negative mode hs (Bool.eq_false_iff.mpr hn) (Bool.eq_false_iff.mpr hz),
    fun h => fsqrt_of_isInf mode (h ▸ rfl) (h ▸ rfl), fun ha hpos => ?rounded, ?flags⟩
  case rounded =>
    have hzero : isZero a = false := Bool.eq_false_iff.mpr fun h => hpos.ne' (fpValue_eq_zero_iff.mpr h)
    have hsign : fpSign a = false := by
      rwa [fpValue_eq_units, div_pos_iff_of_pos_right (by positivity), Int.cast_pos, units_pos_iff hzero] at hpos
    rw [fsqrt_of_positive mode ha hzero hsign]
    have hm : (Magnitude.root (unitsMagnitude a) (2 ^ 149)).Pos := ⟨unitsMagnitude_pos hzero, by positivity⟩
    refine roundExact_rounds hm mode ?_ ?_
    · rw [abs_of_nonneg (Real.sqrt_nonneg _), ← abs_of_pos hpos, Rat.cast_abs, abs_fpValue_real]
      simp only [Magnitude.value, Nat.cast_pow, Nat.cast_ofNat]
    · simp [Real.sqrt_nonneg]
  case flags =>
    obtain h | h | h := fsqrt_flags a mode <;> rw [h] <;> rfl

/-! ## Fused multiply-add -/

section
variable {a b c : Word} (mode : RoundingMode)

/-- `fma` as a list of cases. -/
theorem fma_eq (a b c : Word) :
    fma a b c mode =
      if invalidProduct a b then invalidResult
      else if isNaN a || isNaN b || isNaN c then nanResult (isSNaN a || isSNaN b || isSNaN c)
      else if isInf a || isInf b then
        if isInf c && fpSign c != (fpSign a != fpSign b) then invalidResult
        else (infinityOf (fpSign a != fpSign b), noFlags)
      else if isInf c then (c, noFlags)
      else if units a * units b + units c * 2 ^ 149 = 0 then
        (zeroSum mode ((isZero a || isZero b) && isZero c) (fpSign a != fpSign b) (fpSign c), noFlags)
      else roundUnits mode (units a * units b + units c * 2 ^ 149) 298 := rfl

theorem fma_of_isFinite (ha : isFinite a = true) (hb : isFinite b = true) (hc : isNaN c = false) :
    fma a b c mode =
      if isInf c then (c, noFlags)
      else if units a * units b + units c * 2 ^ 149 = 0 then
        (zeroSum mode ((isZero a || isZero b) && isZero c) (fpSign a != fpSign b) (fpSign c), noFlags)
      else roundUnits mode (units a * units b + units c * 2 ^ 149) 298 := by
  simp [fma_eq, invalidProduct_of_isFinite ha hb, classes_of_isFinite ha, classes_of_isFinite hb, hc]

end

/-- Settles O58, case by case; `a * b + c` is a whole number of units of `2^-298`. -/
theorem fusedMultiplyAddFollowsItsRule : Obligations.FusedMultiplyAddFollowsItsRule := by
  intro a b c mode sign invalid nan
  have hinvalid : invalid ↔ invalidProduct a b = true := invalidProduct_iff.symm
  have hnan : nan ↔ (isNaN a || isNaN b || isNaN c) = true := by simp only [nan, Bool.or_eq_true, or_assoc]
  rw [hinvalid, hnan]
  refine ⟨fun h => ?invalid, fun h hn => ?nan, fun h hn hinf => ?infinite, fun ha hb hc => ?addend,
    fun ha hb hc hsum => ?rounded, fun ha hb hc hsum => ?zero⟩
  case invalid => rw [fma_eq, if_pos h]; rfl
  case nan =>
    have hsignaling : (isSNaN a || isSNaN b || isSNaN c) = true ↔
        isSNaN a = true ∨ isSNaN b = true ∨ isSNaN c = true := by
      simp only [Bool.or_eq_true, or_assoc]
    rw [fma_eq, if_neg h, if_pos hn, nanResult_eq hsignaling]
  case infinite =>
    rw [fma_eq, if_neg h, if_neg hn, if_pos (Bool.or_eq_true_iff.mpr hinf)]
    simp only [Bool.and_eq_true, bne_iff_ne]
    rfl
  case addend => rw [fma_of_isFinite mode ha hb (classes_of_isInf hc).1, if_pos hc]
  case rounded =>
    rw [fpValue_mul_add] at hsum ⊢
    have hunits : units a * units b + units c * 2 ^ 149 ≠ 0 := fun h => hsum (by rw [h, Int.cast_zero, zero_div])
    obtain ⟨hnan, hinf⟩ := classes_of_isFinite hc
    rw [fma_of_isFinite mode ha hb hnan, hinf, if_neg Bool.false_ne_true, if_neg hunits]
    exact roundUnits_rounds mode hunits 298
  case zero =>
    have hunits : units a * units b + units c * 2 ^ 149 = 0 := by
      rwa [fpValue_mul_add, div_eq_zero_iff, or_iff_left (by positivity), Int.cast_eq_zero] at hsum
    obtain ⟨hnan, hinf⟩ := classes_of_isFinite hc
    rw [fma_of_isFinite mode ha hb hnan, hinf, if_neg Bool.false_ne_true, if_pos hunits,
      zeroSum_eq mode (z := c) (fun h => (Bool.and_eq_true _ _ ▸ h).2) (.inr rfl)]
    simp only [Bool.and_eq_true, Bool.or_eq_true, and_assoc, @eq_comm _ (fpSign c), sign]

end Sys2Proof.Machine

/-! Proofs of the statements from 45_float_arith.md about every operation: the canonical NaN (R313) and the table of
flags (R314). Each operation either answers a special result or rounds an exact value, which is said once for each. -/

namespace Sys2Proof.Machine

open Sys2Proof

/-! ## Special results -/

/-- A result that is not rounded and divides nothing by zero: a canonical NaN or an operand-dependent number without
flags (45_float_arith.md R313, R316 to R320). -/
inductive SpecialResult : Word × FpFlags → Prop
  | nan (signaling : Bool) : SpecialResult (nanResult signaling)
  | invalid : SpecialResult invalidResult
  | number {w : Word} (h : isNaN w = false) : SpecialResult (w, noFlags)

theorem SpecialResult.canonical_or_not_nan {r : Word × FpFlags} (h : SpecialResult r) :
    r.1 = canonicalNaN ∨ isNaN r.1 = false := by
  cases h with
  | nan | invalid => exact .inl rfl
  | number h => exact .inr h

theorem SpecialResult.flags {r : Word × FpFlags} (h : SpecialResult r) : r.2 = noFlags ∨ r.2 = flagNV := by
  cases h with
  | nan signaling =>
    cases signaling
    · exact .inl rfl
    · exact .inr rfl
  | invalid => exact .inr rfl
  | number => exact .inl rfl

theorem isNaN_infinityOf (neg : Bool) : isNaN (infinityOf neg) = false := by cases neg <;> rfl

theorem isNaN_zeroOf (neg : Bool) : isNaN (zeroOf neg) = false := by cases neg <;> rfl

theorem isNaN_zeroSum (mode : RoundingMode) (bothZero negA negB : Bool) :
    isNaN (zeroSum mode bothZero negA negB) = false := by
  unfold zeroSum
  split <;> exact isNaN_zeroOf _

/-! ## What each operation can answer -/

theorem fadd_cases (a b : Word) (mode : RoundingMode) :
    SpecialResult (fadd a b mode) ∨ ∃ n : ℤ, n ≠ 0 ∧ fadd a b mode = roundUnits mode n 149 := by
  unfold fadd
  split_ifs with _ _ hinfa hinfb hsum
  · exact .inl (.nan _)
  · exact .inl .invalid
  · exact .inl (.number (classes_of_isInf hinfa).1)
  · exact .inl (.number (classes_of_isInf hinfb).1)
  · exact .inl (.number (isNaN_zeroSum _ _ _ _))
  · exact .inr ⟨_, hsum, rfl⟩

theorem fmul_cases (a b : Word) (mode : RoundingMode) :
    SpecialResult (fmul a b mode) ∨ ∃ n : ℤ, n ≠ 0 ∧ fmul a b mode = roundUnits mode n 298 := by
  rw [fmul_eq]
  split_ifs with _ _ _ hzero
  · exact .inl .invalid
  · exact .inl (.nan _)
  · exact .inl (.number (isNaN_infinityOf _))
  · exact .inl (.number (isNaN_zeroOf _))
  · obtain ⟨hza, hzb⟩ := Bool.or_eq_false_iff.mp (Bool.eq_false_iff.mpr hzero)
    exact .inr ⟨_, mul_ne_zero (units_ne_zero hza) (units_ne_zero hzb), rfl⟩

theorem fdiv_cases (a b : Word) (mode : RoundingMode) :
    SpecialResult (fdiv a b mode) ∨ (∃ neg, fdiv a b mode = (infinityOf neg, flagDZ)) ∨
      ∃ neg m, m.Pos ∧ fdiv a b mode = roundExact mode neg m := by
  unfold fdiv
  split_ifs with _ _ _ _ hzb hza
  · exact .inl (.nan _)
  · exact .inl .invalid
  · exact .inl (.number (isNaN_infinityOf _))
  · exact .inl (.number (isNaN_zeroOf _))
  · exact .inr (.inl ⟨_, rfl⟩)
  · exact .inl (.number (isNaN_zeroOf _))
  · exact .inr (.inr ⟨_, .ratio _ _,
      ⟨unitsMagnitude_pos (Bool.eq_false_iff.mpr hza), unitsMagnitude_pos (Bool.eq_false_iff.mpr hzb)⟩, rfl⟩)

theorem fsqrt_cases (a : Word) (mode : RoundingMode) :
    SpecialResult (fsqrt a mode) ∨ ∃ m, m.Pos ∧ fsqrt a mode = roundExact mode false m := by
  unfold fsqrt
  split_ifs with _ hzero _ hinf
  · exact .inl (.nan _)
  · exact .inl (.number (classes_of_isZero hzero).1)
  · exact .inl .invalid
  · exact .inl (.number (classes_of_isInf hinf).1)
  · exact .inr ⟨.root _ _, ⟨unitsMagnitude_pos (Bool.eq_false_iff.mpr hzero), by positivity⟩, rfl⟩

theorem fma_cases (a b c : Word) (mode : RoundingMode) :
    SpecialResult (fma a b c mode) ∨ ∃ n : ℤ, n ≠ 0 ∧ fma a b c mode = roundUnits mode n 298 := by
  rw [fma_eq]
  split_ifs with _ _ _ _ hinf hsum
  · exact .inl .invalid
  · exact .inl (.nan _)
  · exact .inl .invalid
  · exact .inl (.number (isNaN_infinityOf _))
  · exact .inl (.number (classes_of_isInf hinf).1)
  · exact .inl (.number (isNaN_zeroSum _ _ _ _))
  · exact .inr ⟨_, hsum, rfl⟩

/-- Minimum and maximum copy an operand or answer the canonical NaN, and set NV or nothing (45_float_arith.md R321). -/
theorem selectResult_cases {a b chosen : Word} (h : chosen = a ∨ chosen = b) :
    ((selectResult a b chosen).1 = canonicalNaN ∨ isNaN (selectResult a b chosen).1 = false) ∧
      ((selectResult a b chosen).2 = noFlags ∨ (selectResult a b chosen).2 = flagNV) := by
  constructor
  · unfold selectResult
    split_ifs with hboth ha hb
    · exact .inl rfl
    · exact .inr (Bool.eq_false_iff.mpr fun hb => hboth (Bool.and_eq_true_iff.mpr ⟨ha, hb⟩))
    · exact .inr (Bool.eq_false_iff.mpr ha)
    · obtain rfl | rfl := h
      · exact .inr (Bool.eq_false_iff.mpr ha)
      · exact .inr (Bool.eq_false_iff.mpr hb)
  · unfold selectResult
    cases isSNaN a || isSNaN b
    · exact .inl rfl
    · exact .inr rfl

theorem fmin_cases (a b : Word) :
    ((fmin a b).1 = canonicalNaN ∨ isNaN (fmin a b).1 = false) ∧ ((fmin a b).2 = noFlags ∨ (fmin a b).2 = flagNV) :=
  selectResult_cases (ite_eq_or_eq _ _ _).symm

theorem fmax_cases (a b : Word) :
    ((fmax a b).1 = canonicalNaN ∨ isNaN (fmax a b).1 = false) ∧ ((fmax a b).2 = noFlags ∨ (fmax a b).2 = flagNV) :=
  selectResult_cases (ite_eq_or_eq _ _ _).symm

/-! ## The canonical NaN -/

theorem isNaN_overflowResult (mode : RoundingMode) (neg : Bool) : isNaN (overflowResult mode neg) = false := by
  cases mode <;> cases neg <;> rfl

theorem isNaN_roundExact {m : Magnitude} (hm : m.Pos) (mode : RoundingMode) (neg : Bool) :
    isNaN (roundExact mode neg m).1 = false := by
  rcases Nat.lt_or_ge (m.rounded mode neg * 2 ^ m.spacingUnits) (2 ^ 277) with hfits | hover
  · exact (classes_of_isFinite (roundExact_of_not_overflow hm hfits).2.1).1
  · rw [roundExact_of_overflow hover, isNaN_overflowResult]

theorem isNaN_roundUnits {n : ℤ} (hn : n ≠ 0) (mode : RoundingMode) (scale : ℕ) :
    isNaN (roundUnits mode n scale).1 = false :=
  isNaN_roundExact (m := .ratio n.natAbs (2 ^ scale)) ⟨Int.natAbs_pos.mpr hn, by positivity⟩ mode _

/-- A result of addition, multiplication or fused multiply-add. -/
theorem canonical_or_not_nan_of_units {r : Word × FpFlags} {mode : RoundingMode} {scale : ℕ}
    (h : SpecialResult r ∨ ∃ n : ℤ, n ≠ 0 ∧ r = roundUnits mode n scale) : r.1 = canonicalNaN ∨ isNaN r.1 = false := by
  obtain hspecial | ⟨n, hn, hround⟩ := h
  · exact hspecial.canonical_or_not_nan
  · exact .inr (by rw [hround, isNaN_roundUnits hn])

theorem fdiv_canonical_or_not_nan (a b : Word) (mode : RoundingMode) :
    (fdiv a b mode).1 = canonicalNaN ∨ isNaN (fdiv a b mode).1 = false := by
  obtain hspecial | ⟨neg, hzero⟩ | ⟨neg, m, hm, hround⟩ := fdiv_cases a b mode
  · exact hspecial.canonical_or_not_nan
  · exact .inr (hzero ▸ isNaN_infinityOf neg)
  · exact .inr (hround ▸ isNaN_roundExact hm mode neg)

theorem fsqrt_canonical_or_not_nan (a : Word) (mode : RoundingMode) :
    (fsqrt a mode).1 = canonicalNaN ∨ isNaN (fsqrt a mode).1 = false := by
  obtain hspecial | ⟨m, hm, hround⟩ := fsqrt_cases a mode
  · exact hspecial.canonical_or_not_nan
  · exact .inr (hround ▸ isNaN_roundExact hm mode false)

/-- Settles O59: rounding gives no NaN, and the special results that are NaNs are canonical. -/
theorem arithmeticNaNIsCanonical : Obligations.ArithmeticNaNIsCanonical := by
  intro a b c mode r hr hnan
  refine Or.resolve_right (b := isNaN r.1 = false) ?_ (by simp [hnan])
  simp only [List.mem_cons, List.not_mem_nil, or_false] at hr
  obtain rfl | rfl | rfl | rfl | rfl | rfl | rfl | rfl := hr
  · exact canonical_or_not_nan_of_units (fadd_cases a b mode)
  · exact canonical_or_not_nan_of_units (fadd_cases a (fpNegate b) mode)
  · exact canonical_or_not_nan_of_units (fmul_cases a b mode)
  · exact fdiv_canonical_or_not_nan a b mode
  · exact fsqrt_canonical_or_not_nan a mode
  · exact canonical_or_not_nan_of_units (fma_cases a b c mode)
  · exact (fmin_cases a b).1
  · exact (fmax_cases a b).1

/-! ## The table of flags -/

theorem SpecialResult.no_flag {r : Word × FpFlags} (h : SpecialResult r) {mask : FpFlags}
    (hmask : flagNV &&& mask = noFlags) : r.2 &&& mask = noFlags := by
  obtain h | h := h.flags
  · rw [h]
    exact BitVec.zero_and
  · rw [h, hmask]

/-- Rounding never sets NV or DZ, and sets UF only with NX. -/
theorem roundExact_flags_cases (mode : RoundingMode) (neg : Bool) (m : Magnitude) :
    (roundExact mode neg m).2 ∈ [flagOF ||| flagNX, noFlags, flagNX, flagNX ||| flagUF] := by
  rcases Nat.lt_or_ge (m.rounded mode neg * 2 ^ m.spacingUnits) (2 ^ 277) with hfits | hover
  · rw [roundExact_flags hfits]
    cases (roundAt mode neg m m.spacing).2 <;> cases isTiny mode neg m <;> decide
  · rw [roundExact_of_overflow hover]
    exact List.mem_cons_self

theorem roundExact_no_dz (mode : RoundingMode) (neg : Bool) (m : Magnitude) :
    (roundExact mode neg m).2 &&& flagDZ = noFlags := by
  have h := roundExact_flags_cases mode neg m
  generalize (roundExact mode neg m).2 = fl at h
  revert fl
  decide

/-- A whole number of units of `2^-149` below the normal numbers is exact (45_float_arith.md R314). -/
theorem roundAt_units_exact {n : ℕ} (hn : 0 < n) (mode : RoundingMode) (neg : Bool)
    (htiny : isTiny mode neg (.ratio n (2 ^ 149)) = true) :
    (roundAt mode neg (.ratio n (2 ^ 149)) (Magnitude.ratio n (2 ^ 149)).spacing).2 = false := by
  have hm : (Magnitude.ratio n (2 ^ 149)).Pos := ⟨hn, by positivity⟩
  have hE : floorLog2 (.ratio n (2 ^ 149)) < -126 := of_decide_eq_true (Bool.and_eq_true_iff.mp htiny).1
  have hspacing : (Magnitude.ratio n (2 ^ 149)).spacing = -149 := by
    unfold Magnitude.spacing
    omega
  have hquotient : (Magnitude.ratio n (2 ^ 149)).quotient = n := by
    rw [Magnitude.quotient, hspacing, Magnitude.value, Nat.cast_pow, Nat.cast_ofNat, zpow_neg, div_inv_eq_mul]
    exact div_mul_cancel₀ _ (by positivity)
  rw [← Bool.not_eq_true, Magnitude.roundAt_inexact_iff hm, not_not, Magnitude.rounded_mul_eq_iff hm, hquotient,
    Int.fract_natCast]

theorem roundUnits_no_underflow {n : ℤ} (hn : n ≠ 0) (mode : RoundingMode) :
    (roundUnits mode n 149).2 &&& (flagDZ ||| flagUF) = noFlags := by
  have hexact := roundAt_units_exact (Int.natAbs_pos.mpr hn) mode (n < 0)
  unfold roundUnits
  generalize Magnitude.ratio n.natAbs (2 ^ 149) = m at hexact
  rcases Nat.lt_or_ge (m.rounded mode (n < 0) * 2 ^ m.spacingUnits) (2 ^ 277) with hfits | hover
  · rw [roundExact_flags hfits]
    cases htiny : isTiny mode (n < 0) m with
    | true => rw [hexact htiny]; rfl
    | false => cases (roundAt mode (n < 0) m m.spacing).2 <;> rfl
  · rw [roundExact_of_overflow hover]
    exact show (flagOF ||| flagNX) &&& (flagDZ ||| flagUF) = noFlags by decide

/-- A non-zero integer below `2^127` is in the range of the normal numbers, so its rounding sets NX or nothing. -/
theorem fcvtFromInt_flags {n : ℤ} (hn : n.natAbs < 2 ^ 127) (mode : RoundingMode) :
    (fcvtFromInt n mode).2 = noFlags ∨ (fcvtFromInt n mode).2 = flagNX := by
  unfold fcvtFromInt
  split_ifs with hzero
  · exact .inl rfl
  · have hpos : 0 < n.natAbs := Int.natAbs_pos.mpr hzero
    have hle : (1 : ℝ) ≤ n.natAbs := by exact_mod_cast hpos
    have hm : (Magnitude.ratio n.natAbs (2 ^ 0)).Pos := ⟨hpos, by positivity⟩
    have hvalue : (Magnitude.ratio n.natAbs (2 ^ 0)).value = n.natAbs := by simp [Magnitude.value]
    refine roundExact_flags_of_normal hm mode _ ?_ ?_ <;> rw [hvalue]
    · exact le_trans (zpow_le_one_of_nonpos₀ one_le_two (by decide)) hle
    · exact_mod_cast hn

theorem fcvtToInt_flags (a : Word) (mode : RoundingMode) (lo hi : ℤ) :
    (fcvtToInt a mode lo hi).2 = noFlags ∨ (fcvtToInt a mode lo hi).2 = flagNV ∨
      (fcvtToInt a mode lo hi).2 = flagNX := by
  unfold fcvtToInt
  split_ifs
  · exact .inr (.inl rfl)
  · exact .inr (.inl rfl)
  · exact .inr (.inl rfl)
  · exact .inr (.inl rfl)
  · cases (rint a mode).2
    · exact .inl rfl
    · exact .inr (.inr rfl)

/-- A comparison sets NV or nothing (46_float_move_convert_compare.md R346 to R348). -/
theorem comparison_flags (a b : Word) :
    ∀ fl ∈ [(feq a b).2, (flt a b).2, (fle a b).2], fl = noFlags ∨ fl = flagNV := by
  have hite (c : Bool) (x y : Bool) : (if c then (x, flagNV) else (y, noFlags)).2 = noFlags ∨
      (if c then (x, flagNV) else (y, noFlags)).2 = flagNV := by
    cases c
    · exact .inl rfl
    · exact .inr rfl
  simp only [List.forall_mem_cons, List.not_mem_nil, false_implies, implies_true, and_true]
  refine ⟨?_, hite _ _ _, hite _ _ _⟩
  unfold feq
  cases isSNaN a || isSNaN b
  · exact .inl rfl
  · exact .inr rfl

theorem fadd_no_underflow (a b : Word) (mode : RoundingMode) : (fadd a b mode).2 &&& (flagDZ ||| flagUF) = noFlags := by
  obtain hspecial | ⟨n, hn, hround⟩ := fadd_cases a b mode
  · exact hspecial.no_flag (by decide)
  · rw [hround, roundUnits_no_underflow hn]

theorem no_dz_of_units {r : Word × FpFlags} {mode : RoundingMode} {scale : ℕ}
    (h : SpecialResult r ∨ ∃ n : ℤ, n ≠ 0 ∧ r = roundUnits mode n scale) : r.2 &&& flagDZ = noFlags := by
  obtain hspecial | ⟨n, -, hround⟩ := h
  · exact hspecial.no_flag (by decide)
  · rw [hround]
    exact roundExact_no_dz mode _ _

/-- Settles O60: from what each operation can answer and the flags that rounding can set. -/
theorem flagTableHolds : Obligations.FlagTableHolds := by
  intro a b c mode
  refine ⟨fadd_no_underflow a b mode, fadd_no_underflow a (fpNegate b) mode, no_dz_of_units (fmul_cases a b mode),
    ?sqrt, no_dz_of_units (fma_cases a b c mode), fun fl hfl => ?onlyNV, fun fl hfl => ?toInt, fun fl hfl => ?fromInt⟩
  case sqrt => obtain h | h | h := fsqrt_flags a mode <;> rw [h] <;> rfl
  case onlyNV =>
    have hflags : fl = noFlags ∨ fl = flagNV := by
      obtain _ | ⟨_, _ | ⟨_, hcomparison⟩⟩ := hfl
      · exact (fmin_cases a b).2
      · exact (fmax_cases a b).2
      · exact comparison_flags a b fl hcomparison
    obtain rfl | rfl := hflags <;> decide
  case toInt =>
    simp only [List.mem_cons, List.not_mem_nil, or_false] at hfl
    obtain rfl | rfl := hfl <;> exact fcvtToInt_flags a mode _ _
  case fromInt =>
    have hbound : a.toInt.natAbs < 2 ^ 127 ∧ (a.toNat : ℤ).natAbs < 2 ^ 127 := by
      have hsigned := a.toInt_lt
      have hsigned' := a.le_toInt
      have hunsigned := a.isLt
      omega
    have hflags : fl = noFlags ∨ fl = flagNX := by
      simp only [List.mem_cons, List.not_mem_nil, or_false] at hfl
      obtain rfl | rfl := hfl
      · exact fcvtFromInt_flags hbound.1 mode
      · exact fcvtFromInt_flags hbound.2 mode
    obtain rfl | rfl := hflags <;> decide

end Sys2Proof.Machine

/-! Proofs of the statements from 45_float_arith.md about instructions: the check of the rounding mode (R311), what the
arithmetic and the fused instructions write (R315, R323 to R325, R328 to R333), and minimum and maximum (R321, R326,
R327). -/

namespace Sys2Proof.Machine

open Sys2Proof

/-! ## The rounding mode -/

/-- An instruction with an `rm` field raises for a reserved mode, and otherwise goes on at `pc + 4` in the run it was
in. -/
theorem roundedNext_raises_or_advances (i : Instr) (rm : BitVec 3) {run : RoundingMode → State} (s : State)
    (hrun : ∀ mode, (run mode).outcome = s.outcome ∧ (run mode).pc = s.pc + 4#32) :
    (ModeReserved s rm → Raises (roundedNext i rm run s) s .illegalInstruction (encode i)) ∧
      (¬ModeReserved s rm → ∃ t, roundedNext i rm run s = .next t ∧ t.outcome = s.outcome ∧ t.pc = s.pc + 4#32) := by
  obtain ⟨hselected, hreserved⟩ := roundedNext_spec i rm run s
  refine ⟨hreserved, fun hvalid => ?_⟩
  obtain ⟨mode, hmode⟩ := (modeReserved_or_selected s rm).resolve_left hvalid
  exact ⟨run mode, hselected mode hmode, hrun mode⟩

theorem finishF_advances (s : State) (rd : FReg) (r : Word × FpFlags) :
    (s.finishF rd r).outcome = s.outcome ∧ (s.finishF rd r).pc = s.pc + 4#32 :=
  ⟨(WritesFAndFlags.finishF s rd r).run.1, (WritesFAndFlags.finishF s rd r).pc⟩

theorem finishX_advances (s : State) (rd : XReg) (r : Word × FpFlags) :
    (s.finishX rd r).outcome = s.outcome ∧ (s.finishX rd r).pc = s.pc + 4#32 :=
  ⟨(WritesXAndFlags.finishX s rd r).run.1, (WritesXAndFlags.finishX s rd r).pc⟩

/-- Settles O42: each of the 13 is one `roundedNext`, with a result for `f[rd]` or, in the conversions to integer, for
`x[rd]`. -/
theorem reservedRoundingModeRaises : Obligations.ReservedRoundingModeRaises := by
  intro rd rs1 rs2 rs3 rm s
  have writesF (i : Instr) (result : RoundingMode → Word × FpFlags) :=
    roundedNext_raises_or_advances i rm s fun mode => finishF_advances s rd (result mode)
  have writesX (i : Instr) (result : RoundingMode → Word × FpFlags) :=
    roundedNext_raises_or_advances i rm s fun mode => finishX_advances s rd (result mode)
  simp only [List.forall_mem_cons, List.not_mem_nil, false_implies, implies_true, and_true]
  exact ⟨writesF _ _, writesF _ _, writesF _ _, writesF _ _, writesF _ _, writesF _ _, writesF _ _, writesF _ _,
    writesF _ _, writesX _ _, writesX _ _, writesF _ _, writesF _ _⟩

/-! ## Arithmetic -/

/-- An instruction with an `rm` field that writes `f[rd]`, in the mode that it selects. -/
theorem roundedNext_writesF (i : Instr) {rm : BitVec 3} {mode : RoundingMode} {s : State}
    (hmode : ModeSelected s rm mode) (rd : FReg) (result : RoundingMode → Word × FpFlags) :
    ∃ t, roundedNext i rm (fun mode => s.finishF rd (result mode)) s = .next t ∧
      WritesFAndFlags s t rd (result mode) :=
  ⟨_, (roundedNext_spec i rm _ s).1 mode hmode, .finishF s rd _⟩

/-- Settles O43: each of the five is one `roundedNext` with its own function of the operands. -/
theorem floatArithmeticResults : Obligations.FloatArithmeticResults := by
  intro rd rs1 rs2 rm mode s hmode a b
  exact ⟨roundedNext_writesF _ hmode rd (fadd a b), roundedNext_writesF _ hmode rd (fsub a b),
    roundedNext_writesF _ hmode rd (fmul a b), roundedNext_writesF _ hmode rd (fdiv a b),
    roundedNext_writesF _ hmode rd (fsqrt a)⟩

/-- Settles O44: each of the four is one `roundedNext` with `fma` of the operands in their signs. -/
theorem fusedResults : Obligations.FusedResults := by
  intro rd rs1 rs2 rs3 rm mode s hmode a b c minus
  exact ⟨roundedNext_writesF _ hmode rd (fma a b c), roundedNext_writesF _ hmode rd (fma a b (minus c)),
    roundedNext_writesF _ hmode rd (fma (minus a) b (minus c)), roundedNext_writesF _ hmode rd (fma (minus a) b c)⟩

/-! ## Minimum and maximum -/

theorem fpBelow_iff_units {a b : Word} :
    fpBelow a b = true ↔ units a < units b ∨ units a = units b ∧ fpSign a = true ∧ fpSign b = false := by
  simp only [fpBelow, Bool.or_eq_true, Bool.and_eq_true, decide_eq_true_eq, beq_iff_eq, Bool.not_eq_true', and_assoc]

/-- Equal values of different signs are the two zeros. -/
theorem zeros_of_units_eq {a b : Word} (h : units a = units b) (ha : fpSign a = true) (hb : fpSign b = false) :
    a = zeroOf true ∧ b = zeroOf false := by
  have hzero : unitsMagnitude a = 0 ∧ unitsMagnitude b = 0 := by
    unfold units at h
    rw [ha, hb, if_pos rfl, if_neg Bool.false_ne_true] at h
    omega
  exact ⟨eq_zeroOf_iff.mpr ⟨unitsMagnitude_eq_zero_iff.mp hzero.1, ha⟩,
    eq_zeroOf_iff.mpr ⟨unitsMagnitude_eq_zero_iff.mp hzero.2, hb⟩⟩

/-- `fpBelow` is the order of the values, with -0 below +0 (45_float_arith.md R321). -/
theorem fpBelow_iff {a b : Word} (ha : isNaN a = false) (hb : isNaN b = false) :
    fpBelow a b = true ↔ FpLess a b ∨ (a = 0x80000000#32 ∧ b = 0x00000000#32) := by
  rw [fpBelow_iff_units, fpLess_iff ha hb]
  refine or_congr_right ⟨fun ⟨hunits, hsa, hsb⟩ => zeros_of_units_eq hunits hsa hsb, ?_⟩
  rintro ⟨rfl, rfl⟩
  decide

theorem fpBelow_irrefl (a : Word) : ¬fpBelow a a = true := by
  rw [fpBelow_iff_units]
  rintro (hlt | ⟨-, hs, hs'⟩)
  · exact lt_irrefl _ hlt
  · exact Bool.noConfusion (hs.symm.trans hs')

theorem fpBelow_asymm {a b : Word} (h : fpBelow a b = true) : ¬fpBelow b a = true := by
  rw [fpBelow_iff_units] at h ⊢
  obtain hlt | ⟨heq, hs, -⟩ := h
  · rintro (hlt' | ⟨heq', -, -⟩) <;> omega
  · rintro (hlt' | ⟨-, -, hs'⟩)
    · omega
    · exact Bool.noConfusion (hs.symm.trans hs')

/-- Neither operand comes before the one chosen, in the order `first` that the choice is made by. -/
theorem chosen_spec {a b : Word} {first : Word → Word → Bool} (hirrefl : ∀ x, ¬first x x = true)
    (hasymm : ∀ {x y}, first x y = true → ¬first y x = true) :
    ((if first b a then b else a) = a ∨ (if first b a then b else a) = b) ∧
      ¬first a (if first b a then b else a) = true ∧ ¬first b (if first b a then b else a) = true := by
  split
  next h => exact ⟨.inr rfl, hasymm h, hirrefl b⟩
  next h => exact ⟨.inl rfl, hirrefl a, h⟩

/-- The flags of minimum and maximum (45_float_arith.md R321). -/
theorem selectResult_eq (a b chosen : Word) :
    selectResult a b chosen =
      ((selectResult a b chosen).1, if isSNaN a = true ∨ isSNaN b = true then flagNV else noFlags) := by
  refine Prod.ext rfl ?_
  change flagIf _ _ = _
  unfold flagIf
  simp only [Bool.or_eq_true]

/-- `selectResult` on NaNs, and the chosen operand on two numbers (45_float_arith.md R321). -/
theorem selectResult_fst (a b chosen : Word) :
    (isNaN a = true → isNaN b = true → (selectResult a b chosen).1 = 0x7FC00000#32) ∧
      (isNaN a = true → ¬isNaN b = true → (selectResult a b chosen).1 = b) ∧
      (¬isNaN a = true → isNaN b = true → (selectResult a b chosen).1 = a) ∧
      (¬isNaN a = true → ¬isNaN b = true → (selectResult a b chosen).1 = chosen) := by
  unfold selectResult
  cases isNaN a <;> cases isNaN b <;> simp [canonicalNaN]

/-- What minimum and maximum answer, for the order `First` that decides which operand of two numbers is taken. -/
theorem selectResult_chosen (a b : Word) {first : Word → Word → Bool} {First : Word → Word → Prop}
    (hirrefl : ∀ x, ¬first x x = true) (hasymm : ∀ {x y}, first x y = true → ¬first y x = true)
    (hfirst : ∀ {x y}, isNaN x = false → isNaN y = false → (first x y = true ↔ First x y)) :
    let v := (selectResult a b (if first b a then b else a)).1
    (isNaN a = true → isNaN b = true → v = 0x7FC00000#32) ∧ (isNaN a = true → ¬isNaN b = true → v = b) ∧
      (¬isNaN a = true → isNaN b = true → v = a) ∧
      (¬isNaN a = true → ¬isNaN b = true → (v = a ∨ v = b) ∧ ¬First a v ∧ ¬First b v) := by
  intro v
  obtain ⟨hboth, hleft, hright, hnumbers⟩ := selectResult_fst a b (if first b a then b else a)
  refine ⟨hboth, hleft, hright, fun ha hb => ?_⟩
  obtain ⟨hoperand, hbeforeA, hbeforeB⟩ := chosen_spec (a := a) (b := b) hirrefl hasymm
  rw [← hnumbers ha hb] at hoperand hbeforeA hbeforeB
  rw [Bool.not_eq_true] at ha hb
  have hv : isNaN v = false := by
    obtain hv | hv := hoperand
    · exact (congrArg isNaN hv).trans ha
    · exact (congrArg isNaN hv).trans hb
  exact ⟨hoperand, fun h => hbeforeA ((hfirst ha hv).mpr h), fun h => hbeforeB ((hfirst hb hv).mpr h)⟩

/-- Settles O45: both instructions answer `selectResult`, with `fpBelow` or its converse for the order. -/
theorem minimumAndMaximumResults : Obligations.MinimumAndMaximumResults := by
  intro rd rs1 rs2 s a b flags below chosen
  have writes (r : Word) : WritesFAndFlags s (s.finishF rd (selectResult a b r)) rd ((selectResult a b r).1, flags) :=
    selectResult_eq a b r ▸ WritesFAndFlags.finishF s rd (selectResult a b r)
  exact ⟨⟨_, _, rfl, writes (if fpBelow b a then b else a),
      selectResult_chosen a b (first := fpBelow) fpBelow_irrefl fpBelow_asymm fpBelow_iff⟩,
    _, _, rfl, writes (if fpBelow a b then b else a),
    selectResult_chosen a b (first := fun x y => fpBelow y x) fpBelow_irrefl fpBelow_asymm
      fun hx hy => fpBelow_iff hy hx⟩

end Sys2Proof.Machine

/-! Proofs of the statements from 46_float_move_convert_compare.md: bit copies (R350 to R354), classification (R341),
comparison (R346 to R348) and conversion from and to integers (R342 to R345), with their completion and frames. -/

namespace Sys2Proof.Machine

open Sys2Proof

/-! ## Bit copies -/

theorem fpSign_eq_getLsbD (a : Word) : fpSign a = a.getLsbD 31 := BitVec.msb_eq_getLsbD_last a

theorem getLsbD_withSign_sign (neg : Bool) (a : Word) : (withSign neg a).getLsbD 31 = neg := by
  rw [← fpSign_eq_getLsbD, withSign, fpSign_append]

theorem getLsbD_withSign_of_lt (neg : Bool) (a : Word) {k : ℕ} (hk : k < 31) :
    (withSign neg a).getLsbD k = a.getLsbD k := by
  rw [withSign, BitVec.getLsbD_append, if_pos hk, BitVec.getLsbD_extractLsb', decide_eq_true hk, Bool.true_and,
    Nat.zero_add]

/-- Settles O50: a sign injection writes `withSign` of the sign that it makes, and a move its operand. -/
theorem bitCopyResults : Obligations.BitCopyResults := by
  intro rd rs1 rs2 xd xs1 s a b signed
  have injects (neg : Bool) : signed neg (withSign neg a) :=
    ⟨getLsbD_withSign_sign neg a, fun _ hk => getLsbD_withSign_of_lt neg a hk⟩
  rw [← fpSign_eq_getLsbD, ← fpSign_eq_getLsbD]
  exact ⟨⟨_, _, rfl, .setF_advance s rd _, injects (fpSign b)⟩,
    ⟨_, _, rfl, .setF_advance s rd _, injects (!fpSign b)⟩,
    ⟨_, _, rfl, .setF_advance s rd _, injects (fpSign a != fpSign b)⟩, ⟨_, rfl, .setF_advance s rd _⟩,
    _, rfl, .setX_advance s xd a⟩

/-! ## Comparison -/

theorem fpValue_eq_iff {a b : Word} : fpValue a = fpValue b ↔ units a = units b := by
  rw [fpValue_eq_units, fpValue_eq_units, div_left_inj' (by positivity), Int.cast_inj]

/-- Of the patterns that are no NaN, the finite numbers are those of less than `2^277` units. -/
theorem isFinite_iff_unitsMagnitude_lt {a : Word} (ha : isNaN a = false) :
    isFinite a = true ↔ unitsMagnitude a < 2 ^ 277 := by
  refine ⟨unitsMagnitude_lt_of_isFinite, fun hlt => (isInf_or_isFinite ha).resolve_left fun hinf => ?_⟩
  exact hlt.ne (unitsMagnitude_of_isInf hinf)

/-- The equality of two patterns that are no NaN is that of their units, in which the zeros are equal and an infinity
differs from every finite number. -/
theorem fpEqual_iff {a b : Word} (ha : isNaN a = false) (hb : isNaN b = false) :
    FpEqual a b ↔ units a = units b := by
  constructor
  · rintro (⟨-, -, hvalue⟩ | ⟨rfl, -⟩)
    · exact fpValue_eq_iff.mp hvalue
    · rfl
  · intro hunits
    have hfinite : isFinite a = true ↔ isFinite b = true := by
      rw [isFinite_iff_unitsMagnitude_lt ha, isFinite_iff_unitsMagnitude_lt hb, ← natAbs_units, ← natAbs_units, hunits]
    obtain hinfa | hfina := isInf_or_isFinite ha
    · obtain ⟨-, hfina, hzeroa⟩ := classes_of_isInf hinfa
      rw [← Bool.not_eq_true] at hfina
      have hinfb : isInf b = true := (isInf_or_isFinite hb).resolve_right (hfinite.not.mp hfina)
      have hsign : fpSign a = fpSign b := by
        rw [Bool.eq_iff_iff, ← units_neg_iff hzeroa, ← units_neg_iff (classes_of_isInf hinfb).2.2, hunits]
      exact .inr ⟨by rw [eq_infinityOf hinfa, eq_infinityOf hinfb, hsign], hfina⟩
    · exact .inl ⟨hfina, hfinite.mp hfina, fpValue_eq_iff.mpr hunits⟩

theorem fpLess_or_fpEqual_iff {a b : Word} (ha : isNaN a = false) (hb : isNaN b = false) :
    FpLess a b ∨ FpEqual a b ↔ units a ≤ units b := by
  rw [fpLess_iff ha hb, fpEqual_iff ha hb, le_iff_lt_or_eq]

/-- The result `r` of a comparison that tests `holds`, and is false on a NaN, with NV when it is `invalid`
(46_float_move_convert_compare.md R346 to R348). -/
def Compared (nan holds invalid : Prop) (r : Word × FpFlags) : Prop :=
  (nan ∨ ¬holds → r.1 = 0#32) ∧ (¬nan → holds → r.1 = 1#32) ∧ (invalid → r.2 = flagNV) ∧ (¬invalid → r.2 = noFlags)

theorem Compared.boolResult {nan holds invalid : Prop} {c : Bool} {fl : FpFlags} (hc : c = true ↔ ¬nan ∧ holds)
    (hinvalid : invalid → fl = flagNV) (hvalid : ¬invalid → fl = noFlags) :
    Compared nan holds invalid (boolResult (c, fl)) := by
  refine ⟨fun h => if_neg fun htrue => ?_, fun hnan hholds => if_pos (hc.mpr ⟨hnan, hholds⟩), hinvalid, hvalid⟩
  obtain ⟨hnan, hholds⟩ := hc.mp htrue
  exact h.elim hnan fun hfails => hfails hholds

section
variable (a b : Word)

/-- `feq` is the quiet comparison (R346). -/
theorem compared_feq :
    Compared (isNaN a = true ∨ isNaN b = true) (FpEqual a b) (isSNaN a = true ∨ isSNaN b = true)
      (boolResult (feq a b)) := by
  refine .boolResult ?_ (fun h => if_pos (Bool.or_eq_true_iff.mpr h)) fun h => if_neg (mt Bool.or_eq_true_iff.mp h)
  rw [Bool.and_eq_true, Bool.not_eq_true', Bool.or_eq_false_iff, beq_iff_eq, not_or, Bool.not_eq_true, Bool.not_eq_true]
  exact and_congr_right fun ⟨ha, hb⟩ => (fpEqual_iff ha hb).symm

/-- The signaling comparisons, which differ in the test of two numbers alone (R347, R348). -/
theorem compared_signaling {test holds : Prop} [Decidable test]
    (htest : isNaN a = false → isNaN b = false → (holds ↔ test)) :
    Compared (isNaN a = true ∨ isNaN b = true) holds (isNaN a = true ∨ isNaN b = true)
      (boolResult (if isNaN a || isNaN b then (false, flagNV) else (decide test, noFlags))) := by
  by_cases hnan : isNaN a = true ∨ isNaN b = true
  · rw [if_pos (Bool.or_eq_true_iff.mpr hnan)]
    exact .boolResult (by simp [hnan]) (fun _ => rfl) fun h => absurd hnan h
  · rw [if_neg (mt Bool.or_eq_true_iff.mp hnan)]
    refine .boolResult ?_ (fun h => absurd h hnan) fun _ => rfl
    rw [not_or, Bool.not_eq_true, Bool.not_eq_true] at hnan
    rw [decide_eq_true_iff, htest hnan.1 hnan.2]
    simp [hnan]

end

/-- Settles O48: the order and the equality of values are those of the units that the model compares. -/
theorem floatComparisonResults : Obligations.FloatComparisonResults := by
  intro rd rs1 rs2 s a b nan compared
  exact ⟨⟨_, _, rfl, .finishX s rd _, compared_feq a b⟩,
    ⟨_, _, rfl, .finishX s rd _, compared_signaling a b fpLess_iff⟩,
    _, _, rfl, .finishX s rd _, compared_signaling a b fpLess_or_fpEqual_iff⟩

/-! ## Values with a sign -/

/-- `x` with its sign inverted if `neg`. -/
def negateIf {α : Type} [Neg α] (neg : Bool) (x : α) : α := if neg then -x else x

theorem abs_negateIf {α : Type} [AddGroup α] [Lattice α] (neg : Bool) (x : α) : |negateIf neg x| = |x| := by
  cases neg with
  | false => rfl
  | true => exact abs_neg x

theorem fpValue_eq_negateIf (a : Word) : fpValue a = negateIf (fpSign a) ((unitsMagnitude a : ℚ) / 2 ^ 149) := by
  rw [fpValue_eq_units, units, negateIf]
  split <;> simp [neg_div]

theorem negateIf_fpValue (neg : Bool) (a : Word) :
    negateIf neg (fpValue a) = if fpSign a = neg then |fpValue a| else -|fpValue a| := by
  rw [abs_fpValue, fpValue_eq_negateIf]
  cases fpSign a <;> cases neg <;> simp [negateIf]

/-! ## Classification -/

section
variable {a : Word}

/-- A value of either sign and zero. -/
theorem negateIf_fpValue_pos_iff {neg : Bool} :
    0 < negateIf neg (fpValue a) ↔ fpSign a = neg ∧ isZero a = false := by
  have habs : 0 < |fpValue a| ↔ isZero a = false := by
    rw [abs_pos, Ne, fpValue_eq_zero_iff, Bool.not_eq_true]
  rw [negateIf_fpValue, ← habs]
  split
  next hsign => exact (and_iff_right hsign).symm
  next hsign => exact iff_of_false (by linarith [abs_nonneg (fpValue a)]) fun h => hsign h.1

/-- The least normal magnitude, `2^-126`, is `2^23` units. -/
theorem two_pow_le_unitsMagnitude_iff : 2 ^ 23 ≤ unitsMagnitude a ↔ fpExponent a ≠ 0 := by
  have hfraction := fpFraction_lt a
  unfold unitsMagnitude
  split
  next h => simpa [h] using hfraction
  next h => exact iff_of_true ((Nat.le_add_right _ _).trans (Nat.le_mul_of_pos_right _ (by positivity))) h

theorem normal_le_abs_fpValue_iff : 1 / 2 ^ 126 ≤ |fpValue a| ↔ fpExponent a ≠ 0 := by
  have hnormal : (1 / 2 ^ 126 : ℚ) = ((2 ^ 23 : ℕ) : ℚ) / 2 ^ 149 := by norm_num
  rw [abs_fpValue, hnormal, div_le_div_iff_of_pos_right (by positivity), Nat.cast_le, two_pow_le_unitsMagnitude_iff]

/-- A value of either sign and the least normal magnitude. -/
theorem normal_le_negateIf_fpValue_iff {neg : Bool} :
    1 / 2 ^ 126 ≤ negateIf neg (fpValue a) ↔ fpSign a = neg ∧ fpExponent a ≠ 0 := by
  have hnormal : (0 : ℚ) < 1 / 2 ^ 126 := by positivity
  rw [negateIf_fpValue, ← normal_le_abs_fpValue_iff]
  split
  next hsign => exact (and_iff_right hsign).symm
  next hsign => exact iff_of_false (by linarith [abs_nonneg (fpValue a)]) fun h => hsign h.1

theorem fpValue_pos_iff : 0 < fpValue a ↔ fpSign a = false ∧ isZero a = false :=
  negateIf_fpValue_pos_iff (neg := false)

theorem fpValue_neg_iff : fpValue a < 0 ↔ fpSign a = true ∧ isZero a = false :=
  neg_pos.symm.trans (negateIf_fpValue_pos_iff (neg := true))

theorem normal_le_fpValue_iff : 1 / 2 ^ 126 ≤ fpValue a ↔ fpSign a = false ∧ fpExponent a ≠ 0 :=
  normal_le_negateIf_fpValue_iff (neg := false)

theorem fpValue_le_neg_normal_iff : fpValue a ≤ -(1 / 2 ^ 126) ↔ fpSign a = true ∧ fpExponent a ≠ 0 :=
  le_neg.trans (normal_le_negateIf_fpValue_iff (neg := true))

theorem fpValue_lt_normal_iff : fpValue a < 1 / 2 ^ 126 ↔ ¬(fpSign a = false ∧ fpExponent a ≠ 0) := by
  rw [← not_le, normal_le_fpValue_iff]

theorem neg_normal_lt_fpValue_iff : -(1 / 2 ^ 126) < fpValue a ↔ ¬(fpSign a = true ∧ fpExponent a ≠ 0) := by
  rw [← not_le, fpValue_le_neg_normal_iff]

theorem classOf_of_isNaN (h : isNaN a = true) : classOf a = if a.getLsbD 22 then 9 else 8 := if_pos h

theorem classOf_of_isInf (h : isInf a = true) : classOf a = if fpSign a then 0 else 7 := by
  rw [classOf, (classes_of_isInf h).1, if_neg Bool.false_ne_true, if_pos (isInf_iff.mp h).1]

theorem classOf_of_isFinite (h : isFinite a = true) :
    classOf a =
      if isZero a then (if fpSign a then 3 else 4)
      else if fpExponent a = 0 then (if fpSign a then 2 else 5)
      else (if fpSign a then 1 else 6) := by
  rw [classOf, (classes_of_isFinite h).1, if_neg Bool.false_ne_true, if_neg (isFinite_iff.mp h)]

end

/-- Settles O49: the class of a NaN is told by its bit 22, and that of every other pattern by its magnitude and sign. -/
theorem classifyResult : Obligations.ClassifyResult := by
  intro rd rs1 s a
  refine ⟨_, classOf a, rfl, .setX_advance s rd (classify a), ?_⟩
  rw [show a = 0xFF800000#32 ↔ _ from eq_infinityOf_iff (neg := true),
    show a = 0x7F800000#32 ↔ _ from eq_infinityOf_iff (neg := false),
    show a = 0x80000000#32 ↔ _ from eq_zeroOf_iff (neg := true),
    show a = 0x00000000#32 ↔ _ from eq_zeroOf_iff (neg := false), fpValue_le_neg_normal_iff,
    normal_le_fpValue_iff, neg_normal_lt_fpValue_iff, fpValue_lt_normal_iff, fpValue_neg_iff, fpValue_pos_iff]
  cases hnan : isNaN a with
  | true =>
    rw [classOf_of_isNaN hnan]
    cases a.getLsbD 22 <;> simp [classes_of_isNaN hnan]
  | false =>
    obtain hinf | hfinite := isInf_or_isFinite hnan
    · rw [classOf_of_isInf hinf]
      cases fpSign a <;> simp [hinf, classes_of_isInf hinf]
    · rw [classOf_of_isFinite hfinite]
      cases hzero : isZero a with
      | true => cases fpSign a <;> simp [hfinite, classes_of_isFinite hfinite, (isZero_iff.mp hzero).1]
      | false =>
        by_cases hsubnormal : fpExponent a = 0
        · cases fpSign a <;> simp [hfinite, classes_of_isFinite hfinite, hsubnormal]
        · cases fpSign a <;> simp [hfinite, classes_of_isFinite hfinite, hsubnormal]

/-! ## Conversion from an integer -/

theorem fcvtFromInt_zero (mode : RoundingMode) : fcvtFromInt 0 mode = (0x00000000#32, noFlags) := rfl

theorem fcvtFromInt_rounds {n : ℤ} (hn : n ≠ 0) (mode : RoundingMode) : Rounds mode (n : ℝ) (fcvtFromInt n mode) := by
  have hrounds := roundUnits_rounds mode hn 0
  rw [pow_zero, div_one, Rat.cast_intCast] at hrounds
  rwa [fcvtFromInt, if_neg hn]

/-- Settles O46: a word is zero exactly when the integer that it stands for is. -/
theorem conversionsFromInteger : Obligations.ConversionsFromInteger := by
  intro rd rs1 rm mode s hmode a
  obtain ⟨t, hnext, hwrites⟩ := roundedNext_writesF (.fcvtSW rd rs1 rm) hmode rd (fcvtSWOf a)
  obtain ⟨tu, hnextu, hwritesu⟩ := roundedNext_writesF (.fcvtSWU rd rs1 rm) hmode rd (fcvtSWuOf a)
  refine ⟨⟨t, _, hnext, hwrites, fun hzero => ?_, fun hne => ?_⟩,
    tu, _, hnextu, hwritesu, fun hzero => ?_, fun hne => ?_⟩
  · rw [hzero]
    exact fcvtFromInt_zero mode
  · have hint : a.toInt ≠ 0 := by rwa [Ne, ← BitVec.toInt_zero, BitVec.toInt_inj]
    exact fcvtFromInt_rounds hint mode
  · rw [hzero]
    exact fcvtFromInt_zero mode
  · have hnat : (a.toNat : ℤ) ≠ 0 := by simpa [← BitVec.toNat_inj] using hne
    exact fcvtFromInt_rounds hnat mode

/-! ## Rounding to an integer -/

/-- The nearest integers are at most one half away, and only the middle of two is as far. -/
theorem RoundedInteger.abs_sub_le_half {mode : RoundingMode} {neg : Prop} {t : ℚ} {r : ℤ}
    (h : RoundedInteger mode neg (t : ℝ) r) (hmode : mode = .rne ∨ mode = .rmm) :
    |(r : ℚ) - t| ≤ 1 / 2 ∧ (|(r : ℚ) - t| = 1 / 2 → Int.fract (t : ℝ) = 1 / 2) := by
  have hmin : |(r : ℚ) - t| = min (Int.fract t) (1 - Int.fract t) := by exact_mod_cast h.abs_sub_eq_min hmode
  rw [hmin, ← Rat.cast_fract]
  constructor
  · rcases le_total (Int.fract t) (1 / 2) with hle | hle
    · exact min_le_of_left_le hle
    · exact min_le_of_right_le (by linarith)
  · intro heq
    have hfract : Int.fract t = 1 / 2 := by rcases min_choice (Int.fract t) (1 - Int.fract t) with hc | hc <;> linarith
    rw [hfract, Rat.cast_div, Rat.cast_one, Rat.cast_ofNat]

theorem abs_negateIf_sub (neg : Bool) (t : ℚ) (r : ℤ) : |negateIf neg t - (negateIf neg r : ℤ)| = |(r : ℚ) - t| := by
  cases neg with
  | false => exact abs_sub_comm _ _
  | true => simp [negateIf, add_comm, sub_eq_add_neg]

theorem negateIf_intCast_eq_iff (neg : Bool) (r : ℤ) (t : ℚ) :
    ((negateIf neg r : ℤ) : ℚ) = negateIf neg t ↔ (r : ℝ) = t := by
  have hcast : (r : ℝ) = t ↔ (r : ℚ) = t := by norm_cast
  rw [hcast]
  cases neg with
  | false => rfl
  | true => simp [negateIf]

/-- Rounding a magnitude to an integer, with its sign, is `rint` of the value (46_float_move_convert_compare.md
R344). -/
theorem RoundedInteger.isRint {mode : RoundingMode} {neg : Bool} {t : ℚ} {r : ℤ} (ht : 0 < t)
    (h : RoundedInteger mode (neg = true) (t : ℝ) r) : IsRint mode (negateIf neg t) (negateIf neg r) := by
  cases mode with
  | rne =>
    unfold IsRint
    rw [abs_negateIf_sub]
    obtain ⟨hle, htie⟩ := h.abs_sub_le_half (.inl rfl)
    refine ⟨hle, fun heq => ?_⟩
    have heven := h.even_of_tie (htie heq)
    cases neg
    · exact heven
    · exact Int.neg_emod_two r ▸ heven
  | rmm =>
    unfold IsRint
    rw [abs_negateIf_sub]
    obtain ⟨hle, htie⟩ := h.abs_sub_le_half (.inr rfl)
    refine ⟨hle, fun heq => ?_⟩
    have hup : r = ⌊t⌋ + 1 := by rw [h.away_of_tie (htie heq), Rat.floor_cast]
    have hlt : t < r := by
      rw [hup, Int.cast_add, Int.cast_one]
      exact Int.lt_floor_add_one t
    rw [abs_negateIf, ← Int.cast_abs, abs_negateIf, abs_of_pos ht, Int.cast_abs]
    exact hlt.trans_le (le_abs_self _)
  | rtz =>
    rw [show r = ⌊t⌋ from (h.2 id).trans (Rat.floor_cast t)]
    cases neg with
    | false => exact ⟨fun _ => rfl, fun hneg => absurd hneg ht.le.not_gt⟩
    | true => exact ⟨fun hpos => absurd hpos (neg_lt_zero.mpr ht).not_ge, fun _ => Int.ceil_neg.symm⟩
  | rdn =>
    cases neg with
    | false => exact (eq_floor_of_inward (neg := false) h).trans (Rat.floor_cast t)
    | true =>
      rw [show r = ⌈t⌉ from (eq_ceil_of_outward (neg := true) h).trans (Rat.ceil_cast t)]
      exact Int.floor_neg.symm
  | rup =>
    cases neg with
    | false => exact (eq_ceil_of_outward (neg := false) h).trans (Rat.ceil_cast t)
    | true =>
      rw [show r = ⌊t⌋ from (eq_floor_of_inward (neg := true) h).trans (Rat.floor_cast t)]
      exact Int.ceil_neg.symm

theorem isRint_zero (mode : RoundingMode) : IsRint mode 0 0 := by
  cases mode <;> simp [IsRint]

theorem floorAt_zero (den : ℕ) (k : ℤ) : floorAt (.ratio 0 den) k = (0, true) := by simp [floorAt]

/-- Zero is exact at every spacing and in every mode. -/
theorem roundAt_zero (mode : RoundingMode) (neg : Bool) (den : ℕ) (k : ℤ) :
    roundAt mode neg (.ratio 0 den) k = (0, false) := by
  cases mode <;> simp [roundAt, floorAt_zero]

theorem rint_of_isZero {a : Word} (h : isZero a = true) (mode : RoundingMode) : rint a mode = (0, false) := by
  rw [rint, unitsMagnitude_eq_zero_iff.mpr h, roundAt_zero]
  simp

/-- `rint` takes the integer of R344, and says whether that is another number than the operand. -/
theorem rint_spec (a : Word) (mode : RoundingMode) :
    IsRint mode (fpValue a) (rint a mode).1 ∧ ((rint a mode).2 = true ↔ ((rint a mode).1 : ℚ) ≠ fpValue a) := by
  cases hzero : isZero a with
  | true =>
    rw [rint_of_isZero hzero, fpValue_eq_zero_iff.mpr hzero]
    exact ⟨isRint_zero mode, by simp⟩
  | false =>
    have hpos := unitsMagnitude_pos hzero
    have hm : (Magnitude.ratio (unitsMagnitude a) (2 ^ 149)).Pos := ⟨hpos, by positivity⟩
    have ht : 0 < (unitsMagnitude a : ℚ) / 2 ^ 149 := by positivity
    have hvalue : (Magnitude.ratio (unitsMagnitude a) (2 ^ 149)).value / (2 : ℝ) ^ (0 : ℤ) =
        (((unitsMagnitude a : ℚ) / 2 ^ 149 : ℚ) : ℝ) := by
      rw [Magnitude.value, zpow_zero, div_one, Nat.cast_pow, Nat.cast_ofNat, Rat.cast_div, Rat.cast_natCast,
        Rat.cast_pow, Rat.cast_ofNat]
    obtain ⟨hrounded, hinexact⟩ := roundAt_spec hm mode (fpSign a) 0
    rw [hvalue] at hrounded hinexact
    rw [fpValue_eq_negateIf]
    refine ⟨hrounded.isRint ht, hinexact.trans (not_congr ?_)⟩
    rw [← hrounded.eq_iff]
    exact (negateIf_intCast_eq_iff _ _ _).symm

/-! ## Conversion to an integer -/

section
variable {a : Word} (mode : RoundingMode) (lo hi : ℤ)

theorem fcvtToInt_of_isNaN_or_plus_infinity (h : isNaN a = true ∨ a = infinityOf false) :
    fcvtToInt a mode lo hi = (BitVec.ofInt 32 hi, flagNV) := by
  refine if_pos ?_
  obtain hnan | rfl := h
  · rw [hnan, Bool.true_or]
  · rfl

theorem fcvtToInt_of_minus_infinity :
    fcvtToInt (infinityOf true) mode lo hi = (BitVec.ofInt 32 lo, flagNV) := rfl

theorem fcvtToInt_of_isFinite (h : isFinite a = true) :
    fcvtToInt a mode lo hi =
      if hi < (rint a mode).1 then (BitVec.ofInt 32 hi, flagNV)
      else if (rint a mode).1 < lo then (BitVec.ofInt 32 lo, flagNV)
      else (BitVec.ofInt 32 (rint a mode).1, flagIf (rint a mode).2 flagNX) := by
  simp [fcvtToInt, classes_of_isFinite h]

theorem flagIf_rint :
    flagIf (rint a mode).2 flagNX = if ((rint a mode).1 : ℚ) = fpValue a then noFlags else flagNX := by
  simp only [flagIf, (rint_spec a mode).2, ite_not]

end

/-- An instruction with an `rm` field that writes `x[rd]`, in the mode that it selects. -/
theorem roundedNext_writesX (i : Instr) {rm : BitVec 3} {mode : RoundingMode} {s : State}
    (hmode : ModeSelected s rm mode) (rd : XReg) (result : RoundingMode → Word × FpFlags) :
    ∃ t, roundedNext i rm (fun mode => s.finishX rd (result mode)) s = .next t ∧
      WritesXAndFlags s t rd (result mode) :=
  ⟨_, (roundedNext_spec i rm _ s).1 mode hmode, .finishX s rd _⟩

/-- Settles O47: each is one `roundedNext` with `fcvtToInt` for its own range. -/
theorem conversionsToInteger : Obligations.ConversionsToInteger := by
  intro rd rs1 rm mode s hmode a converted
  have converts {lo hi : ℤ} (hle : lo ≤ hi) : converted lo hi (fcvtToInt a mode lo hi) := by
    refine ⟨fcvtToInt_of_isNaN_or_plus_infinity mode lo hi, fun h => ?minusInfinity, fun hfinite => ?finite⟩
    case minusInfinity =>
      rw [h]
      exact fcvtToInt_of_minus_infinity mode lo hi
    case finite =>
      rw [fcvtToInt_of_isFinite mode lo hi hfinite]
      refine ⟨_, (rint_spec a mode).1, fun hover => if_pos hover, fun hunder => ?below, fun hlo hhi => ?inRange⟩
      case below => rw [if_neg (by omega), if_pos hunder]
      case inRange => rw [if_neg (by omega), if_neg (by omega), flagIf_rint]
  obtain ⟨t, hnext, hwrites⟩ := roundedNext_writesX (.fcvtWS rd rs1 rm) hmode rd (fcvtWSOf a)
  obtain ⟨tu, hnextu, hwritesu⟩ := roundedNext_writesX (.fcvtWUS rd rs1 rm) hmode rd (fcvtWuSOf a)
  exact ⟨⟨t, _, hnext, hwrites, converts (by decide)⟩, tu, _, hnextu, hwritesu, converts (by decide)⟩

end Sys2Proof.Machine

/-! Proofs of the statements from 60_exceptions.md and 70_reset_and_hazards.md: which steps are taken (R404, R419), how
a run ends (R407), which instruction raises which exception (R400), the state after reset (R450) and a placed instruction
(R452). -/

namespace Sys2Proof.Machine

open Sys2Proof

/-! ## The exceptions of each instruction

One case distinction on the instruction: each constructor ends in one of the shared operations, whose exceptions are
those that the third column of the table (60_exceptions.md R400) gives the instruction. -/

/-- The outcome of the instruction `i` at `s`: it takes an exception that the table gives it, or completes with the
run's outcome as it was. -/
def RaisesListedOrCompletes (i : Instr) (o : Host.Outcome State Fault Refusal) (s : State) : Prop :=
  (∃ cause info, Raises o s cause info ∧ i.mnemonic ∈ raisedBy cause) ∨ ∃ t, o = .next t ∧ t.outcome = s.outcome

section
variable {i : Instr} {o : Host.Outcome State Fault Refusal} {s : State}

theorem RaisesListedOrCompletes.of_raises {cause : Cause} {info : Word} (h : Raises o s cause info)
    (hi : i.mnemonic ∈ raisedBy cause) : RaisesListedOrCompletes i o s := .inl ⟨cause, info, h, hi⟩

theorem RaisesListedOrCompletes.of_next {t : State} (h : t.outcome = s.outcome) :
    RaisesListedOrCompletes i (.next t) s := .inr ⟨t, rfl, h⟩

theorem transferNext_raisesListed (target : Word) {link : State → State} (hlink : (link s).outcome = s.outcome)
    (hi : i.mnemonic ∈ raisedBy .instructionAddressMisaligned) :
    RaisesListedOrCompletes i (transferNext target link s) s := by
  obtain ⟨haligned, hmisaligned⟩ := transferNext_spec target link s
  by_cases h : target.toNat % 4 = 0
  · rw [haligned h]
    exact .of_next hlink
  · exact .of_raises (hmisaligned h) hi

theorem jumpAndLink_raisesListed (target : Word) (rd : XReg)
    (hi : i.mnemonic ∈ raisedBy .instructionAddressMisaligned) :
    RaisesListedOrCompletes i (transferNext target (fun s => s.setX rd (s.pc + 4#32)) s) s :=
  transferNext_raisesListed target (by simp) hi

theorem branchNext_raisesListed (taken : Bool) (offset : BitVec 13)
    (hi : i.mnemonic ∈ raisedBy .instructionAddressMisaligned) :
    RaisesListedOrCompletes i (branchNext taken offset s) s := by
  cases taken with
  | false => exact .of_next rfl
  | true => exact transferNext_raisesListed _ rfl hi

/-- An access raises for its alignment, unless it is of one byte, or for the map (20_memory.md R72, R76). -/
theorem ChecksAccess.raisesListed {kind : Access} {addr : Word} {w : Width} {misaligned fault : Cause}
    (h : ChecksAccess o s kind addr (bytesIn w) misaligned fault)
    (hok : AlignmentOk s addr (bytesIn w) → MapOk s kind addr (bytesIn w) → ∃ t, o = .next t ∧ t.outcome = s.outcome)
    (hmisaligned : w ≠ .byte → i.mnemonic ∈ raisedBy misaligned) (hfault : i.mnemonic ∈ raisedBy fault) :
    RaisesListedOrCompletes i o s := by
  by_cases halign : AlignmentOk s addr (bytesIn w)
  · by_cases hmap : MapOk s kind addr (bytesIn w)
    · exact .inr (hok halign hmap)
    · exact .of_raises (h.2 halign hmap) hfault
  · have hw : w ≠ .byte := by
      rintro rfl
      exact halign (.byte s addr)
    exact .of_raises (h.1 halign) (hmisaligned hw)

theorem loadThen_raisesListed (addr : Word) (w : Width) {k : Word → State} (hk : ∀ v, (k v).outcome = s.outcome)
    (hmisaligned : w ≠ .byte → i.mnemonic ∈ raisedBy .loadAddressMisaligned)
    (hfault : i.mnemonic ∈ raisedBy .loadAccessFault) : RaisesListedOrCompletes i (loadThen addr w s k) s :=
  (loadThen_checks addr w s k).raisesListed
    (fun halign hmap => ⟨_, (loadThen_spec addr w s k).1 halign hmap, hk _⟩) hmisaligned hfault

theorem loadXNext_raisesListed (rd rs1 : XReg) (offset : BitVec 12) (w : Width) (ext : Word → Word)
    (hmisaligned : w ≠ .byte → i.mnemonic ∈ raisedBy .loadAddressMisaligned)
    (hfault : i.mnemonic ∈ raisedBy .loadAccessFault) :
    RaisesListedOrCompletes i (loadXNext rd rs1 offset w ext s) s :=
  loadThen_raisesListed _ w (fun _ => by simp) hmisaligned hfault

theorem storeNext_raisesListed (addr : Word) (w : Width) (v : Word)
    (hmisaligned : w ≠ .byte → i.mnemonic ∈ raisedBy .storeAddressMisaligned)
    (hfault : i.mnemonic ∈ raisedBy .storeAccessFault) : RaisesListedOrCompletes i (storeNext addr w v s) s := by
  refine (storeNext_checks addr w v s).raisesListed (fun halign hmap => ?_) hmisaligned hfault
  obtain ⟨t, hnext, hstores⟩ := (storeNext_spec addr w v s).1 halign hmap
  exact ⟨t, hnext, hstores.run.1⟩

theorem csrNext_raisesListed (rd : XReg) (csr : CsrAddr) (writes : Bool) (new : Word → Word)
    (hi : i.mnemonic ∈ raisedBy .illegalInstruction) : RaisesListedOrCompletes i (csrNext i rd csr writes new s) s := by
  unfold csrNext
  cases csrLookup csr with
  | none => exact .of_raises rfl hi
  | some entry =>
    dsimp only
    split
    · exact .of_raises rfl hi
    · exact .of_next (by cases writes <;> simp)

theorem roundedNext_raisesListed (rm : BitVec 3) {run : RoundingMode → State}
    (hrun : ∀ mode, (run mode).outcome = s.outcome) (hi : i.mnemonic ∈ raisedBy .illegalInstruction) :
    RaisesListedOrCompletes i (roundedNext i rm run s) s := by
  obtain ⟨hselected, hreserved⟩ := roundedNext_spec i rm run s
  obtain hr | ⟨mode, hmode⟩ := modeReserved_or_selected s rm
  · exact .of_raises (hreserved hr) hi
  · rw [hselected mode hmode]
    exact .of_next (hrun mode)

end

@[simp] theorem State.outcome_finishF (s : State) (rd : FReg) (r : Word × FpFlags) :
    (s.finishF rd r).outcome = s.outcome := (WritesFAndFlags.finishF s rd r).run.1

@[simp] theorem State.outcome_finishX (s : State) (rd : XReg) (r : Word × FpFlags) :
    (s.finishX rd r).outcome = s.outcome := (WritesXAndFlags.finishX s rd r).run.1

theorem exec_raisesListed (i : Instr) (s : State) : RaisesListedOrCompletes i (exec i s) s := by
  cases i with
  | add | addi | and | andi | auipc | lui | or | ori | sll | slli | slt | slti | sltiu | sltu | sra | srai | srl | srli
  | sub | xor | xori | div | divu | mul | mulh | mulhsu | mulhu | rem | remu | fence | fclassS | fmvXW | fmvWX | fsgnjS
  | fsgnjnS | fsgnjxS | fmaxS | fminS | feqS | fleS | fltS =>
    exact .of_next (by simp)
  | beq | bge | bgeu | blt | bltu | bne => exact branchNext_raisesListed _ _ (by simp [Instr.mnemonic, raisedBy])
  | jal | jalr =>
    dsimp only [exec, execJal, execJalr]
    exact jumpAndLink_raisesListed _ _ (by simp [Instr.mnemonic, raisedBy])
  | lb | lbu | lh | lhu | lw =>
    dsimp only [exec, execLb, execLbu, execLh, execLhu, execLw]
    exact loadXNext_raisesListed _ _ _ _ _ (by simp [Instr.mnemonic, raisedBy]) (by simp [Instr.mnemonic, raisedBy])
  | flw =>
    rw [exec_flw]
    exact loadThen_raisesListed _ _ (by simp) (by simp [Instr.mnemonic, raisedBy])
      (by simp [Instr.mnemonic, raisedBy])
  | sb | sh | sw | fsw =>
    dsimp only [exec, execSb, execSh, execSw, execFsw]
    exact storeNext_raisesListed _ _ _ (by simp [Instr.mnemonic, raisedBy]) (by simp [Instr.mnemonic, raisedBy])
  | csrrc | csrrci | csrrs | csrrsi | csrrw | csrrwi =>
    dsimp only [exec, execCsrrc, execCsrrci, execCsrrs, execCsrrsi, execCsrrw, execCsrrwi]
    exact csrNext_raisesListed _ _ _ _ (by simp [Instr.mnemonic, raisedBy])
  | ebreak | ecall => exact .of_raises (raiseNext_spec _ _ s) (by simp [Instr.mnemonic, raisedBy])
  | faddS | fdivS | fmaddS | fmsubS | fmulS | fnmaddS | fnmsubS | fsqrtS | fsubS | fcvtSW | fcvtSWU | fcvtWS
  | fcvtWUS =>
    exact roundedNext_raisesListed _ (by simp) (by simp [Instr.mnemonic, raisedBy])

/-- Settles O15: an instruction that ends trapped at a running state did not complete, so it raised an exception that
the table gives it. -/
theorem trapCauseBelongsToInstruction : Obligations.TrapCauseBelongsToInstruction := by
  intro i s t record hrunning hexec htrapped
  obtain ⟨cause, info, hraise, hlisted⟩ | ⟨t', hnext, hout⟩ := exec_raisesListed i s
  · cases hexec.symm.trans hraise
    cases htrapped
    exact hlisted
  · cases hexec.symm.trans hnext
    cases htrapped.symm.trans (hout.trans hrunning)

/-- Settles O14: every constructor ends in an effect of the instruction on the state. -/
theorem execAnswersNextState : Obligations.ExecAnswersNextState := by
  intro i s
  obtain ⟨t, hnext, -⟩ := exec_hasEffect i s
  exact ⟨t, hnext⟩

/-! ## When a step is taken -/

/-- A fetched word is executed, or raises `IllegalInstruction`; both answer a next state. -/
theorem step_next_of_fetches {s : State} {w : Word} (h : Fetches s w) : ∃ t, step s = .next t := by
  rw [step_of_fetches h]
  cases decodeWord w with
  | ok i => exact execAnswersNextState i s
  | error _ => exact ⟨_, rfl⟩

/-- Settles O11: by what the fetch finds: a byte outside the map, a stored byte, or a word. -/
theorem stepTakenWhileRunning : Obligations.StepTakenWhileRunning := by
  intro s
  refine ⟨fun hrunning => ?_, fun record => step_of_trapped⟩
  by_cases hmap : MapOk s .fetch s.pc 4
  · by_cases hstored : ∃ k < 4, byteAddress s.pc k ∈ s.written
    · obtain ⟨k, hk, hmem, hrefused⟩ := fetchOfStoredByteIsRefused s hrunning hmap hstored
      exact .inr ⟨_, hmem, ⟨k, hk, rfl⟩, hrefused⟩
    · push Not at hstored
      obtain ⟨w, hw⟩ := fetches_exists hrunning hmap hstored
      exact .inl (step_next_of_fetches hw)
  · exact .inl ⟨_, fetchOutsideMapRaises s hrunning hmap⟩

/-! ## The end of a run -/

/-- Only an ended run answers a fault (60_exceptions.md R404). -/
theorem outcome_of_step_fault {s : State} {record : TrapRecord} (h : step s = .fault (.runEnded record)) :
    s.outcome = .trapped record := by
  obtain ⟨hrunning, htrapped⟩ := stepTakenWhileRunning s
  cases hout : s.outcome with
  | trapped record' =>
    cases h.symm.trans (htrapped record' hout)
    rfl
  | running =>
    obtain ⟨t, hnext⟩ | ⟨a, -, -, hrefused⟩ := hrunning hout
    · cases h.symm.trans hnext
    · cases h.symm.trans hrefused

theorem runFor_zero_of_running {s : State} (h : s.outcome = .running) : runFor 0 s = .running s := by
  rw [runFor, h]

theorem runFor_of_trapped {s : State} {record : TrapRecord} (h : s.outcome = .trapped record) (n : Nat) :
    runFor n s = .ended record s := by
  cases n with
  | zero => rw [runFor, h]
  | succ n => rw [runFor, step_of_trapped h]

theorem runFor_succ_of_next {s t : State} (h : step s = .next t) (n : Nat) : runFor (n + 1) s = runFor n t := by
  rw [runFor, h]

theorem runFor_succ_of_refused {s : State} {reason : Refusal} (h : step s = .refused reason) (n : Nat) :
    runFor (n + 1) s = .refused reason := by
  rw [runFor, h]

/-- Settles O12, by induction on the steps of the run that ended: the larger bound takes the same steps as long as the
hart is running, and none once the run has ended. -/
theorem endedRunIsFinal : Obligations.EndedRunIsFinal := by
  intro n
  induction n with
  | zero =>
    intro m s f record hrun _
    cases hout : s.outcome with
    | running => cases hrun.symm.trans (runFor_zero_of_running hout)
    | trapped record' =>
      cases hrun.symm.trans (runFor_of_trapped hout 0)
      exact ⟨runFor_of_trapped hout m, hout⟩
  | succ n ih =>
    intro m s f record hrun hm
    cases hstep : step s with
    | next t =>
      obtain ⟨m, rfl⟩ := Nat.exists_eq_succ_of_ne_zero (Nat.ne_zero_of_lt hm)
      rw [runFor_succ_of_next hstep] at hrun ⊢
      exact ih m t f record hrun (Nat.le_of_succ_le_succ hm)
    | fault reason =>
      obtain ⟨record'⟩ := reason
      have hout := outcome_of_step_fault hstep
      cases hrun.symm.trans (runFor_of_trapped hout (n + 1))
      exact ⟨runFor_of_trapped hout m, hout⟩
    | refused reason => cases hrun.symm.trans (runFor_succ_of_refused hstep n)

/-! ## An instruction placed at `pc` -/

theorem State.withFetchWord_toNat (s : State) (w : Word) : s.withFetchWord 32 w.toNat = s.placeWord w := by
  rw [State.withFetchWord, Nat.mod_eq_of_lt w.isLt, BitVec.ofNat_toNat, BitVec.setWidth_eq]

/-- The placing takes its four bytes out of the written-since-reset set (log 11). -/
theorem State.not_mem_written_placeWord (s : State) (w : Word) {k : Nat} (hk : k < 4) :
    byteAddress s.pc k ∉ (s.placeWord w).written := by
  have haccess : byteAddress s.pc k ∈ accessAddresses s.pc 4 := mem_accessAddresses.mpr ⟨k, hk, rfl⟩
  simp [haccess]

/-- A word placed at a mapped `pc` is the one fetched next (70_reset_and_hazards.md R452). -/
theorem Fetches.placeWord {s : State} (hrunning : s.outcome = .running) (hmap : MapOk s .fetch s.pc 4) (w : Word) :
    Fetches (s.placeWord w) w where
  running := hrunning
  mapped := hmap
  unwritten _ hk := s.not_mem_written_placeWord w hk
  bytes _ hk := Memory.read_writeValue_byte s.mem s.pc w (le_refl 4) hk

theorem decodeWord_encode_of_wellFormed {i : Instr} (hi : i.wellFormed = true) : decodeWord (encode i) = .ok i := by
  rw [decodeWord_encode, decodeFields_encodeFields i hi]

/-- Settles O8: the placed word is fetched, and decodes to the instruction. -/
theorem placedInstructionRuns : Obligations.PlacedInstructionRuns := by
  intro s i hrunning hmap hi
  rw [State.withFetchWord_toNat]
  exact stepRunsDecodedInstruction _ _ i (.placeWord hrunning hmap _) (decodeWord_encode_of_wellFormed hi)

/-! ## Reset -/

theorem resetPc_aligned : Config.resetPc.toNat % 4 = 0 := rfl

/-- Settles O18: memory and the written-since-reset set are empty. -/
theorem resetMeetsInvariant : Obligations.ResetMeetsInvariant :=
  ⟨resetPc_aligned, Memory.wf_reset, ⟨.nil, nofun⟩, nofun⟩

/-- `fcsr[31:8]` read zero in every state (10_state.md R42). -/
theorem State.csrRead_fcsr_upper (s : State) : (s.csrRead .fcsr).extractLsb' 8 24 = 0#24 := by
  ext k hk
  simp [State.csrRead]

/-- The map at reset gives every permission at every address (log 7). -/
theorem mapPermits_launchParams (kind : Access) {a : Nat} (ha : a < 2 ^ 32) :
    mapPermits Config.launchParams.memMap kind a = true := by
  have hregion : regionContains ⟨0, 2 ^ 32, true, true, true⟩ a = true := by simpa [regionContains] using ha
  have hfind : Config.launchParams.memMap.find? (regionContains · a) = some ⟨0, 2 ^ 32, true, true, true⟩ :=
    List.find?_cons_of_pos hregion
  rw [mapPermits, hfind]
  cases kind <;> rfl

/-- Settles O19: the fields are those that `State.reset` names, and the map at reset permits every fetch. -/
theorem resetStateIsAsSpecified : Obligations.ResetStateIsAsSpecified :=
  ⟨rfl, rfl, State.getX_zero _, State.csrRead_fcsr_upper _, rfl, resetPc_aligned,
    fun k _ => mapPermits_launchParams .fetch (byteAddress_lt _ k)⟩

end Sys2Proof.Machine
